-- ==== Sys2Proof/Word.lean ====
section
/-! DEFINITION. The words of SWUART: bytes, the 12-bit host transaction (format H), the 4-bit event
code (format E), and the 32-bit answer of the host port (spec 30_encoding R81, R83, R84; 10_state R44). -/

namespace Sys2Proof

/-- One byte: `tx.target_byte`, `rx.accumulator`, a FIFO slot (R21, R22, R34). -/
abbrev Byte := BitVec 8

/-- A host transaction of format H, `waaadddddddd` (R83). -/
abbrev HostWord := BitVec 12

/-- An event code of format E (R84). -/
abbrev EventCode := BitVec 4

/-- A host register as the port returns it: `h_rdata[31:0]` (R44, R83). -/
abbrev Word := BitVec 32

/-- What names an operation: an operation word of format H or an event code of format E (R81, R218). -/
inductive Code where
  | h (w : HostWord)
  | e (c : EventCode)
deriving DecidableEq, Repr

end Sys2Proof
end

