-- ==== Sys2Proof/Syntax.lean ====
section
/-! DEFINITION. The operation set of SWUART (spec 30_encoding R82): one constructor per row of
spec/opcode_table.json. -/

namespace Sys2Proof

/-- The twelve operations (R82). The eight host operations are words of format H; a read carries the
field `d` of its word, which its meaning ignores (R86) and only the event history shows (R218, log 19).
The four events are codes of format E. -/
inductive Instr where
  /-- `TXSTART b`: write of TXDATA (R45, R136). -/
  | txstart (b : Byte)
  /-- `TXWAIT`: read of address 1 (R46, R143). -/
  | txwait (d : Byte)
  /-- `RXPOP`: read of RXDATA (R47, R124). -/
  | rxpop (d : Byte)
  /-- `RDSTAT`: read of STATUS (R48, R183). -/
  | rdstat (d : Byte)
  /-- `INIT`: write of CTRL with 0x01 (R49, R196). -/
  | init
  /-- `TEARDOWN`: write of CTRL with 0x00 (R49, R198). -/
  | teardown
  /-- `RDCNTOK`: read of CNT_OK (R50, R184). -/
  | rdcntok (d : Byte)
  /-- `RDCNTFE`: read of CNT_FERR (R50, R185). -/
  | rdcntfe (d : Byte)
  /-- `TXTICK`: one firing of the TX timer (R138). -/
  | txtick
  /-- `RXEDGE`: the falling-edge handler (R159). -/
  | rxedge
  /-- `RXTICK`: one firing of the RX timer (R161). -/
  | rxtick
  /-- `LINE v`: the environment drives `rx_in` to `v`, true for HIGH (R156). -/
  | line (v : Bool)
deriving DecidableEq, Repr

end Sys2Proof
end

