-- ==== Sys2Proof/WellFormed.lean ====
section
/-! DEFINITION. Well-formedness. An operand of `Instr` is exactly its field of the word (R85), so every
term of `Instr` is well formed; what can be ill formed is a CODE: the reserved words of format H (R86)
and the unused codes of format E (R84), written here from those rules' own ranges. -/

namespace Sys2Proof

/-- Every instruction is well formed: each operand has exactly the width of its field (R85). -/
def Instr.wf : Instr → Bool
  | .txstart _ => true
  | .txwait _ => true
  | .rxpop _ => true
  | .rdstat _ => true
  | .init => true
  | .teardown => true
  | .rdcntok _ => true
  | .rdcntfe _ => true
  | .txtick => true
  | .rxedge => true
  | .rxtick => true
  | .line _ => true

/-- The reserved words of format H, range by range as R86 lists them. -/
def HostWord.reserved (w : HostWord) : Bool :=
  decide (w.toNat ≤ 0x0FF) ||
  (decide (0x400 ≤ w.toNat) && decide (w.toNat ≤ 0x4FF)) ||
  (decide (0x700 ≤ w.toNat) && decide (w.toNat ≤ 0x7FF)) ||
  (decide (0x900 ≤ w.toNat) && decide (w.toNat ≤ 0xBFF)) ||
  (decide (0xC02 ≤ w.toNat) && decide (w.toNat ≤ 0xCFF)) ||
  (decide (0xD00 ≤ w.toNat) && decide (w.toNat ≤ 0xEFF)) ||
  decide (0xF00 ≤ w.toNat)

/-- The unused codes of format E: `0000` and `0110` to `1111` (R84). -/
def EventCode.unused (c : EventCode) : Bool :=
  decide (c.toNat = 0) || decide (6 ≤ c.toNat)

/-- A code is well formed when it names an operation. -/
def Code.wf : Code → Bool
  | .h w => !HostWord.reserved w
  | .e c => !EventCode.unused c

end Sys2Proof
end

