-- ==== Sys2Proof/Decode.lean ====
section
/-! DEFINITION. Decoding and encoding, from the match and mask table of spec 30_encoding R82 (formats
R83, R84). A word that matches no row is rejected by the name of the reserved access it is (R51, R86). -/

namespace Sys2Proof

/-- Why a code names no operation: the reserved accesses of R51 and R86, and the unused event codes of
R84. -/
inductive DecodeError where
  /-- 0x000 to 0x0FF: read of TXDATA. -/
  | readOfTxdata
  /-- 0x400 to 0x4FF: read of CTRL. -/
  | readOfCtrl
  /-- 0x700 to 0x7FF: read of address 7. -/
  | readOfAddr7
  /-- 0x900 to 0xBFF: write of TXWAIT, RXDATA or STATUS. -/
  | writeOfReadOnly
  /-- 0xC02 to 0xCFF: CTRL with an unknown command. -/
  | unknownCtrlCommand
  /-- 0xD00 to 0xEFF: write of CNT_OK or CNT_FERR. -/
  | writeOfCounter
  /-- 0xF00 to 0xFFF: write of address 7. -/
  | writeOfAddr7
  /-- An event code that names nothing. -/
  | unusedEvent
deriving DecidableEq, Repr

/-- The bit `w` of format H: set for a write (R83). -/
def HostWord.isWrite (w : HostWord) : Bool := w.getLsbD 11

/-- The field `a` of format H: the word address (R83). -/
def HostWord.addr (w : HostWord) : BitVec 3 := w.extractLsb' 8 3

/-- The field `d` of format H: the write data `wdata[7:0]` (R83). -/
def HostWord.data (w : HostWord) : Byte := w.extractLsb' 0 8

/-- `W & mask = match` (R82). -/
def HostWord.hits (w mask pattern : HostWord) : Bool := w &&& mask == pattern

/-- Which reserved access a word that matches no row is (R51, R86). -/
def reservedName (w : HostWord) : DecodeError :=
  if HostWord.isWrite w then
    if (HostWord.addr w).toNat ≤ 3 then .writeOfReadOnly
    else if (HostWord.addr w).toNat = 4 then .unknownCtrlCommand
    else if (HostWord.addr w).toNat ≤ 6 then .writeOfCounter
    else .writeOfAddr7
  else
    if (HostWord.addr w).toNat = 0 then .readOfTxdata
    else if (HostWord.addr w).toNat = 4 then .readOfCtrl
    else .readOfAddr7

/-- Format H: the operation of the first row whose `W & mask = match` (R82). -/
def decodeHost (w : HostWord) : Except DecodeError Instr :=
  if HostWord.hits w 0xF00#12 0x800#12 then .ok (.txstart (HostWord.data w))
  else if HostWord.hits w 0xF00#12 0x100#12 then .ok (.txwait (HostWord.data w))
  else if HostWord.hits w 0xF00#12 0x200#12 then .ok (.rxpop (HostWord.data w))
  else if HostWord.hits w 0xF00#12 0x300#12 then .ok (.rdstat (HostWord.data w))
  else if HostWord.hits w 0xFFF#12 0xC01#12 then .ok .init
  else if HostWord.hits w 0xFFF#12 0xC00#12 then .ok .teardown
  else if HostWord.hits w 0xF00#12 0x500#12 then .ok (.rdcntok (HostWord.data w))
  else if HostWord.hits w 0xF00#12 0x600#12 then .ok (.rdcntfe (HostWord.data w))
  else .error (reservedName w)

/-- Format E: `0001`, `0010`, `0011` and `010v` (R84). -/
def decodeEvent (c : EventCode) : Except DecodeError Instr :=
  if c &&& 0xF#4 = 0x1#4 then .ok .txtick
  else if c &&& 0xF#4 = 0x2#4 then .ok .rxedge
  else if c &&& 0xF#4 = 0x3#4 then .ok .rxtick
  else if c &&& 0xE#4 = 0x4#4 then .ok (.line (c.getLsbD 0))
  else .error .unusedEvent

/-- Decoding of any code. It does not look at the state (R87). -/
def decode : Code → Except DecodeError Instr
  | .h w => decodeHost w
  | .e c => decodeEvent c

/-- The word of a host read or write: the fields of R83 put together. -/
def hostWord (isWrite : Bool) (addr : BitVec 3) (d : Byte) : HostWord :=
  BitVec.ofBool isWrite ++ addr ++ d

/-- The code of an instruction (R82, R83, R84). -/
def encode : Instr → Code
  | .txstart b => .h (hostWord true 0#3 b)
  | .txwait d => .h (hostWord false 1#3 d)
  | .rxpop d => .h (hostWord false 2#3 d)
  | .rdstat d => .h (hostWord false 3#3 d)
  | .init => .h (hostWord true 4#3 0x01#8)
  | .teardown => .h (hostWord true 4#3 0x00#8)
  | .rdcntok d => .h (hostWord false 5#3 d)
  | .rdcntfe d => .h (hostWord false 6#3 d)
  | .txtick => .e 0b0001#4
  | .rxedge => .e 0b0010#4
  | .rxtick => .e 0b0011#4
  | .line v => .e (0b010#3 ++ BitVec.ofBool v)

/-- How spec/opcode_table.json numbers bits: a row of format H has 12 bits (two bytes), one of format E
has 4 (one byte), so a row of at most eight bits is an event code. Log 20. -/
def codeOfTable (nbits w : Nat) : Code :=
  if nbits ≤ 8 then .e (BitVec.ofNat 4 w) else .h (BitVec.ofNat 12 w)

/-- Whether `w` has no bit above its format: bits 15:12 of a host word's two bytes, and bits 7:4 of an
event code's byte, do not exist in the formats. -/
def tableWordFits (nbits w : Nat) : Bool :=
  if nbits ≤ 8 then decide (w < 16) else decide (w < 4096)

/-- What the decoder reads from a word numbered as the table numbers it; none where it refuses. -/
def decodeTableWord (nbits w : Nat) : Option Instr :=
  if tableWordFits nbits w then
    match decode (codeOfTable nbits w) with
    | .ok i => some i
    | .error _ => none
  else none

end Sys2Proof
end

