-- ==== Sys2Proof/Config.lean ====
section
/-! DEFINITION. What an implementation fixes (spec 00_scope R8, R10: the OPEN parameters), and the FREE
VALUES: constants without a body, about which nothing can be proved. -/

namespace Sys2Proof

/-- The fixed parameters of one SWUART (R8, R10). The bounds of R8 (1 <= BAUD <= 10^9, C >= 2) hold by
construction: the two fields are offsets, read through `Params.baud` and `Params.capacity`
(Machine/Ops.lean). So do the pins: TX_PIN is any number, and RX_PIN any other one, kept as its place among
the numbers that are not TX_PIN (`Params.rxPin`, log 25). -/
structure Params where
  /-- `BAUD - 1`. -/
  baudMinusOne : Fin 1000000000
  /-- `C - 2`. -/
  slotsMinusTwo : Nat
  /-- `TX_PIN`: the number of the output pin. -/
  txPin : Nat
  /-- `RX_PIN`, counted among the pins that are not `TX_PIN`. -/
  rxPinSkip : Nat
  /-- `TICK_LAT_MAX`: how late a timer expiry may be served, ns (R111). -/
  tickLatMax : Nat
  /-- `EDGE_LAT_MAX`: how late the edge handler may run, ns (R158). -/
  edgeLatMax : Nat
deriving DecidableEq, Repr, Inhabited

/-- The parameters of the machine at reset. OPEN in the spec (R8, R10, D10, D11, D16): no body, so no
statement can rest on a value of them. Log 9. -/
opaque Config.params : Params

/-- FREE VALUE of a byte: `tx.target_byte` after a TxOverlap (R137, U1). Log 4. -/
opaque Config.freeByte : Nat → Byte

/-- FREE VALUE of `tx.bit_index` after a TxOverlap, as its distance from -1 (R137, U1). Log 4. -/
opaque Config.freeIndex : Nat → Fin 11

/-- FREE VALUE of one bit: `tx.done_signal` and `tx_timer.armed` after a TxOverlap (log 4), `tx_out`
after an `INIT` that fails with IRQ_FAIL (log 14) and after a `TEARDOWN` (log 16). -/
opaque Config.freeBit : Nat → Bool

/-- FREE VALUE of a time: `tx_timer.deadline` after a TxOverlap (R137, U1). Log 4. -/
opaque Config.freeTime : Nat → Nat

end Sys2Proof
end

