-- ==== Sys2Proof/Machine/State.lean ====
section
/-! DEFINITION. The state of SWUART (spec 10_state R20 and the fields it lists), its parts, the faults and
refusals of the model, and the state after hardware reset (R52, R240). -/

namespace Sys2Proof.Machine

/-- The lifecycle state (R41). -/
inductive Life where
  | down
  | up
deriving DecidableEq, Repr

/-- `last_err`: why the last `INIT` failed, 0, 1 or 2 (R41). -/
inductive LastErr where
  | noFailure
  | mapping
  | irqRegistration
deriving DecidableEq, Repr

/-- The outcome of an `INIT`, chosen by the environment (R197). -/
inductive InitOutcome where
  | ok
  | mapFail
  | irqFail
deriving DecidableEq, Repr

/-- The states of the TX sequencer, `tx.bit_index` (R24, R25, R90): START is -1, DATA[i] is i, STOP is 8,
DONE is 9. -/
inductive TxIndex where
  | start
  | data (i : Fin 8)
  | stop
  | done
deriving DecidableEq, Repr

/-- `TxState` (R21, R24, R26). -/
structure TxState where
  targetByte : Byte
  bitIndex : TxIndex
  doneSignal : Bool
deriving DecidableEq, Repr

/-- `RxState` (R22, R28, R29). -/
structure RxState where
  active : Bool
  bitCount : Fin 9
  accumulator : Byte
deriving DecidableEq, Repr

/-- A hardware timer (R39, R106); the deadline means something only while armed. -/
structure Timer where
  armed : Bool
  deadline : Nat
deriving DecidableEq, Repr

/-- The FIFO's storage as (slot, byte) pairs in one canonical form: slots strictly rising, no pair
holding the byte an unlisted slot reads as (R34, R60; log 12). -/
abbrev Memory := List Host.Cell

/-- The RX FIFO (R120). -/
structure Fifo where
  storage : Memory
  head : Nat
  tail : Nat
deriving DecidableEq, Repr

/-- The configured direction of a pin (R40, R101). -/
inductive Dir where
  | unset
  | inp
  | out
deriving DecidableEq, Repr

/-- The agents that take steps (R12, R88). -/
inductive Agent where
  | host
  | txtimer
  | rxedge
  | rxtimer
  | env
deriving DecidableEq, Repr

/-- The events that `raise` and `record` put into the history (R210, R218). -/
inductive Event where
  /-- Cause 1: `INIT` failed; `kind` is 1 (mapping) or 2 (interrupt registration) (R211). -/
  | initFailure (kind : LastErr)
  /-- Cause 2: stop bit sampled 0; the accumulator at that moment (R212). -/
  | framingError (acc : Byte)
  /-- Cause 3: push on a full FIFO; the dropped byte (R213). -/
  | bufferOverrun (dropped : Byte)
  /-- An accepted frame (R161). -/
  | frameOk (acc : Byte)
deriving DecidableEq, Repr

/-- One operation of the history (R218): `(now, agent, word or code, operand, result)`. `drive` is the
level the operation newly put on the output pin, so that the wire trace can be read off (log 17). -/
structure OpRecord where
  time : Nat
  agent : Agent
  code : Code
  operand : Option Byte
  result : Option Word
  drive : Option Bool
deriving DecidableEq, Repr

/-- One record of the event history (R218). -/
inductive Record where
  | op (r : OpRecord)
  | event (e : Event)
deriving DecidableEq, Repr

/-- The names a model records in `S.fault` (R216). -/
inductive FaultName where
  /-- A `TXSTART` taken while a byte is in flight (R137). -/
  | txOverlap
deriving DecidableEq, Repr

/-- What an agent, or the world outside, does next (R12). One input is one step. Log 1. -/
inductive Input where
  /-- The host presents a word of format H at the host port (R83). -/
  | host (w : HostWord)
  /-- The event of this code is taken by its agent (R84). -/
  | event (c : EventCode)
  /-- A caller calls `WRITE` with these bytes (R180, log 29). -/
  | write (bs : List Byte)
  /-- The `WRITE` at this place in `writes` takes its next operation, if it is not blocked (R180, log 29). -/
  | writer (k : Nat)
  /-- A caller calls `READ` with this bound (R181, log 29). -/
  | read (n : Nat)
  /-- The `READ` at this place in `reads` takes its next `RXPOP` (R181, log 29). -/
  | reader (k : Nat)
  /-- `ADVANCE dt` (R112). -/
  | advance (dt : Nat)
  /-- The environment shows the outcome that an `INIT` would meet (R197, log 8). -/
  | initDraw (o : InitOutcome)
  /-- The `rst` port is pulsed (R240). -/
  | rst
deriving DecidableEq, Repr

/-- Where the caller of a `WRITE` stands in its loop (R180). -/
inductive WritePhase where
  /-- The next byte is to be started. -/
  | start
  /-- A byte is started, its `TXWAIT` is to be issued. -/
  | wait
  /-- The caller is blocked in `TXWAIT`. -/
  | held
deriving DecidableEq, Repr

/-- The loop variable of a `WRITE` that is running; it is the host's (R186). -/
structure WriteCall where
  /-- The bytes not started yet. -/
  left : List Byte
  phase : WritePhase
  /-- How many bytes have been waited for. -/
  sent : Nat
deriving DecidableEq, Repr

/-- The loop variables of a `READ` that is running; they are the host's (R186). -/
structure ReadCall where
  /-- How many bytes it may still take. -/
  left : Nat
  /-- `out`: the bytes taken, in the order popped. -/
  got : List Byte
deriving DecidableEq, Repr

/-- The state record `S` (R20), the two outputs of the host port (R83), the fixed parameters (R8, R10),
and the model's own fields. -/
structure State where
  /-- The fixed parameters; no step changes them (R72). -/
  cfg : Params
  life : Life
  lastErr : LastErr
  tx : TxState
  txTimer : Timer
  rx : RxState
  rxIrqEn : Bool
  rxEdgePending : Bool
  rxEdgeTime : Nat
  rxTimer : Timer
  fifo : Fifo
  cntRxOk : Word
  cntRxFerr : Word
  txOut : Bool
  rxIn : Bool
  dirTx : Dir
  dirRx : Dir
  now : Nat
  /-- Model-only bookkeeping (R43). -/
  hist : List Record
  /-- Model-only bookkeeping (R43): a set, kept as a list without repeats. -/
  fault : List FaultName
  /-- Model-only bookkeeping (R43). -/
  refused : Bool
  /-- `h_ready`: whether the last host transaction presented was completed (R46, R83; log 7). -/
  hReady : Bool
  /-- `h_rdata`: the answer of the last host transaction, none where it returned no data (log 7). -/
  hRdata : Option Word
  /-- MODEL's own: the `d` fields of the `TXWAIT`s that are held, oldest first (R143, R234; log 6). -/
  held : List Byte
  /-- MODEL's own: the `WRITE`s that are running, in the order called (R180, R230; log 29). -/
  writes : List WriteCall
  /-- MODEL's own: when each `WRITE` that completed returned, and the count it returned (R180; log 29). -/
  returned : List (Nat × Nat)
  /-- MODEL's own: the `READ`s that are running, in the order called (R181, R230; log 29). -/
  reads : List ReadCall
  /-- MODEL's own: when each `READ` returned, and the bytes it returned (R181; log 29). -/
  delivered : List (Nat × List Byte)
  /-- MODEL's own: the outcome that the environment shows to an `INIT` (R197; log 8). -/
  initDraw : InitOutcome
  /-- MODEL's own: what the agents do from here on, in order (R12, R68, R74; log 1). -/
  inputs : List Input
  /-- MODEL's own: how many free values have been drawn (log 22). -/
  freeIx : Nat
deriving DecidableEq, Repr

/-- Why a step stops the model. -/
inductive Fault where
  /-- Raised by RXPOP and RXTICK (through `fifoPop` and `fifoPush`) when a cursor is not below C: that
  FIFO slot does not exist (R61). No state the rules reach does this (R55 (e)). SAFE: the model stops. -/
  | slotOutOfRange (slot : Nat)
deriving DecidableEq, Repr

/-- Why a step has no meaning. -/
inductive Refusal where
  /-- Raised by no arm: every instruction of the table has its meaning. SAFE. -/
  | notModelled (mnemonic : String)
  /-- Raised by the step on an event input whose code names no event (R84). SAFE: no event exists. -/
  | unusedEventCode (c : EventCode)
deriving DecidableEq, Repr

/-- The state after hardware reset: the left column of R52 (R240). A field the spec calls unspecified
there holds the value log 10 names; `rx_in` and `now` those of log 11; the parameters are `Config.params`
(log 9). -/
def State.reset : State where
  cfg := Config.params
  life := .down
  lastErr := .noFailure
  tx := { targetByte := 0, bitIndex := .done, doneSignal := false }
  txTimer := { armed := false, deadline := 0 }
  rx := { active := false, bitCount := 0, accumulator := 0 }
  rxIrqEn := false
  rxEdgePending := false
  rxEdgeTime := 0
  rxTimer := { armed := false, deadline := 0 }
  fifo := { storage := [], head := 0, tail := 0 }
  cntRxOk := 0
  cntRxFerr := 0
  txOut := false
  rxIn := true
  dirTx := .unset
  dirRx := .unset
  now := 0
  hist := []
  fault := []
  refused := false
  hReady := false
  hRdata := none
  held := []
  writes := []
  returned := []
  reads := []
  delivered := []
  initDraw := .ok
  inputs := []
  freeIx := 0

end Sys2Proof.Machine
end

