-- ==== Sys2Proof/Machine/Operands.lean ====
section
/-! DEFINITION. Operand forms and answers (spec 30_encoding R85): the only operands carried in a code are
the byte of `TXSTART` and the level of `LINE`; every answer is zero-extended to 32 bits. -/

namespace Sys2Proof.Machine

/-- `zext_32(v)` (R14, R85). -/
def zext32 {n : Nat} (v : BitVec n) : Word := v.setWidth 32

/-- The level of a pin as a bit (R13: LOW is 0, HIGH is 1). -/
def levelBit (v : Bool) : BitVec 1 := BitVec.ofBool v

/-- The operand that the history shows (R85, R218). -/
def operandOf : Instr → Option Byte
  | .txstart b => some b
  | .line v => some ((levelBit v).setWidth 8)
  | .txwait _ => none
  | .rxpop _ => none
  | .rdstat _ => none
  | .init => none
  | .teardown => none
  | .rdcntok _ => none
  | .rdcntfe _ => none
  | .txtick => none
  | .rxedge => none
  | .rxtick => none

/-- The agent that takes an operation (R12, R82, R88). -/
def agentOf : Instr → Agent
  | .txstart _ => .host
  | .txwait _ => .host
  | .rxpop _ => .host
  | .rdstat _ => .host
  | .init => .host
  | .teardown => .host
  | .rdcntok _ => .host
  | .rdcntfe _ => .host
  | .txtick => .txtimer
  | .rxedge => .rxedge
  | .rxtick => .rxtimer
  | .line _ => .env

/-- The answer of `RXPOP` (R47, R124): `zext_32(1 ‖ r)`, VALID in bit 8, or 0 for empty. -/
def popAnswer : Option Byte → Word
  | some r => zext32 (1#1 ++ r)
  | none => 0

/-- The answer of `TXWAIT`: `zext_32(1)` (R46, R85). -/
def waitAnswer : Word := zext32 1#1

end Sys2Proof.Machine
end

