-- ==== Sys2Proof/Machine/Ops.lean ====
section
/-! DEFINITION. The shared operations: parameters, the TX index, FIFO storage, pins, timers, the event
history, `raise`, refusals, the host port, and free values (spec 00_scope R9, R14; 20_memory R60, R61;
40_gpio_timer R101 to R109; 60_exceptions R210 to R218). -/

namespace Sys2Proof

/-- `BAUD` (R8). -/
def Params.baud (p : Params) : Nat := p.baudMinusOne.val + 1

/-- `C`, the number of FIFO slots (R8). -/
def Params.capacity (p : Params) : Nat := p.slotsMinusTwo + 2

/-- `BITPERIOD = floor(1,000,000,000 / BAUD)`, ns (R9, R113). -/
def Params.bitPeriod (p : Params) : Nat := 1000000000 / p.baud

/-- `RX_PIN`: the number of the input pin, distinct from `TX_PIN` (R8, log 25). -/
def Params.rxPin (p : Params) : Nat := if p.rxPinSkip < p.txPin then p.rxPinSkip else p.rxPinSkip + 1

end Sys2Proof

namespace Sys2Proof.Machine

/-! ### The TX index (R24, R90) -/

/-- The integer a TX state stands for: START -1, DATA[i] i, STOP 8, DONE 9 (R24). -/
def TxIndex.toInt : TxIndex → Int
  | .start => -1
  | .data i => i.val
  | .stop => 8
  | .done => 9

/-- The TX state after a firing: plus one, up to DONE (R24: "advances one bit per timer firing"). -/
def TxIndex.next : TxIndex → TxIndex
  | .start => .data 0
  | .data i => if h : i.val < 7 then .data ⟨i.val + 1, by omega⟩ else .stop
  | .stop => .done
  | .done => .done

/-- The TX state at distance `k` from -1. -/
def TxIndex.ofFin (k : Fin 11) : TxIndex :=
  if k.val = 0 then .start
  else if h : k.val - 1 < 8 then .data ⟨k.val - 1, h⟩
  else if k.val = 9 then .stop
  else .done

/-! ### FIFO storage (R34, R60, R61) -/

/-- What a slot that is not listed reads as. R35 allows a model to start the storage at all zeros; no
claim may rest on it. Log 12. -/
def Memory.blank : Byte := 0

/-- The canonical form: slots strictly rising, no listed slot holding `Memory.blank`. -/
abbrev Memory.wf (m : Memory) : Prop :=
  (m.map Prod.fst).Pairwise (· < ·) ∧ ∀ c ∈ m, c.2 ≠ Memory.blank

/-- The byte in slot `i` of the storage. -/
def Memory.read : Memory → Nat → Byte
  | [], _ => Memory.blank
  | c :: m, i => if c.1 = i then c.2 else Memory.read m i

/-- The storage with `v` in slot `i`, in canonical form. -/
def Memory.write : Memory → Nat → Byte → Memory
  | [], i, v => if v = Memory.blank then [] else [(i, v)]
  | c :: m, i, v =>
    if i < c.1 then (if v = Memory.blank then c :: m else (i, v) :: c :: m)
    else if i = c.1 then (if v = Memory.blank then m else (i, v) :: m)
    else c :: Memory.write m i v

/-- `MemRead(FIFO, i, 1)`, `0 <= i < C` (R14). A slot at or above C does not exist (R61, log 12). -/
def memRead (s : State) (i : Nat) : Except Fault Byte :=
  if i < s.cfg.capacity then .ok (Memory.read s.fifo.storage i) else .error (.slotOutOfRange i)

/-- `MemWrite(FIFO, i, 1, v)`, `0 <= i < C` (R14). -/
def memWrite (s : State) (i : Nat) (v : Byte) : Except Fault State :=
  if i < s.cfg.capacity then
    .ok { s with fifo := { s.fifo with storage := Memory.write s.fifo.storage i v } }
  else .error (.slotOutOfRange i)

/-- A cursor one slot on, modulo C (R23). -/
def cursorNext (s : State) (i : Nat) : Nat := (i + 1) % s.cfg.capacity

/-! ### Pins (R101 to R104), in the forms the rules use (D24) -/

/-- `pin_dir(tx, out)` (R101). -/
def pinDirTxOut (s : State) : State := { s with dirTx := .out }

/-- `pin_dir(rx, in)` (R101). -/
def pinDirRxIn (s : State) : State := { s with dirRx := .inp }

/-- The pin region is released: both directions `unset` (R53, R196, R198). -/
def pinsUnset (s : State) : State := { s with dirTx := .unset, dirRx := .unset }

/-- `pin_set(tx)` (R102). -/
def pinSet (s : State) : State := { s with txOut := true }

/-- `pin_clear(tx)` (R103). -/
def pinClear (s : State) : State := { s with txOut := false }

/-- `pin_set(tx)` for a 1, `pin_clear(tx)` for a 0, in one (R138). -/
def pinPut (v : Bool) (s : State) : State := { s with txOut := v }

/-- `pin_read(rx)`: a pure sample (R104). -/
def pinRead (s : State) : Bool := s.rxIn

/-! ### Timers (R107 to R110) -/

/-- `timer_start(T, d)`: armed, `d` from now (R107). -/
def timerStart (now d : Nat) (t : Timer) : Timer := { t with armed := true, deadline := now + d }

/-- `timer_forward(T)`: one `BITPERIOD` after its own last deadline; `now` is not read (R108). -/
def timerForward (p : Params) (t : Timer) : Timer := { t with deadline := t.deadline + p.bitPeriod }

/-- `timer_cancel(T)`, and the end of a callback that does not reschedule: not armed (R109, R110). -/
def timerCancel (t : Timer) : Timer := { t with armed := false }

/-! ### History, raise, fault (R14, R210, R216, R218) -/

/-- Append the record of an operation taken now (R43, R218). -/
def logOp (i : Instr) (result : Option Word) (drive : Option Bool) (s : State) : State :=
  { s with
    hist := s.hist ++ [.op { time := s.now, agent := agentOf i, code := encode i,
                             operand := operandOf i, result := result, drive := drive }] }

/-- Append an event to the history (R218). -/
def recordEvent (e : Event) (s : State) : State := { s with hist := s.hist ++ [.event e] }

/-- `cnt_rx_ferr` after an event: cause 2 bumps it, modulo 2^32; no other event has a counter of its own
in `raise` (R161, R210). -/
def ferrAfter (e : Event) (n : Word) : Word :=
  match e with
  | .framingError _ => n + 1
  | .initFailure _ => n
  | .bufferOverrun _ => n
  | .frameOk _ => n

/-- `raise <Event>(info)`: the ONE way an error is taken. It appends to the history and bumps a counter
where one exists; it never transfers control, saves nothing and never stops the operation, and there is
no return from it (R14, R210, R223, R224). -/
def raiseEvent (e : Event) (s : State) : State :=
  { recordEvent e s with cntRxFerr := ferrAfter e s.cntRxFerr }

/-- The cause code of an event (R210, D21); an accepted frame is no error. -/
def Event.cause : Event → Option Nat
  | .initFailure _ => some 1
  | .framingError _ => some 2
  | .bufferOverrun _ => some 3
  | .frameOk _ => none

/-- `fault <Name>`: the name goes into the set `S.fault`, which only grows (R43, R216). -/
def recordFault (f : FaultName) (s : State) : State :=
  { s with fault := if f ∈ s.fault then s.fault else s.fault ++ [f] }

/-! ### The host port (R46, R51, R83, R217) -/

/-- A host transaction is completed with answer `r`; none for a write (log 7). -/
def respond (r : Option Word) (s : State) : State := { s with hReady := true, hRdata := r }

/-- A host operation is taken: its record, and its answer on the port. -/
def hostDone (i : Instr) (r : Option Word) (s : State) : State := respond r (logOp i r none s)

/-- A refused read: `S.refused` is set, no hardware field changes, the port answers 0 (R51, R217; log 5). -/
def refuseRead (s : State) : State := respond (some 0) { s with refused := true }

/-- A refused write: `S.refused` is set, no hardware field changes, the write is ignored (R51, R217;
log 5). -/
def refuseWrite (s : State) : State := respond none { s with refused := true }

/-- `hold`: `TXWAIT` with field `d` has no step yet; the port's `ready` stays 0 (R46, R234; log 6). -/
def holdWait (d : Byte) (s : State) : State :=
  { s with held := s.held ++ [d], hReady := false, hRdata := none }

/-! ### Free values -/

/-- The fields that `TXSTART` writes hold free values: what a TxOverlap leaves in them is not stated
(R137, U1: the pseudocode after the fault line is no promise). Log 4. -/
def corruptTx (s : State) : State :=
  { s with
    tx := { targetByte := Config.freeByte s.freeIx,
            bitIndex := TxIndex.ofFin (Config.freeIndex s.freeIx),
            doneSignal := Config.freeBit s.freeIx }
    txTimer := { armed := Config.freeBit (s.freeIx + 1), deadline := Config.freeTime s.freeIx }
    freeIx := s.freeIx + 2 }

/-- The level of `tx_out` is a free value: the pin is again not driven (R196, R198, U5).
Logs 14 and 16. -/
def releaseTxOut (s : State) : State :=
  { s with txOut := Config.freeBit s.freeIx, freeIx := s.freeIx + 1 }

end Sys2Proof.Machine
end

