-- ==== Sys2Proof/Machine/Flags.lean ====
section
/-! DEFINITION. Flags and predicates computed from the state: life, timers due, enabling of the events,
the FIFO predicates, STATUS (spec 10_state R25, R30, R36, R48; 40_gpio_timer R110; 43 R158). -/

namespace Sys2Proof.Machine

/-- `life = UP`. -/
def isUp (s : State) : Bool := decide (s.life = .up)

/-- `tx_busy`: a byte is in flight (R25). -/
def txBusy (s : State) : Bool := s.txTimer.armed

/-- An armed timer whose deadline has come, of a block that is UP (R106, R110). -/
def timerDue (s : State) (t : Timer) : Bool := isUp s && t.armed && decide (t.deadline ≤ s.now)

/-- `TXTICK` is enabled (R110, R138). -/
def txTickEnabled (s : State) : Bool := timerDue s s.txTimer

/-- `RXTICK` is enabled (R110, R161). -/
def rxTickEnabled (s : State) : Bool := timerDue s s.rxTimer

/-- `RXEDGE` is enabled (R158). -/
def rxEdgeEnabled (s : State) : Bool := isUp s && s.rxEdgePending

/-- `fifo_empty` (R36). -/
def fifoEmpty (s : State) : Bool := decide (s.fifo.head = s.fifo.tail)

/-- `fifo_full`: `(head + 1) mod C = tail` (R36, R121). -/
def fifoFull (s : State) : Bool := decide (cursorNext s s.fifo.head = s.fifo.tail)

/-- `fifo_count` of a FIFO with `c` slots: `(head - tail) mod c` (R36). -/
def Fifo.count (c : Nat) (f : Fifo) : Nat := (((f.head : Int) - (f.tail : Int)) % (c : Int)).toNat

/-- The unread bytes of a FIFO with `c` slots, oldest first: the slots `tail`, `tail + 1`, ...,
`head - 1`, indices modulo `c` (R120). -/
def Fifo.unread (c : Nat) (f : Fifo) : List Byte :=
  (List.range (Fifo.count c f)).map (fun k => Memory.read f.storage ((f.tail + k) % c))

/-- `fifo_count` (R36). -/
def fifoCount (s : State) : Nat := Fifo.count s.cfg.capacity s.fifo

/-- The unread bytes (R120). -/
def unread (s : State) : List Byte := Fifo.unread s.cfg.capacity s.fifo

/-- A falling edge that the detector catches: UP, 1 to 0, interrupt enabled, none pending (R156). -/
def edgeCaught (s : State) (v : Bool) : Bool :=
  isUp s && s.rxIn && !v && s.rxIrqEn && !s.rxEdgePending

/-- The RX state names (R30). -/
inductive RxName where
  | idle
  | sampling (k : Fin 8)
  | stopCheck
deriving DecidableEq, Repr

/-- The RX state as a function of (`rx.active`, `rx.bit_count`) (R30). -/
def rxName (s : State) : RxName :=
  if s.rx.active then
    if h : s.rx.bitCount.val < 8 then .sampling ⟨s.rx.bitCount.val, h⟩ else .stopCheck
  else .idle

/-- `last_err` as the number of R41. -/
def LastErr.code : LastErr → BitVec 2
  | .noFailure => 0
  | .mapping => 1
  | .irqRegistration => 2

/-- Bits 7:0 of STATUS while UP (R48, R183). -/
def statusLow (s : State) : BitVec 8 :=
  levelBit s.rxIn ++ levelBit s.txOut ++ levelBit (fifoFull s) ++ levelBit (!fifoEmpty s) ++
  levelBit s.rxIrqEn ++ levelBit s.rx.active ++ levelBit s.txTimer.armed ++ levelBit s.tx.doneSignal

/-- STATUS (R48, R183): while DOWN, bits 7:0 read 0 whatever the fields hold. -/
def status (s : State) : Word :=
  if s.life = .up then zext32 (LastErr.code s.lastErr ++ 1#1 ++ statusLow s)
  else zext32 (LastErr.code s.lastErr ++ 0#1 ++ 0#8)

/-- What the block drives on the output pin: nothing while the pin is not an output (R40, R52, U5). -/
def wireLevel (s : State) : Option Bool := if s.dirTx = .out then some s.txOut else none

/-- The wire trace (R218): the time and level of each change of `tx_out`, read off the history. -/
def wireTrace (h : List Record) : List (Nat × Bool) :=
  h.filterMap (fun r =>
    match r with
    | .op o => o.drive.map (fun v => (o.time, v))
    | .event _ => none)

/-- The answers of the host operations, with their times (R18). -/
def hostResults (h : List Record) : List (Nat × Word) :=
  h.filterMap (fun r =>
    match r with
    | .op o => o.result.map (fun v => (o.time, v))
    | .event _ => none)

end Sys2Proof.Machine
end

