-- ==== Sys2Proof/Machine/Lifecycle.lean ====
section
/-! DEFINITION. The lifecycle (spec 45_lifecycle): `INIT` (R196, R197) and `TEARDOWN` (R198, R53). -/

namespace Sys2Proof.Machine

/-- The UP column of R52, as `INIT` writes it (R196). The fields it does not write keep their values:
the deadlines, `rx_edge_time` and the storage (log 13), `rx_in` and `now`. -/
def bringUp (s : State) : State :=
  { pinSet (pinDirRxIn (pinDirTxOut s)) with
    tx := { targetByte := 0, bitIndex := .done, doneSignal := false }
    txTimer := timerCancel s.txTimer
    rxTimer := timerCancel s.rxTimer
    rx := { active := false, bitCount := 0, accumulator := 0 }
    rxIrqEn := true
    rxEdgePending := false
    fifo := { s.fifo with head := 0, tail := 0 }
    cntRxOk := 0
    cntRxFerr := 0
    lastErr := .noFailure
    life := .up }

/-- `INIT` with outcome OK: its record shows the output pin driven HIGH (R196, R218). -/
def initOk (s : State) : State := respond none (logOp .init none (some true) (bringUp s))

/-- `INIT` with outcome MAP_FAIL: nothing was acquired (R196). -/
def initMapFail (s : State) : State :=
  { raiseEvent (.initFailure .mapping) (hostDone .init none s) with lastErr := .mapping }

/-- `INIT` with outcome IRQ_FAIL: pins and mapping released again, `tx_out` not driven (R196; log 14). -/
def initIrqFail (s : State) : State :=
  { releaseTxOut (pinsUnset (raiseEvent (.initFailure .irqRegistration) (hostDone .init none s))) with
    lastErr := .irqRegistration }

/-- `INIT` (R196): admitted in DOWN; the outcome is the environment's (R197, log 8). Refused in UP
(R195). -/
def execInit (s : State) : Host.Outcome State Fault Refusal :=
  if s.life = .up then .next (refuseWrite s)
  else
    match s.initDraw with
    | .ok => .next (initOk s)
    | .mapFail => .next (initMapFail s)
    | .irqFail => .next (initIrqFail s)

/-- The release of everything (R198): timers cancelled, interrupt released, pins unset, DOWN. `rx.active`
is off in DOWN as C4 and R33 say (log 15); the level of `tx_out`, no longer driven, is
open (R198, U5; log 16), and every other field keeps its value (R53). -/
def bringDown (s : State) : State :=
  { releaseTxOut (pinsUnset s) with
    txTimer := timerCancel s.txTimer
    rxTimer := timerCancel s.rxTimer
    rx := { s.rx with active := false }
    rxIrqEn := false
    rxEdgePending := false
    life := .down }

/-- `TEARDOWN` (R198): admitted in UP, refused in DOWN (R195). -/
def execTeardown (s : State) : Host.Outcome State Fault Refusal :=
  if s.life = .up then .next (hostDone .teardown none (bringDown s)) else .next (refuseWrite s)

end Sys2Proof.Machine
end

