-- ==== Sys2Proof/Machine/Fifo.lean ====
section
/-! DEFINITION. The RX FIFO (spec 41_rx_fifo): `fifo_push` (R122), `fifo_pop` (R123), and the host
operation `RXPOP` (R124). -/

namespace Sys2Proof.Machine

/-- The drop of `fifo_push` on a full FIFO: BufferOverrun with the oldest unread byte, and `tail` one on
(R122, R213). -/
def dropOldest (s : State) : Except Fault State :=
  match memRead s s.fifo.tail with
  | .error f => .error f
  | .ok b =>
    .ok { raiseEvent (.bufferOverrun b) s with
          fifo := { s.fifo with tail := cursorNext s s.fifo.tail } }

/-- Write at `head`, then advance `head` (R122). -/
def storeAtHead (b : Byte) (s : State) : Except Fault State :=
  match memWrite s s.fifo.head b with
  | .error f => .error f
  | .ok t => .ok { t with fifo := { t.fifo with head := cursorNext s s.fifo.head } }

/-- `fifo_push(b)` (R122); the full test uses the cursors as they are on entry. -/
def fifoPush (b : Byte) (s : State) : Except Fault State :=
  if fifoFull s then
    match dropOldest s with
    | .error f => .error f
    | .ok t => storeAtHead b t
  else storeAtHead b s

/-- `fifo_pop()` (R123): empty, or the byte at `tail`, that slot zeroed, `tail` one on. -/
def fifoPop (s : State) : Except Fault (Option Byte × State) :=
  if fifoEmpty s then .ok (none, s)
  else
    match memRead s s.fifo.tail with
    | .error f => .error f
    | .ok v =>
      match memWrite s s.fifo.tail 0 with
      | .error f => .error f
      | .ok t => .ok (some v, { t with fifo := { t.fifo with tail := cursorNext s s.fifo.tail } })

/-- `RXPOP` (R124). Admitted in UP, refused in DOWN (R195). -/
def execRxpop (d : Byte) (s : State) : Host.Outcome State Fault Refusal :=
  if s.life = .up then
    match fifoPop s with
    | .error f => .fault f
    | .ok (r, t) => .next (hostDone (.rxpop d) (some (popAnswer r)) t)
  else .next (refuseRead s)

end Sys2Proof.Machine
end

