-- ==== Sys2Proof/Machine/Rx.lean ====
section
/-! DEFINITION. The RX edge detector, sampler and frame validator (spec 43_rx_detector_sampler): `LINE`
(R156, R157), `RXEDGE` (R158 to R160), `RXTICK` (R161 to R163). -/

namespace Sys2Proof.Machine

/-- The line takes level `v`; a caught falling edge becomes pending (R156). -/
def driveLine (v : Bool) (s : State) : State :=
  { s with
    rxIn := v
    rxEdgePending := s.rxEdgePending || edgeCaught s v
    rxEdgeTime := if edgeCaught s v then s.now else s.rxEdgeTime }

/-- `LINE v` (R156): always enabled, in either life. The edge it makes pending is handled by an `RXEDGE` of its
own. That the two stay two steps with EDGE_LAT_MAX = 0 also, where R32 says that they fuse and R158 that
`RXEDGE` comes directly after, and that other steps of the same instant may come between them (R74), is the
model's choice (log 32). -/
def execLine (v : Bool) (s : State) : Host.Outcome State Fault Refusal :=
  .next (logOp (.line v) none none (driveLine v s))

/-- The start of a frame (R159): count and accumulator cleared, active, edge interrupt off, the RX timer
one full `BITPERIOD` from now (R160). -/
def startFrame (s : State) : State :=
  { s with
    rx := { active := true, bitCount := 0, accumulator := 0 }
    rxIrqEn := false
    rxTimer := timerStart s.now s.cfg.bitPeriod s.rxTimer }

/-- The edge handler (R159): the pending bit is cleared; when already sampling the edge is ignored. -/
def handleEdge (s : State) : State :=
  if s.rx.active then { s with rxEdgePending := false }
  else startFrame { s with rxEdgePending := false }

/-- `RXEDGE` (R159). Where it is not enabled it has no step (R158, R195; log 2). -/
def execRxedge (s : State) : Host.Outcome State Fault Refusal :=
  if rxEdgeEnabled s then .next (logOp .rxedge none none (handleEdge s)) else .next s

/-- The accumulator with sample `v` ORed into bit `k` (R162). -/
def accumulate (acc : Byte) (v : Bool) (k : Nat) : Byte := acc ||| ((levelBit v).setWidth 8 <<< k)

/-- The SAMPLING arm (R162), taken with `rx.bit_count < 8`. -/
def sampleBit (s : State) (h : s.rx.bitCount.val < 8) : State :=
  { s with
    rx := { s.rx with
            accumulator := accumulate s.rx.accumulator (pinRead s) s.rx.bitCount.val
            bitCount := ⟨s.rx.bitCount.val + 1, by omega⟩ }
    rxTimer := timerForward s.cfg s.rxTimer }

/-- Back to IDLE, either way of the stop check (R163): inactive, edge interrupt on, timer not armed. -/
def endFrame (s : State) : State :=
  { s with
    rx := { s.rx with active := false }
    rxIrqEn := true
    rxTimer := timerCancel s.rxTimer }

/-- A valid stop bit (R161, R163): push, count modulo 2^32, FrameOk. -/
def acceptFrame (s : State) : Except Fault State :=
  match fifoPush s.rx.accumulator s with
  | .error f => .error f
  | .ok t => .ok (recordEvent (.frameOk s.rx.accumulator) { t with cntRxOk := t.cntRxOk + 1 })

/-- The STOP_CHECK arm, the frame validator (R163): one sample decides. -/
def stopCheck (s : State) : Except Fault State :=
  if pinRead s then
    match acceptFrame s with
    | .error f => .error f
    | .ok t => .ok (endFrame t)
  else .ok (endFrame (raiseEvent (.framingError s.rx.accumulator) s))

/-- One firing of the RX timer (R161). -/
def rxFire (s : State) : Except Fault State :=
  if h : s.rx.bitCount.val < 8 then .ok (sampleBit s h) else stopCheck s

/-- `RXTICK` (R161): its record comes before the records it raises (R218). Where it is not enabled it has
no step (R110, R195; log 2). -/
def execRxtick (s : State) : Host.Outcome State Fault Refusal :=
  if rxTickEnabled s then
    match rxFire (logOp .rxtick none none s) with
    | .error f => .fault f
    | .ok t => .next t
  else .next s

end Sys2Proof.Machine
end

