-- ==== Sys2Proof/Machine/Status.lean ====
section
/-! DEFINITION. The read-only host operations (spec 44_facade_and_status): `RDSTAT` (R183), `RDCNTOK`
(R184), `RDCNTFE` (R185). -/

namespace Sys2Proof.Machine

/-- `RDSTAT` (R183): admitted in either life, no side effect. -/
def execRdstat (d : Byte) (s : State) : Host.Outcome State Fault Refusal :=
  .next (hostDone (.rdstat d) (some (status s)) s)

/-- `RDCNTOK` (R184). Refused in DOWN (R195). -/
def execRdcntok (d : Byte) (s : State) : Host.Outcome State Fault Refusal :=
  if s.life = .up then .next (hostDone (.rdcntok d) (some s.cntRxOk) s) else .next (refuseRead s)

/-- `RDCNTFE` (R185). Refused in DOWN (R195). -/
def execRdcntfe (d : Byte) (s : State) : Host.Outcome State Fault Refusal :=
  if s.life = .up then .next (hostDone (.rdcntfe d) (some s.cntRxFerr) s) else .next (refuseRead s)

end Sys2Proof.Machine
end

