-- ==== Sys2Proof/Machine/Tx.lean ====
section
/-! DEFINITION. The TX sequencer (spec 42_tx_sequencer): `TXSTART` (R136, R137), `TXTICK` (R138 to R142),
`TXWAIT` (R143). -/

namespace Sys2Proof.Machine

/-- The writes of `TXSTART` (R136): byte and index together, latch cleared, timer one `BITPERIOD` from
now; `tx_out` is not touched. -/
def loadTx (b : Byte) (s : State) : State :=
  { s with
    tx := { targetByte := b, bitIndex := .start, doneSignal := false }
    txTimer := timerStart s.now s.cfg.bitPeriod s.txTimer }

/-- `TXSTART b` (R136). With a byte in flight the fault TxOverlap is recorded and what TXSTART writes is
left open (R137, R216; log 4). Refused in DOWN (R195). -/
def execTxstart (b : Byte) (s : State) : Host.Outcome State Fault Refusal :=
  if s.life = .up then
    if s.txTimer.armed then
      .next (hostDone (.txstart b) none (corruptTx (recordFault .txOverlap s)))
    else .next (hostDone (.txstart b) none (loadTx b s))
  else .next (refuseWrite s)

/-- A non-terminal firing: drive `v`, index plus one, deadline one `BITPERIOD` on (R139, R140, R141). -/
def txShift (v : Bool) (s : State) : State :=
  { pinPut v s with
    tx := { s.tx with bitIndex := s.tx.bitIndex.next }
    txTimer := timerForward s.cfg s.txTimer }

/-- The terminal firing: latch set, timer stopped, pin not touched (R142). -/
def txFinish (s : State) : State :=
  { s with tx := { s.tx with doneSignal := true }, txTimer := timerCancel s.txTimer }

/-- One firing of the TX timer, arm by arm (R138). -/
def txFire (s : State) : State :=
  match s.tx.bitIndex with
  | .start => txShift false s
  | .data i => txShift (s.tx.targetByte.getLsbD i.val) s
  | .stop => txShift true s
  | .done => txFinish s

/-- The level that a firing newly puts on the wire, if it changes it (R140, R218). -/
def driveOf (before after : State) : Option Bool :=
  if after.txOut = before.txOut then none else some after.txOut

/-- `TXTICK` (R138). Where it is not enabled it has no step (R110, R195; log 2). -/
def execTxtick (s : State) : Host.Outcome State Fault Refusal :=
  if txTickEnabled s then .next (logOp .txtick none (driveOf s (txFire s)) (txFire s))
  else .next s

/-- `TXWAIT` (R143): answers 1 when the latch is set, and is held while it is 0 (R234; log 6). Refused in
DOWN (R195). -/
def execTxwait (d : Byte) (s : State) : Host.Outcome State Fault Refusal :=
  if s.life = .up then
    if s.tx.doneSignal then .next (hostDone (.txwait d) (some waitAnswer) s)
    else .next (holdWait d s)
  else .next (refuseRead s)

end Sys2Proof.Machine
end

