-- ==== Sys2Proof/Machine/Dispatch.lean ====
section
/-! DEFINITION. One arm per instruction. -/

namespace Sys2Proof.Machine

def exec (i : Instr) (s : State) : Host.Outcome State Fault Refusal :=
  match i with
  | .txstart b => Sys2Proof.Machine.execTxstart b s
  | .txwait d => Sys2Proof.Machine.execTxwait d s
  | .rxpop d => Sys2Proof.Machine.execRxpop d s
  | .rdstat d => Sys2Proof.Machine.execRdstat d s
  | .init => Sys2Proof.Machine.execInit s
  | .teardown => Sys2Proof.Machine.execTeardown s
  | .rdcntok d => Sys2Proof.Machine.execRdcntok d s
  | .rdcntfe d => Sys2Proof.Machine.execRdcntfe d s
  | .txtick => Sys2Proof.Machine.execTxtick s
  | .rxedge => Sys2Proof.Machine.execRxedge s
  | .rxtick => Sys2Proof.Machine.execRxtick s
  | .line v => Sys2Proof.Machine.execLine v s

end Sys2Proof.Machine
end

