-- ==== Sys2Proof/Machine/Facade.lean ====
section
/-! DEFINITION. The byte I/O facade (spec 44_facade_and_status): the pseudo-operations `WRITE` (R89, R180)
and `READ` (R89, R181), as the host runs them. The block keeps no record of a call: the loop variable of a
running `WRITE` or `READ` is the host's, and the model's own field `writes` or `reads` (R186, log 29). -/

namespace Sys2Proof.Machine

/-! ### WRITE -/

/-- The host operations of `WRITE [b0, ..., b(n-1)]` (R89): `TXSTART bk; TXWAIT` for each byte in
sequence. -/
def writeOps (bs : List Byte) : List Instr := bs.flatMap (fun b => [.txstart b, .txwait 0])

/-- What a `WRITE` that completes returns: the count sent (R180, D26). What one that is refused returns the
spec leaves open: in the model it ends at its first refused operation and returns no count (log 30). -/
def writeResult (bs : List Byte) : Nat := bs.length

/-- `WRITE` has waited for all its bytes, and returns. -/
def WriteCall.finished (c : WriteCall) : Bool := decide (c.phase = .start) && c.left.isEmpty

/-- The latch is set: a caller blocked in its `TXWAIT` goes on to its next byte (R180). -/
def WriteCall.unblock (c : WriteCall) : WriteCall :=
  if c.phase = .held then { c with phase := .start, sent := c.sent + 1 } else c

/-- How many bytes the call was given: those waited for, the one it waits for, and those left. -/
def WriteCall.total (c : WriteCall) : Nat :=
  c.sent + c.left.length + (if c.phase = .start then 0 else 1)

/-- The next operation of a running `WRITE` (R180); none while it is blocked, or done. -/
def WriteCall.nextOp (c : WriteCall) : Option Instr :=
  match c.phase with
  | .start => c.left.head?.map .txstart
  | .wait => some (.txwait 0)
  | .held => none

/-- The loop variable once the next operation is taken. -/
def WriteCall.moved (c : WriteCall) : WriteCall :=
  match c.phase with
  | .start => { c with left := c.left.tail, phase := .wait }
  | .wait => { c with phase := .held }
  | .held => c

/-- The calls that have all their bytes sent return their counts, now (R180). The spec fixes no order for
several that return in one step; here they return in the order called, which need not be the order in which
their `TXWAIT`s complete (log 6): the model's choice (log 29). -/
def returnWrites (s : State) : State :=
  { s with
    writes := s.writes.filter (fun c => !c.finished)
    returned := s.returned ++
      (s.writes.filter (fun c => c.finished)).map (fun c => (s.now, c.sent)) }

/-- A caller calls `WRITE bs` (R180): no operation is taken yet. `WRITE []` returns 0 at once, in any state
(95_test_vectors V-S16). Any other in DOWN is refused (R195, R217) and not run. The spec gives the call no
step of its own, so WHEN its admission is judged is the model's choice: here, at the call, and again at each
of its operations (log 30). -/
def callWrite (bs : List Byte) (s : State) : State :=
  if bs = [] then { s with returned := s.returned ++ [(s.now, 0)] }
  else if s.life = .up then { s with writes := s.writes ++ [{ left := bs, phase := .start, sent := 0 }] }
  else { s with refused := true }

/-- The `WRITE` at place `k` takes its next operation (R180). It has no step while it is blocked in `TXWAIT`.
In DOWN the operation is refused (R195), and the call ends there without a count (log 30). -/
def writerStep (k : Nat) (s : State) : Host.Outcome State Fault Refusal :=
  match s.writes[k]? with
  | none => .next s
  | some c =>
    match c.nextOp with
    | none => .next s
    | some i =>
      exec i { s with writes := if s.life = .up then s.writes.set k c.moved else s.writes.eraseIdx k }

/-! ### READ -/

/-- A caller calls `READ n` (R181): no operation is taken yet. `READ 0` returns `[]` at once, in any state
(95_test_vectors V-S16). Any other in DOWN is refused (R195, R217) and not run; when its admission is judged
is the model's choice, as for `callWrite` (log 30). -/
def callRead (n : Nat) (s : State) : State :=
  if n = 0 then { s with delivered := s.delivered ++ [(s.now, [])] }
  else if s.life = .up then { s with reads := s.reads ++ [{ left := n, got := [] }] }
  else { s with refused := true }

/-- The loop variables after the answer `r` of an `RXPOP`: `VALID = 0` ends the loop (R181). -/
def ReadCall.took (c : ReadCall) (r : Word) : ReadCall :=
  if r.getLsbD 8 then { left := c.left - 1, got := c.got ++ [r.extractLsb' 0 8] } else { c with left := 0 }

/-- The `READ` at place `k`, with these loop variables, returns its bytes, now, or goes on (R181). -/
def deliver (k : Nat) (c : ReadCall) (s : State) : State :=
  if c.left = 0 then
    { s with reads := s.reads.eraseIdx k, delivered := s.delivered ++ [(s.now, c.got)] }
  else { s with reads := s.reads.set k c }

/-- The `READ` at place `k` takes its next `RXPOP` (R181); what other agents do between two of them is the
schedule's. In DOWN the `RXPOP` is refused and answers 0, which ends the loop like an empty FIFO: that the
call then returns the bytes it has is the model's choice (R51, R195, log 30). -/
def readerStep (k : Nat) (s : State) : Host.Outcome State Fault Refusal :=
  match s.reads[k]? with
  | none => .next s
  | some c =>
    match exec (.rxpop 0) s with
    | .fault f => .fault f
    | .refused r => .refused r
    | .next t => .next (deliver k (c.took (t.hRdata.getD 0)) t)

/-- The loop of `READ n` (R181) all in one, where no other agent's step comes between its `RXPOP`s: it stops
after the first answer with VALID = 0, or after `n` bytes. -/
def readLoop : Nat → State → Host.Outcome (List Byte × State) Fault Refusal
  | 0, s => .next ([], s)
  | n + 1, s =>
    match exec (.rxpop 0) s with
    | .fault f => .fault f
    | .refused r => .refused r
    | .next t =>
      match t.hRdata with
      | none => .next ([], t)
      | some r =>
        if r.getLsbD 8 then
          match readLoop n t with
          | .fault f => .fault f
          | .refused q => .refused q
          | .next (out, u) => .next (r.extractLsb' 0 8 :: out, u)
        else .next ([], t)

end Sys2Proof.Machine
end

