-- ==== Sys2Proof/Machine/Fetch.lean ====
section
/-! DEFINITION. What one input of the schedule does: a host word or an event is decoded and executed, a
reserved word is refused (spec 30_encoding R86; 60_exceptions R217), and the steps that are no operations:
the calls of WRITE and READ (R180, R181), ADVANCE (R112), the environment's INIT outcome (R197), hardware reset
(R240); and the lifting of holds (R143). -/

namespace Sys2Proof.Machine

/-- A host transaction of format H (R83): the operation it spells, or a refusal of a reserved access
(R51, R86, R217). -/
def takeHost (w : HostWord) (s : State) : Host.Outcome State Fault Refusal :=
  match decodeHost w with
  | .ok i => exec i s
  | .error _ => if HostWord.isWrite w then .next (refuseWrite s) else .next (refuseRead s)

/-- An event under its code (R84); a code that names no event is no step of the block (log 21). -/
def takeEvent (c : EventCode) (s : State) : Host.Outcome State Fault Refusal :=
  match decodeEvent c with
  | .ok i => exec i s
  | .error _ => .refused (.unusedEventCode c)

/-- The `TXWAIT`s with these fields `d` complete with answer 1, in this order (R46, R143). -/
def completeWaits : List Byte → State → State
  | [], s => s
  | d :: ds, s => completeWaits ds (hostDone (.txwait d) (some waitAnswer) s)

/-- `hold until tx.done_signal = 1` is lifted (R143, R234): while UP with the latch set no `TXWAIT` stays
held, so each completes in the very step that sets the latch, before time passes or another `TXSTART` clears
it (R71). The longest-held one comes first. In DOWN a `TXWAIT` stays held: R199 says both 'no step' and
'refused' of it and U15 calls it stuck; that it stays, and that no refusal is recorded for it, is the model's
choice (log 6). -/
def liftHolds (s : State) : State :=
  if s.life = .up ∧ s.tx.doneSignal = true then
    returnWrites (completeWaits s.held { s with held := [], writes := s.writes.map WriteCall.unblock })
  else s

/-- What a step does after its input: the holds that the new state lifts are lifted. -/
def settle (o : Host.Outcome State Fault Refusal) : Host.Outcome State Fault Refusal :=
  match o with
  | .next t => .next (liftHolds t)
  | .fault f => .fault f
  | .refused r => .refused r

/-- The bound that an armed timer of an UP block puts on time: its deadline plus TICK_LAT_MAX (R112). -/
def timerAllows (s : State) (t : Timer) (time : Nat) : Bool :=
  !(isUp s && t.armed) || decide (time ≤ t.deadline + s.cfg.tickLatMax)

/-- The bound that a pending edge puts on time: its time plus EDGE_LAT_MAX (R112). -/
def edgeAllows (s : State) (time : Nat) : Bool :=
  !s.rxEdgePending || decide (time ≤ s.rxEdgeTime + s.cfg.edgeLatMax)

/-- `ADVANCE dt` is allowed (R112). -/
def advanceAllowed (dt : Nat) (s : State) : Bool :=
  decide (1 ≤ dt) && timerAllows s s.txTimer (s.now + dt) && timerAllows s s.rxTimer (s.now + dt) &&
  edgeAllows s (s.now + dt)

/-- `ADVANCE dt` (R112): changes nothing but `now`; where it is not allowed no time passes (log 2). -/
def advanceTime (dt : Nat) (s : State) : State :=
  if advanceAllowed dt s then { s with now := s.now + dt } else s

/-- Hardware reset (R240): the left column of R52. The parameters, `rx_in`, `now`, the callers (held, or
in a `WRITE` or `READ`), and the environment's own fields are not the reset's to change (log 18). -/
def hardwareReset (s : State) : State :=
  { State.reset with
    cfg := s.cfg
    rxIn := s.rxIn
    now := s.now
    held := s.held
    writes := s.writes
    returned := s.returned
    reads := s.reads
    delivered := s.delivered
    initDraw := s.initDraw
    inputs := s.inputs
    freeIx := s.freeIx }

/-- One input. -/
def takeInput (x : Input) (s : State) : Host.Outcome State Fault Refusal :=
  match x with
  | .host w => takeHost w s
  | .event c => takeEvent c s
  | .write bs => .next (callWrite bs s)
  | .writer k => writerStep k s
  | .read n => .next (callRead n s)
  | .reader k => readerStep k s
  | .advance dt => .next (advanceTime dt s)
  | .initDraw o => .next { s with initDraw := o }
  | .rst => .next (hardwareReset s)

/-- The next input is taken off the schedule; with none left no agent moves (log 1). -/
def takeNext (s : State) : Host.Outcome State Fault Refusal :=
  match s.inputs with
  | [] => .next s
  | x :: rest => takeInput x { s with inputs := rest }

/-- One step: the next input, and the holds it lifts. -/
def nextStep (s : State) : Host.Outcome State Fault Refusal := settle (takeNext s)

/-- The input that carries a code. -/
def inputOf : Code → Input
  | .h w => .host w
  | .e c => .event c

end Sys2Proof.Machine
end

