-- ==== Sys2Proof/Machine/Step.lean ====
section
/-! DEFINITION. The step, and the placing of an instruction where the next step takes it from. -/

namespace Sys2Proof.Machine

/-- One step of the machine: the next input of the schedule (R12, R68; log 1). -/
def step (s : State) : Host.Outcome State Fault Refusal := nextStep s

/-- `s` with the instruction whose bits are `w`, numbered as the opcode table numbers them, as the very
next input (logs 3 and 20). -/
def State.withFetchWord (s : State) (nbits w : Nat) : State :=
  { s with inputs := inputOf (codeOfTable nbits w) :: s.inputs }

end Sys2Proof.Machine
end

