-- ==== Sys2Proof/Safety.lean ====
section
/-! DEFINITION. The terms of claims: the named premises and the end of a run (spec 70_reset_and_hazards
R245, R246), the invariants (10_state R33, R55; 40_gpio_timer R111), and what a run shows (00_scope R18). -/

namespace Sys2Proof.Machine

/-- Premise `NoFault` (R246). -/
def NoFault (s : State) : Prop := s.fault = [] ∧ s.refused = false

/-- Premise `Up` (R246). -/
def Up (s : State) : Prop := s.life = .up

/-- Premise `TxIdle` (R246): nothing in flight, the precondition of R137. -/
def TxIdle (s : State) : Prop := s.txTimer.armed = false

/-- Premise `RxIdle` (R246). -/
def RxIdle (s : State) : Prop := s.rx.active = false ∧ s.rxEdgePending = false

/-- Premise `LineIdle` (R246). -/
def LineIdle (s : State) : Prop := s.rxIn = true

/-- Premise `FifoEmpty` (R246). -/
def FifoEmpty (s : State) : Prop := s.fifo.head = s.fifo.tail

/-- Premise `Punctual` (R246). -/
def Punctual (s : State) : Prop := s.cfg.tickLatMax = 0 ∧ s.cfg.edgeLatMax = 0

/-- The operations on the write side (R230, R250). -/
def onWriteSide (i : Instr) : Bool :=
  match i with
  | .txstart _ => true
  | .txwait _ => true
  | .rxpop _ => false
  | .rdstat _ => false
  | .init => false
  | .teardown => false
  | .rdcntok _ => false
  | .rdcntfe _ => false
  | .txtick => false
  | .rxedge => false
  | .rxtick => false
  | .line _ => false

/-- The state of the run from `s` before its step `n`; none where the run has stopped. -/
def stateAt (s : State) : Nat → Option State
  | 0 => some s
  | n + 1 =>
    match stateAt s n with
    | none => none
    | some u =>
      match step u with
      | .next t => some t
      | .fault _ => none
      | .refused _ => none

/-- Whether an input is one by which a caller comes to the write side: a word on it, or a call of `WRITE`.
The later steps of a `WRITE` are its caller's already. -/
def Input.onWriteSide (x : Input) : Bool :=
  match x with
  | .host w => (decodeHost w).toOption.any Machine.onWriteSide
  | .event _ => false
  | .write _ => true
  | .writer _ => false
  | .read _ => false
  | .reader _ => false
  | .advance _ => false
  | .initDraw _ => false
  | .rst => false

/-- No caller is on the write side: no `WRITE` is running, no `TXWAIT` held, no byte in flight. -/
def writeSideFree (s : State) : Prop := s.writes = [] ∧ s.held = [] ∧ s.txTimer.armed = false

/-- Premise `SingleWriter` (R246, R230), of the run of the schedule from `s`, whose input `n` is its caller's
`caller n`. R246 says one caller, R230 and D25 one caller AT A TIME; the model takes the latter, so that one
caller may follow another, and what it asks is its own choice (log 31): two `WRITE`s never run at once; a
caller that is blocked, in a `WRITE` or a held `TXWAIT`, is alone, since it issues nothing; and between two
callers there was a moment at which none was on the write side. Readers are free. -/
structure SingleWriter (caller : Nat → Nat) (s : State) : Prop where
  oneWrite : ∀ n, n ≤ s.inputs.length → ∀ u ∈ stateAt s n, u.writes.length ≤ 1
  blockedAlone : ∀ n, n < s.inputs.length → ∀ x ∈ s.inputs[n]?, x.onWriteSide = true →
    ∀ u ∈ stateAt s n, u.writes = [] ∧ u.held = []
  inTurn : ∀ m n x y, m < n → s.inputs[m]? = some x → s.inputs[n]? = some y →
    x.onWriteSide = true → y.onWriteSide = true → caller m ≠ caller n →
      ∃ j, m < j ∧ j ≤ n ∧ ∃ u ∈ stateAt s j, writeSideFree u

/-- The level of the line before step `n` of the run from `s`. -/
def lineAt (s : State) (n : Nat) : Option Bool := (stateAt s n).map (fun u => u.rxIn)

/-- Step `n` of the run from `s` is taken by the event `i`, enabled as `enabled` says. -/
def stepTakes (i : Instr) (enabled : State → Bool) (s : State) (n : Nat) : Bool :=
  match stateAt s n with
  | none => false
  | some u => decide (u.inputs.head? = some (inputOf (encode i))) && enabled u

/-- Step `n` of the run from `s` is a firing of the RX timer. -/
def takesRxtick (s : State) (n : Nat) : Bool := stepTakes .rxtick rxTickEnabled s n

/-- Step `n` of the run from `s` is the edge handler that starts a frame. -/
def startsFrame (s : State) (n : Nat) : Bool :=
  stepTakes .rxedge (fun u => rxEdgeEnabled u && !u.rx.active) s n

/-- The level of cell `k` of the frame of byte `b`: start LOW, data bits least-significant first, stop
HIGH (R91, R92). -/
def frameLevel (b : Byte) (k : Nat) : Bool :=
  if k = 0 then false else if k ≤ 8 then b.getLsbD (k - 1) else true

/-- Premise `TimingAlignment` (R246, R251), of the frame of byte `b` in the run from `s`. Its edge handler
is step `edge`, and `sample k` is the step of its k-th `RXTICK`. The line is at the level of cell `k` (cell
0 the start, 1 to 8 the data, 9 the stop) from right after the step by which it took it, before step
`enter k`, until the step by which it leaves it, before step `enter (k + 1)`. Each sample is taken strictly
inside its cell. -/
structure TimingAlignment (s : State) (b : Byte) (edge : Nat) (enter : Fin 11 → Nat)
    (sample : Fin 9 → Nat) : Prop where
  handler : startsFrame s edge = true ∧ enter 0 ≤ edge ∧ edge < sample 0
  rising : ∀ j k : Fin 9, j < k → sample j < sample k
  ticks : ∀ k : Fin 9, takesRxtick s (sample k) = true
  noOther : ∀ n, n < sample 8 → edge < n → takesRxtick s n = true → ∃ k, n = sample k
  level : ∀ k : Fin 10, ∀ n, n < enter k.succ → enter k.castSucc ≤ n →
    lineAt s n = some (frameLevel b k.val)
  inside : ∀ k : Fin 9, enter k.succ.castSucc ≤ sample k ∧ sample k < enter k.succ.succ

/-- The run is over (R245): the schedule is empty, no `TXWAIT` is held and no `WRITE` or `READ` is running, no
timer armed, no frame active, no edge pending. -/
def Over (s : State) : Prop :=
  s.inputs = [] ∧ s.held = [] ∧ s.writes = [] ∧ s.reads = [] ∧ s.txTimer.armed = false ∧ s.rx.active = false ∧
  s.rxTimer.armed = false ∧ s.rxEdgePending = false

/-- A good final state (R245). -/
def GoodFinal (s : State) : Prop := Over s ∧ NoFault s

/-- R55 (a) to (d) and (f), the invariant of the running engine (R33), while `S.fault` is empty. -/
def RunningOk (s : State) : Prop :=
  s.rx.active = s.rxTimer.armed ∧
  s.rxIrqEn = !s.rx.active ∧
  (s.rxEdgePending = true → s.rxIrqEn = true ∧ s.rx.active = false) ∧
  (s.txTimer.armed = true → s.tx.doneSignal = false) ∧
  (s.txTimer.armed = false → s.tx.bitIndex = .done)

/-- R55 (e) for the cursors; the ranges of `tx.bit_index` and `rx.bit_count` are their types. -/
def CursorsOk (s : State) : Prop :=
  s.fifo.head < s.cfg.capacity ∧ s.fifo.tail < s.cfg.capacity

/-- In DOWN everything is off (R33, C4; R52, R53). -/
def DownOk (s : State) : Prop :=
  s.rx.active = false ∧ s.rxTimer.armed = false ∧ s.txTimer.armed = false ∧ s.rxIrqEn = false ∧
  s.rxEdgePending = false ∧ s.dirTx = .unset ∧ s.dirRx = .unset

/-- The pin directions of an UP block (R52, R101). -/
def PinsOk (s : State) : Prop := s.dirTx = .out ∧ s.dirRx = .inp

/-- The storage is in its canonical form and no slot at or above C is listed (R34, R61). -/
def StorageOk (s : State) : Prop :=
  Memory.wf s.fifo.storage ∧ ∀ c ∈ s.fifo.storage, c.1 < s.cfg.capacity

/-- The invariant of the machine (R55, R33, R61). -/
structure Inv (s : State) : Prop where
  running : s.life = .up → s.fault = [] → RunningOk s
  pins : s.life = .up → PinsOk s
  down : s.life = .down → DownOk s
  cursors : CursorsOk s
  storage : StorageOk s

/-- No firing and no edge handler is later than its bound (R111, R112, R158), while `S.fault` is empty. -/
def InTime (s : State) : Prop :=
  s.life = .up → s.fault = [] →
    (s.txTimer.armed = true → s.now ≤ s.txTimer.deadline + s.cfg.tickLatMax) ∧
    (s.rxTimer.armed = true → s.now ≤ s.rxTimer.deadline + s.cfg.tickLatMax) ∧
    (s.rxEdgePending = true → s.rxEdgeTime ≤ s.now ∧ s.now ≤ s.rxEdgeTime + s.cfg.edgeLatMax)

/-- While UP with the latch set no caller is held (R71, R143), and no `WRITE` that has sent all its bytes is
still running (R180). -/
def HoldsOk (s : State) : Prop :=
  (s.life = .up → s.tx.doneSignal = true → s.held = [] ∧ ∀ c ∈ s.writes, c.phase ≠ .held) ∧
  ∀ c ∈ s.writes, c.finished = false

/-- At most one `WRITE` is running, and no byte is in flight where it is about to start one: the
precondition of R137 as R180 has it met. -/
def WriterAlone (s : State) : Prop :=
  s.writes.length ≤ 1 ∧
  ∀ c ∈ s.writes, c.phase = .start → s.life = .up → s.txTimer.armed = false

/-- Whether an input starts a byte, or a `WRITE`, other than the one that is running. -/
def Input.otherStart (x : Input) : Bool :=
  match x with
  | .host w => HostWord.hits w 0xF00#12 0x800#12
  | .event _ => false
  | .write _ => true
  | .writer _ => false
  | .read _ => false
  | .reader _ => false
  | .advance _ => false
  | .initDraw _ => false
  | .rst => false

/-- Whether an operation is taken: admitted by the life (R195), not held (R234), and for an event enabled
(R110, R158). -/
def taken (i : Instr) (s : State) : Bool :=
  match i with
  | .txstart _ => isUp s
  | .txwait _ => isUp s && s.tx.doneSignal
  | .rxpop _ => isUp s
  | .rdstat _ => true
  | .init => !isUp s
  | .teardown => isUp s
  | .rdcntok _ => isUp s
  | .rdcntfe _ => isUp s
  | .txtick => txTickEnabled s
  | .rxedge => rxEdgeEnabled s
  | .rxtick => rxTickEnabled s
  | .line _ => true

/-- The record that an operation taken at `s` appends (R218), `t` being the state it leaves: the five parts
of R218, and the level newly driven by an `INIT` that comes up and by a `TXTICK` that changes it. -/
def recordOf (i : Instr) (s t : State) : OpRecord where
  time := s.now
  agent := agentOf i
  code := encode i
  operand := operandOf i
  result := if agentOf i = .host then t.hRdata else none
  drive :=
    if i = .init ∧ t.life = .up then some true
    else if i = .txtick ∧ t.txOut ≠ s.txOut then some t.txOut
    else none

/-- The events that an operation taken at `s` raises or records, in order: an `INIT` that fails, its cause
(R211); the stop check, the framing error (R212), or the dropped byte of a full FIFO (R213) and then the
accepted frame (R161, R218); no other operation any (R210). -/
def eventsOf (i : Instr) (s : State) : List Event :=
  match i with
  | .txstart _ => []
  | .txwait _ => []
  | .rxpop _ => []
  | .rdstat _ => []
  | .init =>
    match s.initDraw with
    | .ok => []
    | .mapFail => [.initFailure .mapping]
    | .irqFail => [.initFailure .irqRegistration]
  | .teardown => []
  | .rdcntok _ => []
  | .rdcntfe _ => []
  | .txtick => []
  | .rxedge => []
  | .rxtick =>
    if s.rx.bitCount.val < 8 then []
    else if s.rxIn = false then [.framingError s.rx.accumulator]
    else
      (if (s.fifo.head + 1) % s.cfg.capacity = s.fifo.tail then
        [.bufferOverrun (Memory.read s.fifo.storage s.fifo.tail)] else []) ++ [.frameOk s.rx.accumulator]
  | .line _ => []

/-- What a run shows to the outside (R18): the wire trace, the answers of the host operations, and the
event history. -/
structure Shown where
  wire : List (Nat × Bool)
  results : List (Nat × Word)
  history : List Record
deriving DecidableEq, Repr

/-- What a state's run so far has shown (R18). -/
def shown (s : State) : Shown :=
  { wire := wireTrace s.hist, results := hostResults s.hist, history := s.hist }

/-! ### Frames: groups of fields that an operation leaves alone -/

/-- The TX side (R20, R27) and the level of the output pin (R40). -/
def SameTx (s t : State) : Prop := t.tx = s.tx ∧ t.txTimer = s.txTimer ∧ t.txOut = s.txOut

/-- The RX side (R20, R33). -/
def SameRx (s t : State) : Prop :=
  t.rx = s.rx ∧ t.rxIrqEn = s.rxIrqEn ∧ t.rxEdgePending = s.rxEdgePending ∧
  t.rxEdgeTime = s.rxEdgeTime ∧ t.rxTimer = s.rxTimer

/-- The FIFO: both cursors, and every slot reads as before (R23, R34). -/
def SameFifo (s t : State) : Prop :=
  t.fifo.head = s.fifo.head ∧ t.fifo.tail = s.fifo.tail ∧
  ∀ a, Memory.read t.fifo.storage a = Memory.read s.fifo.storage a

/-- The diagnostic counters (R38). -/
def SameCounters (s t : State) : Prop := t.cntRxOk = s.cntRxOk ∧ t.cntRxFerr = s.cntRxFerr

/-- Lifecycle and pin directions (R40, R41). -/
def SameLife (s t : State) : Prop :=
  t.life = s.life ∧ t.lastErr = s.lastErr ∧ t.dirTx = s.dirTx ∧ t.dirRx = s.dirRx

/-- What belongs to the world outside the block: parameters, time, the input line, the environment's
choice, the schedule, and the callers. -/
def SameWorld (s t : State) : Prop :=
  t.cfg = s.cfg ∧ t.now = s.now ∧ t.rxIn = s.rxIn ∧ t.initDraw = s.initDraw ∧
  t.inputs = s.inputs ∧ t.held = s.held ∧ t.writes = s.writes ∧ t.returned = s.returned ∧
  t.reads = s.reads ∧ t.delivered = s.delivered

/-- The model's marks (R43) and its counter of free values. -/
def SameMarks (s t : State) : Prop :=
  t.fault = s.fault ∧ t.refused = s.refused ∧ t.freeIx = s.freeIx

/-- The outputs of the host port (R83). -/
def SamePort (s t : State) : Prop := t.hReady = s.hReady ∧ t.hRdata = s.hRdata

/-! ### Frames on the wire, and repeated firings -/

/-- One firing of the TX timer taken at its deadline. -/
def fireTx (s : State) : Host.Outcome State Fault Refusal :=
  exec .txtick { s with now := s.txTimer.deadline }

/-- `n` firings of the TX timer, each taken at its deadline. -/
def fireTxTimes : Nat → State → Host.Outcome State Fault Refusal
  | 0, s => .next s
  | n + 1, s =>
    match fireTx s with
    | .next t => fireTxTimes n t
    | .fault f => .fault f
    | .refused r => .refused r

/-- One firing of the RX timer taken at its deadline, with the line at level `v`. -/
def sampleRx (v : Bool) (s : State) : Host.Outcome State Fault Refusal :=
  exec .rxtick { s with now := s.rxTimer.deadline, rxIn := v }

/-- Firings of the RX timer, each taken at its deadline, with the line at the levels listed. -/
def sampleRxAll : List Bool → State → Host.Outcome State Fault Refusal
  | [], s => .next s
  | v :: vs, s =>
    match sampleRx v s with
    | .next t => sampleRxAll vs t
    | .fault f => .fault f
    | .refused r => .refused r

/-- Pushes of the bytes listed, in order, with no pop between them (R126). -/
def pushAll : List Byte → State → Except Fault State
  | [], s => .ok s
  | b :: bs, s =>
    match fifoPush b s with
    | .ok t => pushAll bs t
    | .error f => .error f

end Sys2Proof.Machine
end

