-- ==== Sys2Proof/Certificates/Slice0/Obligations.lean ====
section
/-! DEFINITION. The statements for the provers. Each docstring names the rules of spec/ it rests on, and
the log entry where a clause is the model's own choice. -/

open Sys2Proof Sys2Proof.Machine

/-! ### Codes -/

/-- R82 to R85: decoding the code of any well-formed instruction gives that instruction back. -/
def Obligations.EncodedInstructionDecodesBack : Prop :=
  ∀ i : Instr, i.wf = true → decode (encode i) = .ok i

/-- Every code that decodes is the code of the instruction it decodes to. That this holds of a read's
ignored field `d` too is the model's choice (log 19: a read's constructor carries `d`): R82 gives the reads
no operand, and by R86 each is spelt by 256 words. -/
def Obligations.DecodedCodeEncodesBack : Prop :=
  ∀ (c : Code) (i : Instr), decode c = .ok i → encode i = c

/-- R84, R86: decoding rejects exactly the reserved words and the unused event codes. -/
def Obligations.DecodingRejectsExactlyTheReservedCodes : Prop :=
  ∀ c : Code, (∃ e, decode c = .error e) ↔ c.wf = false

/-- R82 to R84, and the word list of 95_test_vectors 2.8: words written out bit by bit from the
spec's encodings decode to the operations they stand for. -/
def Obligations.WordsOfTheSpecDecode : Prop :=
  decode (.h 0b100001000001#12) = .ok (.txstart 0x41#8) ∧
  decode (.h 0b000110100111#12) = .ok (.txwait 0xA7#8) ∧
  decode (.h 0b001011111111#12) = .ok (.rxpop 0xFF#8) ∧
  decode (.h 0b001100000000#12) = .ok (.rdstat 0#8) ∧
  decode (.h 0b110000000001#12) = .ok .init ∧
  decode (.h 0b110000000000#12) = .ok .teardown ∧
  decode (.h 0b010100000000#12) = .ok (.rdcntok 0#8) ∧
  decode (.h 0b011000000000#12) = .ok (.rdcntfe 0#8) ∧
  decode (.e 0b0001#4) = .ok .txtick ∧
  decode (.e 0b0010#4) = .ok .rxedge ∧
  decode (.e 0b0011#4) = .ok .rxtick ∧
  decode (.e 0b0100#4) = .ok (.line false) ∧
  decode (.e 0b0101#4) = .ok (.line true)

/-! ### Steps -/

/-- R12, R68: when the next input carries a code that decodes to `i`, the step is `exec i` at the state
with that input taken off the schedule (the schedule is the model's form of who moves next, log 1), and then
the holds that are over are lifted (`settle`, R71, log 6); where nobody is held, where the block is DOWN, and
where the latch is 0 there are none, and the step is `exec i` itself. -/
def Obligations.StepRunsTheDecodedInstruction : Prop :=
  ∀ (s : State) (c : Code) (i : Instr) (rest : List Input),
    s.inputs = inputOf c :: rest → decode c = .ok i →
      step s = settle (exec i { s with inputs := rest }) ∧
      ∀ t, exec i { s with inputs := rest } = .next t →
        (t.held = [] ∧ t.writes = []) ∨ t.life = .down ∨ t.tx.doneSignal = false → step s = .next t

/-- R51, R86, R217: a reserved word changes nothing but the refusal mark (and the schedule); the port
answers a reserved read with 0 and a reserved write with nothing. (`HoldsOk`, which every step keeps, says
that no hold is left to lift.) -/
def Obligations.ReservedWordIsRefusedWithoutEffect : Prop :=
  ∀ (s : State) (w : HostWord) (rest : List Input),
    HoldsOk s → s.inputs = .host w :: rest → HostWord.reserved w = true →
      step s = .next { s with inputs := rest, refused := true, hReady := true,
                              hRdata := if w.getLsbD 11 then none else some 0 }

/-- R195, R217: in the wrong life a host operation is refused: nothing changes but the refusal mark and
the port's answer. In DOWN these are all host operations but INIT and RDSTAT; in UP it is INIT. -/
def Obligations.WrongLifeIsRefusedWithoutEffect : Prop :=
  ∀ (s : State) (b : Byte),
    (s.life = .down →
      exec (.txstart b) s = .next { s with refused := true, hReady := true, hRdata := none } ∧
      exec .teardown s = .next { s with refused := true, hReady := true, hRdata := none } ∧
      ∀ i ∈ [Instr.txwait b, Instr.rxpop b, Instr.rdcntok b, Instr.rdcntfe b],
        exec i s = .next { s with refused := true, hReady := true, hRdata := some 0 }) ∧
    (s.life = .up →
      exec .init s = .next { s with refused := true, hReady := true, hRdata := none })

/-- R112: ADVANCE is allowed when dt is at least 1 and no armed timer of an UP block and no pending edge
is left behind by more than its bound; it changes nothing but `now`. Where it is not allowed, no time
passes (log 2). (`HoldsOk` says that no hold is left to lift.) -/
def Obligations.AdvanceMovesOnlyTime : Prop :=
  ∀ (s : State) (dt : Nat) (rest : List Input), HoldsOk s → s.inputs = .advance dt :: rest →
    ((1 ≤ dt ∧
      (s.life = .up → s.txTimer.armed = true →
        s.now + dt ≤ s.txTimer.deadline + s.cfg.tickLatMax) ∧
      (s.life = .up → s.rxTimer.armed = true →
        s.now + dt ≤ s.rxTimer.deadline + s.cfg.tickLatMax) ∧
      (s.rxEdgePending = true → s.now + dt ≤ s.rxEdgeTime + s.cfg.edgeLatMax)) →
        step s = .next { s with inputs := rest, now := s.now + dt }) ∧
    (¬ (1 ≤ dt ∧
      (s.life = .up → s.txTimer.armed = true →
        s.now + dt ≤ s.txTimer.deadline + s.cfg.tickLatMax) ∧
      (s.life = .up → s.rxTimer.armed = true →
        s.now + dt ≤ s.rxTimer.deadline + s.cfg.tickLatMax) ∧
      (s.rxEdgePending = true → s.now + dt ≤ s.rxEdgeTime + s.cfg.edgeLatMax)) →
        step s = .next { s with inputs := rest })

/-- R42, R105: no step takes `now` back, and no operation moves it at all. -/
def Obligations.TimeNeverGoesBack : Prop :=
  (∀ s t : State, step s = .next t → s.now ≤ t.now) ∧
  (∀ (i : Instr) (s t : State), exec i s = .next t → t.now = s.now)

/-- R72, R8: no step changes the parameters, hence BITPERIOD and C (R9), nor the pin assignment, and the two
pins are distinct. -/
def Obligations.ParametersNeverChange : Prop :=
  ∀ s t : State, step s = .next t → t.cfg = s.cfg ∧ t.cfg.bitPeriod = s.cfg.bitPeriod ∧
    t.cfg.txPin = s.cfg.txPin ∧ t.cfg.rxPin = s.cfg.rxPin ∧ t.cfg.txPin ≠ t.cfg.rxPin

/-! ### Reset -/

/-- R52, R240: the values the spec gives for the state after hardware reset. -/
def Obligations.ResetValues : Prop :=
  State.reset.life = .down ∧ State.reset.lastErr = .noFailure ∧
  State.reset.tx.doneSignal = false ∧ State.reset.txTimer.armed = false ∧
  State.reset.rx.active = false ∧ State.reset.rxIrqEn = false ∧
  State.reset.rxEdgePending = false ∧ State.reset.rxTimer.armed = false ∧
  State.reset.dirTx = .unset ∧ State.reset.dirRx = .unset ∧
  State.reset.hist = [] ∧ State.reset.fault = [] ∧ State.reset.refused = false

/-- R52, R240: a pulse of `rst` puts any state into DOWN with the values of reset; the line, the time and
the parameters are not the reset's (log 18). -/
def Obligations.HardwareResetStep : Prop :=
  ∀ (s : State) (rest : List Input), s.inputs = .rst :: rest →
    ∃ t, step s = .next t ∧
      t.life = .down ∧ t.lastErr = .noFailure ∧ t.tx.doneSignal = false ∧
      t.txTimer.armed = false ∧ t.rx.active = false ∧ t.rxIrqEn = false ∧
      t.rxEdgePending = false ∧ t.rxTimer.armed = false ∧ t.dirTx = .unset ∧ t.dirRx = .unset ∧
      t.hist = [] ∧ t.fault = [] ∧ t.refused = false ∧
      t.rxIn = s.rxIn ∧ t.now = s.now ∧ t.cfg = s.cfg ∧ t.inputs = rest

/-- R55, R33, R111: the invariants hold right after reset. -/
def Obligations.ResetMeetsTheInvariants : Prop := Inv State.reset ∧ InTime State.reset

/-! ### Invariants -/

/-- R55, R33 (C4), R61, R34: every step keeps the invariant of the machine: while UP and without a fault
(a) to (d) and (f) of R55, in every state the ranges (e), in DOWN everything off (log 15), the FIFO storage
in canonical form with no slot at or above C. -/
def Obligations.StepKeepsTheInvariant : Prop :=
  ∀ s t : State, Inv s → step s = .next t → Inv t

/-- R111, R112, R158: every step keeps the time bounds: no timer expiry is left unserved past
TICK_LAT_MAX, no edge past EDGE_LAT_MAX. -/
def Obligations.StepKeepsTheTimeBounds : Prop :=
  ∀ s t : State, InTime s → step s = .next t → InTime t

/-- R34, R61: every step keeps the canonical form of the FIFO storage, in any state at all. -/
def Obligations.StepKeepsTheStorageCanonical : Prop :=
  ∀ s t : State, Memory.wf s.fifo.storage → step s = .next t → Memory.wf t.fifo.storage

/-! ### The TX sequencer -/

/-- R136, R137: with no byte in flight, TXSTART loads byte and index together, clears the latch, arms the
timer one BITPERIOD from now, leaves `tx_out`, and writes no other field of the block. -/
def Obligations.TxstartLoadsTheByte : Prop :=
  ∀ (s : State) (b : Byte), s.life = .up → s.txTimer.armed = false →
    ∃ t, exec (.txstart b) s = .next t ∧
      t.tx.targetByte = b ∧ t.tx.bitIndex.toInt = -1 ∧ t.tx.doneSignal = false ∧
      t.txTimer.armed = true ∧ t.txTimer.deadline = s.now + 1000000000 / s.cfg.baud ∧
      t.txOut = s.txOut ∧ t.hReady = true ∧ t.hRdata = none ∧
      SameRx s t ∧ SameFifo s t ∧ SameCounters s t ∧ SameLife s t ∧ SameWorld s t ∧ SameMarks s t

/-- R137, R216: a TXSTART while a byte is in flight records the fault TxOverlap. The spec promises nothing
of what it leaves in the TX fields: they hold free values, and the model goes on (log 4); the RX side, the
FIFO, the counters and the pin level are not TXSTART's to write (R136, R69). -/
def Obligations.TxstartInFlightRecordsTheOverlap : Prop :=
  ∀ (s : State) (b : Byte), s.life = .up → s.txTimer.armed = true →
    ∃ t, exec (.txstart b) s = .next t ∧
      (∀ f, f ∈ t.fault ↔ f ∈ s.fault ∨ f = .txOverlap) ∧
      t.refused = s.refused ∧ t.txOut = s.txOut ∧ t.hReady = true ∧ t.hRdata = none ∧
      SameRx s t ∧ SameFifo s t ∧ SameCounters s t ∧ SameLife s t ∧ SameWorld s t

/-- R139: the START firing drives LOW, the index goes to 0, the timer is rescheduled one BITPERIOD on; from
an idle (HIGH) output the wire shows the falling edge. The latch stays as it was (R26, R138). -/
def Obligations.TxtickStartDrivesLow : Prop :=
  ∀ s : State, txTickEnabled s = true → s.tx.bitIndex = .start →
    ∃ t, exec .txtick s = .next t ∧
      t.txOut = false ∧ t.tx.bitIndex.toInt = 0 ∧ t.tx.doneSignal = s.tx.doneSignal ∧
      t.txTimer.armed = true ∧ t.txTimer.deadline = s.txTimer.deadline + 1000000000 / s.cfg.baud ∧
      (s.txOut = true → wireTrace t.hist = wireTrace s.hist ++ [(s.now, false)])

/-- R140: the firing in DATA[i] drives bit i of the target byte, the index goes to i + 1, the timer is
rescheduled; where the level does not change there is no record of a change on the wire. The latch
stays as it was (R26, R138). -/
def Obligations.TxtickDataDrivesTheBit : Prop :=
  ∀ (s : State) (i : Fin 8), txTickEnabled s = true → s.tx.bitIndex = .data i →
    ∃ t, exec .txtick s = .next t ∧
      t.txOut = s.tx.targetByte.getLsbD i.val ∧ t.tx.bitIndex.toInt = (i.val : Int) + 1 ∧
      t.tx.doneSignal = s.tx.doneSignal ∧
      t.txTimer.armed = true ∧ t.txTimer.deadline = s.txTimer.deadline + 1000000000 / s.cfg.baud ∧
      (t.txOut = s.txOut → wireTrace t.hist = wireTrace s.hist)

/-- R141: the STOP firing drives HIGH, the index goes to 9, the timer is rescheduled one BITPERIOD on and
completion is not signalled yet. -/
def Obligations.TxtickStopDrivesHigh : Prop :=
  ∀ s : State, txTickEnabled s = true → s.tx.bitIndex = .stop →
    ∃ t, exec .txtick s = .next t ∧
      t.txOut = true ∧ t.tx.bitIndex.toInt = 9 ∧ t.tx.doneSignal = s.tx.doneSignal ∧
      t.txTimer.armed = true ∧ t.txTimer.deadline = s.txTimer.deadline + 1000000000 / s.cfg.baud

/-- R142: the terminal firing sets the latch, leaves the timer not armed, does not touch `tx_out`, leaves
the index at 9; after it `tx_busy` is false and a TXSTART loads its byte without a fault. -/
def Obligations.TxtickDoneSignalsCompletion : Prop :=
  ∀ (s : State) (b : Byte), txTickEnabled s = true → s.tx.bitIndex = .done →
    ∃ t, exec .txtick s = .next t ∧
      t.tx.doneSignal = true ∧ t.txTimer.armed = false ∧ txBusy t = false ∧ t.txOut = s.txOut ∧
      t.tx.bitIndex.toInt = 9 ∧
      ∃ u, exec (.txstart b) t = .next u ∧ u.fault = t.fault ∧ u.tx.targetByte = b ∧
        u.tx.bitIndex.toInt = -1

/-- R138, R226, R69: whatever the arm, TXTICK keeps the target byte, the RX side, the FIFO, the counters,
the life, the port and the marks; outside the DONE arm it keeps the latch too (R26). -/
def Obligations.TxtickFrame : Prop :=
  ∀ s t : State, exec .txtick s = .next t →
    t.tx.targetByte = s.tx.targetByte ∧
    (s.tx.bitIndex ≠ .done → t.tx.doneSignal = s.tx.doneSignal) ∧
    SameRx s t ∧ SameFifo s t ∧ SameCounters s t ∧ SameLife s t ∧ SameWorld s t ∧ SameMarks s t ∧
    SamePort s t

/-- R110, R111, R158: a firing never comes early, the edge handler never runs without a pending edge, and no
timer or edge-detector event is taken in DOWN (R195; LINE is, and is none of these). Where TXTICK, RXTICK or
RXEDGE is not enabled it changes nothing (log 2). -/
def Obligations.EventNotEnabledHasNoEffect : Prop :=
  ∀ s : State,
    (s.life = .down ∨ s.txTimer.armed = false ∨ s.now < s.txTimer.deadline →
      exec .txtick s = .next s) ∧
    (s.life = .down ∨ s.rxTimer.armed = false ∨ s.now < s.rxTimer.deadline →
      exec .rxtick s = .next s) ∧
    (s.life = .down ∨ s.rxEdgePending = false → exec .rxedge s = .next s)

/-- R143, R26, R46: with the latch set TXWAIT answers 1 at once and changes no state of the block. -/
def Obligations.TxwaitAnswersWhenDone : Prop :=
  ∀ (s : State) (d : Byte), s.life = .up → s.tx.doneSignal = true →
    ∃ t, exec (.txwait d) s = .next t ∧
      t.hReady = true ∧ t.hRdata = some 1 ∧
      SameTx s t ∧ SameRx s t ∧ SameFifo s t ∧ SameCounters s t ∧ SameLife s t ∧ SameWorld s t ∧
      SameMarks s t

/-- R143, R234, R46: with the latch 0 TXWAIT is held: `ready` is 0, and nothing else happens. -/
def Obligations.TxwaitIsHeldUntilDone : Prop :=
  ∀ (s : State) (d : Byte), s.life = .up → s.tx.doneSignal = false →
    exec (.txwait d) s = .next { s with held := s.held ++ [d], hReady := false, hRdata := none }

/-- R71, R143, R234: the terminal TXTICK lifts the holds in its own step: every held TXWAIT completes with
1, oldest first (log 6), before time passes or a TXSTART clears the latch, and the callers blocked in a WRITE
go on, or return their count (R180); the calls of READ are not touched. After every step no TXWAIT is held and no WRITE blocked while UP with the
latch set; a step that leaves the latch 0, or DOWN (R199, U15: log 6), lifts none: what is held stays held,
each WRITE that is blocked stays so, and no call returns but a WRITE []. That the completions are recorded
right after the TXTICK, and the `drive` part of the records, are log 17's; the order of several returns is log
29's. -/
def Obligations.HeldTxwaitCompletesWhenDone : Prop :=
  (∀ (s : State) (rest : List Input), s.inputs = .event 0b0001#4 :: rest →
    txTickEnabled s = true → s.tx.bitIndex = .done →
      ∃ t, step s = .next t ∧ t.tx.doneSignal = true ∧ t.txTimer.armed = false ∧ t.inputs = rest ∧
        t.now = s.now ∧ t.held = [] ∧
        (s.held ≠ [] → t.hReady = true ∧ t.hRdata = some 1) ∧
        t.hist = s.hist ++
          .op { time := s.now, agent := .txtimer, code := .e 0b0001#4, operand := none, result := none,
                drive := none } ::
          s.held.map (fun d => .op { time := s.now, agent := .host, code := .h (0b0001#4 ++ d),
                                     operand := none, result := some 1, drive := none }) ∧
        t.writes = (s.writes.map WriteCall.unblock).filter (fun c => !c.finished) ∧
        t.returned = s.returned ++
          ((s.writes.map WriteCall.unblock).filter (fun c => c.finished)).map (fun c => (s.now, c.sent)) ∧
        t.reads = s.reads ∧ t.delivered = s.delivered ∧
        SameRx s t ∧ SameFifo s t ∧ SameCounters s t ∧ SameLife s t ∧ SameMarks s t) ∧
  (∀ s t : State, step s = .next t → t.life = .up → t.tx.doneSignal = true →
    t.held = [] ∧ ∀ c ∈ t.writes, c.phase ≠ .held) ∧
  (∀ s t : State, HoldsOk s → step s = .next t → HoldsOk t) ∧
  (∀ s t : State, step s = .next t → t.life = .down ∨ t.tx.doneSignal = false →
    (∃ l, t.held = s.held ++ l) ∧
    (s.writes.filter (fun c => c.phase = .held)).Sublist (t.writes.filter (fun c => c.phase = .held)) ∧
    ∃ l, t.returned = s.returned ++ l ∧ ∀ r ∈ l, r = (s.now, 0))

/-- R144, R92, R145: TXSTART b and eleven punctual firings put the ten cells of the frame of b on the
output pin, each exactly one BITPERIOD after the one before, and the eleventh sets the latch. -/
def Obligations.ByteIsClockedOutAsAFrame : Prop :=
  ∀ (s : State) (b : Byte), s.life = .up → s.txTimer.armed = false →
    ∃ u, exec (.txstart b) s = .next u ∧
      (∀ k : Fin 10, ∃ t, fireTxTimes (k.val + 1) u = .next t ∧
        t.txOut = frameLevel b k.val ∧
        t.now = s.now + (k.val + 1) * s.cfg.bitPeriod ∧
        t.txTimer.armed = true ∧ t.txTimer.deadline = t.now + s.cfg.bitPeriod ∧
        t.tx.doneSignal = false) ∧
      ∃ t, fireTxTimes 11 u = .next t ∧
        t.txOut = true ∧ t.now = s.now + 11 * s.cfg.bitPeriod ∧
        t.txTimer.armed = false ∧ t.tx.doneSignal = true ∧ t.tx.targetByte = b

/-! ### The RX detector, sampler and validator -/

/-- R156, R157: LINE v writes `rx_in`; in UP, a change from 1 to 0 with the interrupt enabled and nothing
pending makes the edge pending at this time; any other LINE, an edge under the mask among them, leaves the
pending bit and its time as they were. Nothing else changes. That the bit is seen set with EDGE_LAT_MAX = 0
also, where R32 has LINE and RXEDGE fuse, is the model's choice (log 32). -/
def Obligations.LineSetsThePendingEdge : Prop :=
  ∀ (s : State) (v : Bool),
    ∃ t, exec (.line v) s = .next t ∧ t.rxIn = v ∧
      (if s.life = .up ∧ s.rxIn = true ∧ v = false ∧ s.rxIrqEn = true ∧ s.rxEdgePending = false then
        t.rxEdgePending = true ∧ t.rxEdgeTime = s.now
      else t.rxEdgePending = s.rxEdgePending ∧ t.rxEdgeTime = s.rxEdgeTime) ∧
      t.rx = s.rx ∧ t.rxIrqEn = s.rxIrqEn ∧ t.rxTimer = s.rxTimer ∧
      t.cfg = s.cfg ∧ t.now = s.now ∧ t.initDraw = s.initDraw ∧ t.inputs = s.inputs ∧
      t.held = s.held ∧ t.writes = s.writes ∧ t.returned = s.returned ∧ t.reads = s.reads ∧
      t.delivered = s.delivered ∧
      SameTx s t ∧ SameFifo s t ∧ SameCounters s t ∧ SameLife s t ∧ SameMarks s t ∧ SamePort s t

/-- R159, R160: in IDLE the edge handler clears count and accumulator, marks the frame active, masks the
edge interrupt and arms the RX timer one full BITPERIOD from now; it writes no other field of the block. -/
def Obligations.RxedgeStartsAFrame : Prop :=
  ∀ s : State, rxEdgeEnabled s = true → s.rx.active = false →
    ∃ t, exec .rxedge s = .next t ∧
      t.rxEdgePending = false ∧ t.rx.active = true ∧ t.rx.bitCount.val = 0 ∧ t.rx.accumulator = 0 ∧
      t.rxIrqEn = false ∧ t.rxTimer.armed = true ∧
      t.rxTimer.deadline = s.now + 1000000000 / s.cfg.baud ∧ t.rxEdgeTime = s.rxEdgeTime ∧
      SameTx s t ∧ SameFifo s t ∧ SameCounters s t ∧ SameLife s t ∧ SameWorld s t ∧ SameMarks s t ∧
      SamePort s t

/-- R159: when already sampling the edge is ignored: only the pending bit is cleared. -/
def Obligations.RxedgeIsIgnoredWhileSampling : Prop :=
  ∀ s : State, rxEdgeEnabled s = true → s.rx.active = true →
    ∃ t, exec .rxedge s = .next t ∧
      t.rxEdgePending = false ∧ t.rx = s.rx ∧ t.rxIrqEn = s.rxIrqEn ∧ t.rxTimer = s.rxTimer ∧
      t.rxEdgeTime = s.rxEdgeTime ∧
      SameTx s t ∧ SameFifo s t ∧ SameCounters s t ∧ SameLife s t ∧ SameWorld s t ∧ SameMarks s t ∧
      SamePort s t

/-- R161, R162: with fewer than eight bits sampled, RXTICK ORs the sample into bit `bit_count` and leaves
every other bit, counts it, and reschedules from its own last deadline; it writes no other field of the block. -/
def Obligations.RxtickSamplesOneBit : Prop :=
  ∀ s : State, rxTickEnabled s = true → s.rx.bitCount.val < 8 →
    ∃ t, exec .rxtick s = .next t ∧
      (∀ k : Fin 8, t.rx.accumulator.getLsbD k.val =
        (s.rx.accumulator.getLsbD k.val || (decide (k.val = s.rx.bitCount.val) && s.rxIn))) ∧
      t.rx.bitCount.val = s.rx.bitCount.val + 1 ∧ t.rx.active = s.rx.active ∧
      t.rxTimer.armed = true ∧ t.rxTimer.deadline = s.rxTimer.deadline + 1000000000 / s.cfg.baud ∧
      t.rxIrqEn = s.rxIrqEn ∧ t.rxEdgePending = s.rxEdgePending ∧ t.rxEdgeTime = s.rxEdgeTime ∧
      SameTx s t ∧ SameFifo s t ∧ SameCounters s t ∧ SameLife s t ∧ SameWorld s t ∧ SameMarks s t ∧
      SamePort s t

/-- R161, R163, R122: a stop sample of 1 pushes the accumulator (the slot at `head` takes it, every other
slot reads as before, `head` moves on, `tail` only when the FIFO was full), counts the frame modulo 2^32 and
returns to IDLE. The history gets the record of the operation, then BufferOverrun with the byte at `tail`
when the FIFO was full (R213), then FrameOk (R218); the record's place and its `drive` part are log 17's. -/
def Obligations.RxtickAcceptsAValidFrame : Prop :=
  ∀ s : State, rxTickEnabled s = true → s.rx.bitCount.val = 8 → s.rxIn = true →
    s.fifo.head < s.cfg.capacity → Memory.wf s.fifo.storage →
    ∃ t, exec .rxtick s = .next t ∧
      Memory.read t.fifo.storage s.fifo.head = s.rx.accumulator ∧
      (∀ a, a ≠ s.fifo.head → Memory.read t.fifo.storage a = Memory.read s.fifo.storage a) ∧
      t.fifo.head = (s.fifo.head + 1) % s.cfg.capacity ∧
      t.fifo.tail = (if (s.fifo.head + 1) % s.cfg.capacity = s.fifo.tail then
        (s.fifo.tail + 1) % s.cfg.capacity else s.fifo.tail) ∧
      t.cntRxOk = s.cntRxOk + 1 ∧ t.cntRxFerr = s.cntRxFerr ∧
      t.hist = s.hist ++
        [.op { time := s.now, agent := .rxtimer, code := .e 0b0011#4, operand := none, result := none,
               drive := none }] ++
        (if (s.fifo.head + 1) % s.cfg.capacity = s.fifo.tail then
          [.event (.bufferOverrun (Memory.read s.fifo.storage s.fifo.tail))] else []) ++
        [.event (.frameOk s.rx.accumulator)] ∧
      t.rx.active = false ∧ t.rx.bitCount.val = 8 ∧ t.rx.accumulator = s.rx.accumulator ∧
      t.rxIrqEn = true ∧ t.rxTimer.armed = false ∧
      t.rxEdgePending = s.rxEdgePending ∧ t.rxEdgeTime = s.rxEdgeTime ∧
      SameTx s t ∧ SameLife s t ∧ SameWorld s t ∧ SameMarks s t ∧ SamePort s t

/-- R161, R163, R128, R212: a stop sample of 0 pushes nothing, counts a framing error modulo 2^32 and
returns to IDLE all the same; the history gets the record of the operation and FramingError with the
accumulator (R212); the record's place and its `drive` part are log 17's. -/
def Obligations.RxtickDropsAFramingError : Prop :=
  ∀ s : State, rxTickEnabled s = true → s.rx.bitCount.val = 8 → s.rxIn = false →
    ∃ t, exec .rxtick s = .next t ∧
      SameFifo s t ∧ unread t = unread s ∧
      t.cntRxFerr = s.cntRxFerr + 1 ∧ t.cntRxOk = s.cntRxOk ∧
      t.rx.active = false ∧ t.rx.bitCount.val = 8 ∧ t.rx.accumulator = s.rx.accumulator ∧
      t.rxIrqEn = true ∧ t.rxTimer.armed = false ∧
      t.rxEdgePending = s.rxEdgePending ∧ t.rxEdgeTime = s.rxEdgeTime ∧
      t.hist = s.hist ++
        [.op { time := s.now, agent := .rxtimer, code := .e 0b0011#4, operand := none, result := none,
               drive := none }, .event (.framingError s.rx.accumulator)] ∧
      SameTx s t ∧ SameLife s t ∧ SameWorld s t ∧ SameMarks s t ∧ SamePort s t

/-- R161, R226, R69: whatever RXTICK does, the TX side, the life, the outside, the marks and the port stay
as they were. -/
def Obligations.RxtickFrame : Prop :=
  ∀ s t : State, exec .rxtick s = .next t →
    SameTx s t ∧ SameLife s t ∧ SameWorld s t ∧ SameMarks s t ∧ SamePort s t ∧
    t.rxEdgePending = s.rxEdgePending ∧ t.rxEdgeTime = s.rxEdgeTime

/-- R162 to R164, R170: the edge handler and nine punctual firings that see the eight data bits of b and
then the stop level assemble b; a stop level 1 makes b the newest unread byte and counts the frame, a stop
level 0 leaves the FIFO and counts a framing error. Either way the machine is back in IDLE. -/
def Obligations.FrameIsReceivedOrDropped : Prop :=
  ∀ (s : State) (b : Byte) (stop : Bool),
    rxEdgeEnabled s = true → s.rx.active = false → CursorsOk s → StorageOk s →
    ∃ u, exec .rxedge s = .next u ∧
      ∃ t, sampleRxAll ((List.range 8).map (fun k => b.getLsbD k) ++ [stop]) u = .next t ∧
        t.rx.accumulator = b ∧ t.rx.active = false ∧ t.rxIrqEn = true ∧ t.rxTimer.armed = false ∧
        t.now = s.now + 9 * s.cfg.bitPeriod ∧
        (stop = true → (unread t).getLast? = some b ∧ t.cntRxOk = s.cntRxOk + 1 ∧
          t.cntRxFerr = s.cntRxFerr) ∧
        (stop = false → unread t = unread s ∧ t.cntRxFerr = s.cntRxFerr + 1 ∧
          t.cntRxOk = s.cntRxOk)

/-! ### The FIFO -/

/-- R36, R121: with the cursors below C, the FIFO holds at most C - 1 bytes, it is empty exactly when it
holds none and full exactly when it holds C - 1. -/
def Obligations.FifoHoldsAtMostOneLessThanItsSlots : Prop :=
  ∀ s : State, CursorsOk s →
    (unread s).length = fifoCount s ∧ fifoCount s ≤ s.cfg.capacity - 1 ∧
    (s.fifo.head = s.fifo.tail ↔ fifoCount s = 0) ∧
    ((s.fifo.head + 1) % s.cfg.capacity = s.fifo.tail ↔ fifoCount s = s.cfg.capacity - 1)

/-- R122, R121: a push makes its byte the newest unread one; on a full FIFO the oldest unread byte is
dropped first, and only then BufferOverrun is raised, with the byte at `tail` (R213). -/
def Obligations.PushAppendsAndDropsTheOldest : Prop :=
  ∀ (s : State) (b : Byte), CursorsOk s → StorageOk s →
    ∃ t, fifoPush b s = .ok t ∧ CursorsOk t ∧ StorageOk t ∧
      unread t = (if fifoFull s then (unread s).drop 1 else unread s) ++ [b] ∧
      t.hist = s.hist ++ (if (s.fifo.head + 1) % s.cfg.capacity = s.fifo.tail then
        [.event (.bufferOverrun (Memory.read s.fifo.storage s.fifo.tail))] else [])

/-- R123, R127: a pop returns the oldest unread byte and leaves the others in order; from an empty FIFO it
returns empty and changes nothing. -/
def Obligations.PopRemovesTheOldest : Prop :=
  ∀ s : State, CursorsOk s → StorageOk s →
    ∃ r t, fifoPop s = .ok (r, t) ∧ r = (unread s).head? ∧ unread t = (unread s).drop 1 ∧
      CursorsOk t ∧ StorageOk t ∧ (s.fifo.head = s.fifo.tail → t = s)

/-- R126: after any sequence of pushes into an empty FIFO with no pop between them, the unread bytes are
the last min(n, C - 1) bytes pushed, in order. -/
def Obligations.DropOldestLaw : Prop :=
  ∀ (s : State) (bs : List Byte), CursorsOk s → StorageOk s → s.fifo.head = s.fifo.tail →
    ∃ t, pushAll bs s = .ok t ∧
      unread t = bs.drop (bs.length - min bs.length (s.cfg.capacity - 1))

/-- R123, R124, R47: RXPOP of a non-empty FIFO answers VALID and the byte at `tail`, zeroes that slot,
moves `tail` on, and writes no other field of the block; every other slot reads as before. -/
def Obligations.RxpopAnswersTheOldestByte : Prop :=
  ∀ (s : State) (d : Byte), s.life = .up → s.fifo.head ≠ s.fifo.tail →
    s.fifo.tail < s.cfg.capacity → Memory.wf s.fifo.storage →
    ∃ t r, exec (.rxpop d) s = .next t ∧ t.hReady = true ∧ t.hRdata = some r ∧
      r.getLsbD 8 = true ∧ r.extractLsb' 0 8 = Memory.read s.fifo.storage s.fifo.tail ∧
      r.extractLsb' 9 23 = 0 ∧
      Memory.read t.fifo.storage s.fifo.tail = 0 ∧
      (∀ a, a ≠ s.fifo.tail → Memory.read t.fifo.storage a = Memory.read s.fifo.storage a) ∧
      t.fifo.tail = (s.fifo.tail + 1) % s.cfg.capacity ∧ t.fifo.head = s.fifo.head ∧
      SameTx s t ∧ SameRx s t ∧ SameCounters s t ∧ SameLife s t ∧ SameWorld s t ∧ SameMarks s t

/-- R124, R47: RXPOP of an empty FIFO answers 0 and changes no state of the block. -/
def Obligations.RxpopAnswersEmpty : Prop :=
  ∀ (s : State) (d : Byte), s.life = .up → s.fifo.head = s.fifo.tail →
    ∃ t, exec (.rxpop d) s = .next t ∧ t.hReady = true ∧ t.hRdata = some 0 ∧
      SameTx s t ∧ SameRx s t ∧ SameFifo s t ∧ SameCounters s t ∧ SameLife s t ∧ SameWorld s t ∧
      SameMarks s t

/-- R181, R127: READ n, with no other step between its RXPOPs, returns the oldest min(n, unread) bytes in
order and leaves the rest unread. With other agents' steps between them: the call takes no operation; each
RXPOP takes the byte that is the oldest then to the end of what the call has; the call returns when it has
its n bytes, and otherwise after the RXPOP that finds the FIFO empty. READ 0 returns `[]`. That a running READ
is a list of calls and takes its steps at inputs of its own is the model's form (log 29), and that a READ
called in DOWN is refused at the call the model's choice (log 30). (`HoldsOk` says that no hold is left to
lift.) -/
def Obligations.ReadReturnsTheOldestBytes : Prop :=
  (∀ (s : State) (n : Nat), s.life = .up → CursorsOk s → StorageOk s →
    ∃ t, readLoop n s = .next ((unread s).take n, t) ∧ unread t = (unread s).drop n) ∧
  (∀ (s : State) (n : Nat) (rest : List Input), HoldsOk s → s.inputs = .read n :: rest →
    step s = .next (if n = 0 then { s with inputs := rest, delivered := s.delivered ++ [(s.now, [])] }
      else if s.life = .up then { s with inputs := rest, reads := s.reads ++ [{ left := n, got := [] }] }
      else { s with inputs := rest, refused := true })) ∧
  (∀ (s : State) (k n : Nat) (out : List Byte) (rest : List Input), s.life = .up → CursorsOk s →
    StorageOk s → s.inputs = .reader k :: rest → s.reads[k]? = some { left := n + 1, got := out } →
      ∃ t, step s = .next t ∧ unread t = (unread s).drop 1 ∧
        match (unread s).head? with
        | some b =>
          if n = 0 then
            t.reads = s.reads.eraseIdx k ∧ t.delivered = s.delivered ++ [(s.now, out ++ [b])]
          else t.reads = s.reads.set k { left := n, got := out ++ [b] } ∧ t.delivered = s.delivered
        | none => t.reads = s.reads.eraseIdx k ∧ t.delivered = s.delivered ++ [(s.now, out)])

/-! ### Status and counters -/

/-- R48, R183: the answer of RDSTAT bit by bit, in either life; no state of the block changes. -/
def Obligations.RdstatAnswersTheStatusBits : Prop :=
  ∀ (s : State) (d : Byte),
    ∃ t r, exec (.rdstat d) s = .next t ∧ t.hReady = true ∧ t.hRdata = some r ∧
      r.getLsbD 0 = (decide (s.life = .up) && s.tx.doneSignal) ∧
      r.getLsbD 1 = (decide (s.life = .up) && s.txTimer.armed) ∧
      r.getLsbD 2 = (decide (s.life = .up) && s.rx.active) ∧
      r.getLsbD 3 = (decide (s.life = .up) && s.rxIrqEn) ∧
      r.getLsbD 4 = (decide (s.life = .up) && decide (s.fifo.head ≠ s.fifo.tail)) ∧
      r.getLsbD 5 = (decide (s.life = .up) &&
        decide ((s.fifo.head + 1) % s.cfg.capacity = s.fifo.tail)) ∧
      r.getLsbD 6 = (decide (s.life = .up) && s.txOut) ∧
      r.getLsbD 7 = (decide (s.life = .up) && s.rxIn) ∧
      r.getLsbD 8 = decide (s.life = .up) ∧
      (r.extractLsb' 9 2).toNat =
        (match s.lastErr with | .noFailure => 0 | .mapping => 1 | .irqRegistration => 2) ∧
      r.extractLsb' 11 21 = 0 ∧
      SameTx s t ∧ SameRx s t ∧ SameFifo s t ∧ SameCounters s t ∧ SameLife s t ∧ SameWorld s t ∧
      SameMarks s t

/-- R184: RDCNTOK is the read of address 5; admitted in UP it answers `cnt_rx_ok` and has no side effect;
in DOWN it is refused. -/
def Obligations.RdcntokAnswersTheCounter : Prop :=
  ∀ (s : State) (d : Byte), decode (.h (0b0101#4 ++ d)) = .ok (.rdcntok d) ∧
    (s.life = .up →
      ∃ t, exec (.rdcntok d) s = .next t ∧ t.hReady = true ∧ t.hRdata = some s.cntRxOk ∧
        SameTx s t ∧ SameRx s t ∧ SameFifo s t ∧ SameCounters s t ∧ SameLife s t ∧ SameWorld s t ∧
        SameMarks s t) ∧
    (s.life = .down → ∃ t, exec (.rdcntok d) s = .next t ∧ t.refused = true)

/-- R185: RDCNTFE is the read of address 6; admitted in UP it answers `cnt_rx_ferr` and has no side
effect; in DOWN it is refused. -/
def Obligations.RdcntfeAnswersTheCounter : Prop :=
  ∀ (s : State) (d : Byte), decode (.h (0b0110#4 ++ d)) = .ok (.rdcntfe d) ∧
    (s.life = .up →
      ∃ t, exec (.rdcntfe d) s = .next t ∧ t.hReady = true ∧ t.hRdata = some s.cntRxFerr ∧
        SameTx s t ∧ SameRx s t ∧ SameFifo s t ∧ SameCounters s t ∧ SameLife s t ∧ SameWorld s t ∧
        SameMarks s t) ∧
    (s.life = .down → ∃ t, exec (.rdcntfe d) s = .next t ∧ t.refused = true)

/-! ### Lifecycle -/

/-- R196, R241, R52: INIT with outcome OK writes the UP column; `rx_in` and `now` are not touched, faults
and refusals stay recorded. That the deadlines, the edge time and every FIFO slot keep their values is log
13's. The wire trace gets the change to HIGH, now (R218). -/
def Obligations.InitOkWritesTheUpColumn : Prop :=
  ∀ s : State, s.life = .down → s.initDraw = .ok →
    ∃ t, exec .init s = .next t ∧
      t.life = .up ∧ t.lastErr = .noFailure ∧ t.tx.targetByte = 0 ∧ t.tx.bitIndex.toInt = 9 ∧
      t.tx.doneSignal = false ∧ t.txTimer.armed = false ∧ t.rx.active = false ∧
      t.rx.bitCount.val = 0 ∧ t.rx.accumulator = 0 ∧ t.rxIrqEn = true ∧ t.rxEdgePending = false ∧
      t.rxTimer.armed = false ∧ t.fifo.head = 0 ∧ t.fifo.tail = 0 ∧ t.cntRxOk = 0 ∧ t.cntRxFerr = 0 ∧
      t.txOut = true ∧ t.dirTx = .out ∧ t.dirRx = .inp ∧ t.hReady = true ∧ t.hRdata = none ∧
      t.txTimer.deadline = s.txTimer.deadline ∧ t.rxTimer.deadline = s.rxTimer.deadline ∧
      t.rxEdgeTime = s.rxEdgeTime ∧
      (∀ a, Memory.read t.fifo.storage a = Memory.read s.fifo.storage a) ∧
      wireTrace t.hist = wireTrace s.hist ++ [(s.now, true)] ∧
      SameWorld s t ∧ SameMarks s t

/-- R196, R197, R211: INIT with outcome MAP_FAIL acquires nothing: `last_err` is 1, the life stays DOWN and
every other field of the block keeps its value; the history gets the record of this INIT and InitFailure(1),
also where an earlier INIT has failed. That the record stands first, and its `drive` part, are log 17's. -/
def Obligations.InitMapFailAcquiresNothing : Prop :=
  ∀ s : State, s.life = .down → s.initDraw = .mapFail →
    ∃ t, exec .init s = .next t ∧
      t.life = .down ∧ t.lastErr = .mapping ∧
      t.hist = s.hist ++
        [.op { time := s.now, agent := .host, code := .h 0b110000000001#12, operand := none, result := none,
               drive := none }, .event (.initFailure .mapping)] ∧
      t.dirTx = s.dirTx ∧ t.dirRx = s.dirRx ∧
      SameTx s t ∧ SameRx s t ∧ SameFifo s t ∧ SameCounters s t ∧ SameWorld s t ∧ SameMarks s t

/-- R196, R197, R211: INIT with outcome IRQ_FAIL releases the pins: `last_err` is 2, the life stays DOWN; the
history gets the record of this INIT and InitFailure(2), also where an earlier INIT has failed. The level of
`tx_out`, no longer driven, is open, and that no HIGH is recorded for it is the model's choice (log 14); that the
record stands first, and its `drive` part, are log 17's. -/
def Obligations.InitIrqFailReleasesThePins : Prop :=
  ∀ s : State, s.life = .down → s.initDraw = .irqFail →
    ∃ t, exec .init s = .next t ∧
      t.life = .down ∧ t.lastErr = .irqRegistration ∧
      t.hist = s.hist ++
        [.op { time := s.now, agent := .host, code := .h 0b110000000001#12, operand := none, result := none,
               drive := none }, .event (.initFailure .irqRegistration)] ∧
      t.dirTx = .unset ∧ t.dirRx = .unset ∧ t.tx = s.tx ∧ t.txTimer = s.txTimer ∧
      t.fault = s.fault ∧ t.refused = s.refused ∧
      SameRx s t ∧ SameFifo s t ∧ SameCounters s t ∧ SameWorld s t

/-- R198, R53: TEARDOWN cancels both timers, releases the interrupt and the pins and goes DOWN; nothing is
pushed, no counter moves, the TX fields, the count and the accumulator keep their values. That `rx.active`
is off in DOWN is C4's and R33's (log 15); the level of `tx_out` is open (log 16). That a `TXWAIT` that is
held stays held, and that no refusal is recorded for it, is the model's choice: of it R199 says both 'no
step' and 'refused' (log 6). -/
def Obligations.TeardownReleasesEverything : Prop :=
  ∀ s : State, s.life = .up →
    ∃ t, exec .teardown s = .next t ∧
      t.life = .down ∧ t.txTimer.armed = false ∧ t.rxTimer.armed = false ∧ t.rxIrqEn = false ∧
      t.rxEdgePending = false ∧ t.dirTx = .unset ∧ t.dirRx = .unset ∧
      t.rx.active = false ∧ t.rx.bitCount = s.rx.bitCount ∧ t.rx.accumulator = s.rx.accumulator ∧
      t.tx = s.tx ∧ t.lastErr = s.lastErr ∧ t.fault = s.fault ∧ t.refused = s.refused ∧
      t.txTimer.deadline = s.txTimer.deadline ∧ t.rxTimer.deadline = s.rxTimer.deadline ∧
      t.rxEdgeTime = s.rxEdgeTime ∧ t.hReady = true ∧ t.hRdata = none ∧
      SameFifo s t ∧ SameCounters s t ∧ SameWorld s t

/-! ### Whole-machine rules -/

/-- R20 (the owner column), R21, R31, R34, R38, R40, R41: which operations can write which field of the
block. INIT, which creates the whole record, stands beside the owners of R20 where its rule R196 has it write.
That TEARDOWN leaves the level of `tx_out` open is log 16's, that it clears `rx.active` log 15's, and that
only LINE writes `rx_edge_time` rests on log 13. -/
def Obligations.OnlyItsOwnersWriteAField : Prop :=
  ∀ (i : Instr) (s t : State), exec i s = .next t →
    (t.life ≠ s.life → i = .init ∨ i = .teardown) ∧
    (t.lastErr ≠ s.lastErr → i = .init) ∧
    (t.tx.targetByte ≠ s.tx.targetByte → i = .init ∨ ∃ b, i = .txstart b) ∧
    (t.tx.doneSignal ≠ s.tx.doneSignal → i = .init ∨ i = .txtick ∨ ∃ b, i = .txstart b) ∧
    (t.txOut ≠ s.txOut → i = .init ∨ i = .txtick ∨ i = .teardown) ∧
    (t.rxIn ≠ s.rxIn → ∃ v, i = .line v) ∧
    (t.rxIrqEn ≠ s.rxIrqEn → i = .init ∨ i = .rxedge ∨ i = .rxtick ∨ i = .teardown) ∧
    (t.rx.accumulator ≠ s.rx.accumulator → i = .init ∨ i = .rxedge ∨ i = .rxtick) ∧
    (t.fifo.storage ≠ s.fifo.storage → i = .rxtick ∨ ∃ d, i = .rxpop d) ∧
    (t.cntRxOk ≠ s.cntRxOk → i = .init ∨ i = .rxtick) ∧
    (t.cntRxFerr ≠ s.cntRxFerr → i = .init ∨ i = .rxtick) ∧
    (t.tx.bitIndex ≠ s.tx.bitIndex → i = .init ∨ i = .txtick ∨ ∃ b, i = .txstart b) ∧
    (t.txTimer ≠ s.txTimer → i = .init ∨ i = .txtick ∨ i = .teardown ∨ ∃ b, i = .txstart b) ∧
    (t.rxTimer ≠ s.rxTimer → i = .init ∨ i = .rxedge ∨ i = .rxtick ∨ i = .teardown) ∧
    (t.rx.active ≠ s.rx.active → i = .init ∨ i = .rxedge ∨ i = .rxtick ∨ i = .teardown) ∧
    (t.rx.bitCount ≠ s.rx.bitCount → i = .init ∨ i = .rxedge ∨ i = .rxtick) ∧
    (t.rxEdgePending ≠ s.rxEdgePending → i = .init ∨ i = .rxedge ∨ i = .teardown ∨ ∃ v, i = .line v) ∧
    (t.rxEdgeTime ≠ s.rxEdgeTime → ∃ v, i = .line v) ∧
    (t.fifo.head ≠ s.fifo.head → i = .init ∨ i = .rxtick) ∧
    (t.fifo.tail ≠ s.fifo.tail → i = .init ∨ i = .rxtick ∨ ∃ d, i = .rxpop d) ∧
    (t.dirTx ≠ s.dirTx → i = .init ∨ i = .teardown) ∧
    (t.dirRx ≠ s.dirRx → i = .init ∨ i = .teardown) ∧
    t.now = s.now ∧ t.cfg = s.cfg

/-- R43, R216, R217: no operation takes a fault or a refusal mark back. -/
def Obligations.FaultAndRefusedOnlyGrow : Prop :=
  ∀ (i : Instr) (s t : State), exec i s = .next t →
    (∀ f ∈ s.fault, f ∈ t.fault) ∧ (s.refused = true → t.refused = true)

/-- R43, R218: the history only grows at its end, and the wire trace read off it gains exactly the changes
of `tx_out` that TXTICK makes. -/
def Obligations.HistoryAndWireTraceGrow : Prop :=
  (∀ (i : Instr) (s t : State), exec i s = .next t → ∃ l, t.hist = s.hist ++ l) ∧
  (∀ s t : State, exec .txtick s = .next t →
    wireTrace t.hist = wireTrace s.hist ++ (if t.txOut = s.txOut then [] else [(s.now, t.txOut)]))

/-- R114, R69, R74: when both timers are due, TXTICK and RXTICK commute: either order leaves the same state
and the same records in the history, which differ in their order alone (the line is a field of its own: the
pins are not wired together). -/
def Obligations.TheTwoTimerTicksCommute : Prop :=
  ∀ s t u : State, exec .txtick s = .next t → exec .rxtick t = .next u →
    ∃ t' u', exec .rxtick s = .next t' ∧ exec .txtick t' = .next u' ∧
      u'.hist.Perm u.hist ∧ { u' with hist := u.hist } = u

/-- R166, R157, R220: while a frame is being received no LINE makes an edge pending, and whatever the
operation, the mask is lifted only by the stop check, the RXTICK with all eight bits sampled; it ends the
frame and stops the timer. -/
def Obligations.EdgeInterruptIsOffDuringAFrame : Prop :=
  ∀ s : State, Inv s → s.life = .up → s.fault = [] → s.rx.active = true →
    (∀ (v : Bool) (t : State), exec (.line v) s = .next t → t.rxEdgePending = false) ∧
    (∀ (i : Instr) (t : State), exec i s = .next t → t.rxIrqEn = true →
      i = .rxtick ∧ s.rx.bitCount.val = 8 ∧ t.rx.active = false ∧ t.rxTimer.armed = false) ∧
    (∀ (i : Instr) (t : State), exec i s = .next t → t.life = .up → t.rx.active = false →
      t.rxIrqEn = true)

/-! ### The history -/

/-- R218, R43, R210 to R213: an operation that is taken appends its record, with the time, the agent, the
code, the operand and the result, followed by exactly the events it raises (`eventsOf`): InitFailure by an
INIT that fails, FramingError, or BufferOverrun where the FIFO is full and then FrameOk, by the stop check,
none by any other. One that is not taken (refused, held, not enabled) appends nothing (logs 2, 5, 6). The
agent is the host for a word of format H and the event's own for the four events. The `drive` part of the
record, and that the record stands before its events, are the model's (log 17). -/
def Obligations.EveryOperationAppendsItsRecord : Prop :=
  (∀ (i : Instr) (s t : State), exec i s = .next t →
    (taken i s = true → t.hist = s.hist ++ .op (recordOf i s t) :: (eventsOf i s).map .event) ∧
    (taken i s = false → t.hist = s.hist)) ∧
  (∀ (i : Instr) (s t : State),
    (recordOf i s t).time = s.now ∧ (recordOf i s t).code = encode i ∧
    ((recordOf i s t).agent = .host ↔ ∃ w, encode i = .h w) ∧
    ((recordOf i s t).agent = .txtimer ↔ i = .txtick) ∧
    ((recordOf i s t).agent = .rxedge ↔ i = .rxedge) ∧
    ((recordOf i s t).agent = .rxtimer ↔ i = .rxtick) ∧
    ((recordOf i s t).agent = .env ↔ ∃ v, i = .line v) ∧
    (∀ b, (recordOf (.txstart b) s t).operand = some b) ∧
    (∀ v, (recordOf (.line v) s t).operand = some (if v then 1 else 0)))

/-! ### WRITE -/

/-- R89, R180: a WRITE is TXSTART and TXWAIT for each byte in sequence, and it blocks. The call itself takes
no operation; WRITE [] returns 0 (V-S16). Its next operation is the TXSTART of its next byte, then the
TXWAIT; with the latch set already that completes at once, and the call goes on or returns its count; while it
is held the caller has no step, so no next byte is started. That a running WRITE is a list of calls and takes
its steps at inputs of its own is the model's form (log 29); that one called in DOWN is refused at the call,
and that WRITE [] returns 0 there too, the model's choice (log 30). (`HoldsOk` says that no hold is left
to lift.) -/
def Obligations.WriteStartsAndWaitsForEachByte : Prop :=
  (writeOps [] = [] ∧
    ∀ (b : Byte) (bs : List Byte), writeOps (b :: bs) = .txstart b :: .txwait 0 :: writeOps bs) ∧
  (∀ (s : State) (bs : List Byte) (rest : List Input), HoldsOk s → s.inputs = .write bs :: rest →
    step s = .next (if bs = [] then { s with inputs := rest, returned := s.returned ++ [(s.now, 0)] }
      else if s.life = .up then
        { s with inputs := rest, writes := s.writes ++ [{ left := bs, phase := .start, sent := 0 }] }
      else { s with inputs := rest, refused := true })) ∧
  (∀ (s : State) (k : Nat) (b : Byte) (bs : List Byte) (n : Nat) (rest : List Input),
    s.life = .up → s.inputs = .writer k :: rest →
    (s.writes[k]? = some { left := b :: bs, phase := .start, sent := n } → s.txTimer.armed = false →
      ∃ t, step s = .next t ∧ t.tx.targetByte = b ∧ t.tx.bitIndex.toInt = -1 ∧ t.tx.doneSignal = false ∧
        t.txTimer.armed = true ∧ t.txTimer.deadline = s.now + 1000000000 / s.cfg.baud ∧
        t.fault = s.fault ∧ t.writes = s.writes.set k { left := bs, phase := .wait, sent := n }) ∧
    (s.writes[k]? = some { left := bs, phase := .wait, sent := n } → s.tx.doneSignal = false →
      ∃ t, step s = .next t ∧ t.hReady = false ∧ t.held = s.held ++ [0] ∧ SameTx s t ∧
        t.fault = s.fault ∧ t.writes = s.writes.set k { left := bs, phase := .held, sent := n }) ∧
    (s.writes[k]? = some { left := bs, phase := .wait, sent := n } → s.tx.doneSignal = true → HoldsOk s →
      ∃ t, step s = .next t ∧ t.hReady = true ∧ t.hRdata = some 1 ∧ t.held = [] ∧ SameTx s t ∧
        t.fault = s.fault ∧
        if bs = [] then
          t.writes = s.writes.eraseIdx k ∧ t.returned = s.returned ++ [(s.now, n + 1)]
        else t.writes = s.writes.set k { left := bs, phase := .start, sent := n + 1 } ∧
          t.returned = s.returned) ∧
    (s.writes[k]? = some { left := bs, phase := .held, sent := n } → s.tx.doneSignal = false →
      step s = .next { s with inputs := rest }))

/-- R137, R180, R89: a WRITE that is alone on the write side never overlaps, whatever the other agents do
between its steps: every step, under any input that starts no other byte and no other WRITE, keeps the
precondition of its next TXSTART and records no fault. The call keeps its count of bytes until it returns it,
all of them waited for; the one other end, a refusal in DOWN, is the model's choice (log 30). Under the
premise `SingleWriter` (in the model's form: log 31) the same holds over a run, from its start until the
WRITE ends. -/
def Obligations.LoneWriteNeverOverlaps : Prop :=
  (∀ s t : State, Inv s → WriterAlone s → s.fault = [] →
    (∀ x ∈ s.inputs.head?, x.otherStart = false) → step s = .next t →
      WriterAlone t ∧ t.fault = [] ∧
      ∀ c, s.writes = [c] →
        (∃ c', t.writes = [c'] ∧ c'.total = c.total ∧ t.returned = s.returned) ∨
        (t.writes = [] ∧ t.returned = s.returned ++ [(t.now, c.total)]) ∨
        (t.writes = [] ∧ t.returned = s.returned ∧ t.life = .down ∧ t.refused = true)) ∧
  (∀ (caller : Nat → Nat) (s : State), SingleWriter caller s → Inv s → WriterAlone s → s.fault = [] →
    ∀ (n : Nat) (u : State), stateAt s n = some u →
      (∀ m, m < n → ∀ v, stateAt s m = some v → v.writes ≠ []) →
        WriterAlone u ∧ u.fault = [] ∧
        ∀ c, s.writes = [c] →
          (∃ c', u.writes = [c'] ∧ c'.total = c.total ∧ u.returned = s.returned) ∨
          (u.writes = [] ∧ u.returned = s.returned ++ [(u.now, c.total)]) ∨
          (u.writes = [] ∧ u.returned = s.returned ∧ u.life = .down ∧ u.refused = true))

/-! ### Reception under the premise of timing -/

/-- R251, R246, R162, R163, R166: under `TimingAlignment` the byte of the frame on the line is received, whatever the
other agents do between the samples, as long as the block stays UP: at the stop check the accumulator is the
byte, and after it the byte is the newest unread one and counted. -/
def Obligations.AlignedFrameIsReceived : Prop :=
  ∀ (s : State) (b : Byte) (edge : Nat) (enter : Fin 11 → Nat) (sample : Fin 9 → Nat),
    TimingAlignment s b edge enter sample →
    (∀ u, stateAt s edge = some u → Inv u) →
    (∀ n, n ≤ sample 8 → edge ≤ n → ∃ u, stateAt s n = some u ∧ u.life = .up) →
      ∃ u t, stateAt s (sample 8) = some u ∧ stateAt s (sample 8 + 1) = some t ∧
        u.rx.accumulator = b ∧ u.rx.bitCount.val = 8 ∧
        t.rx.active = false ∧ t.rxIrqEn = true ∧ (unread t).getLast? = some b ∧
        t.cntRxOk = u.cntRxOk + 1 ∧ t.cntRxFerr = u.cntRxFerr

/-! ### The model's own stops -/

/-- R61, R84: the model's own stops, by name (logs 12 and 21). A pop of the slot `tail`, and a push into
the slot `head`, stop where that slot does not exist, and an input under an event code that names nothing
is no step. -/
def Obligations.AbsentSlotAndUnusedCodeStopByName : Prop :=
  (∀ (s : State) (d : Byte), s.life = .up → s.fifo.head ≠ s.fifo.tail →
    s.cfg.capacity ≤ s.fifo.tail → exec (.rxpop d) s = .fault (.slotOutOfRange s.fifo.tail)) ∧
  (∀ s : State, rxTickEnabled s = true → s.rx.bitCount.val = 8 → s.rxIn = true →
    s.cfg.capacity ≤ s.fifo.head → exec .rxtick s = .fault (.slotOutOfRange s.fifo.head)) ∧
  (∀ (s : State) (c : EventCode) (rest : List Input), s.inputs = .event c :: rest →
    EventCode.unused c = true → step s = .refused (.unusedEventCode c))
end

