-- ==== Sys2Proof/Laws/Decode.lean ====
section
/-! SUPPORT. Words of format H by their three fields (spec 30_encoding R83). -/

namespace Sys2Proof

/-- A word is the word of its own fields. -/
theorem hostWord_fields (w : HostWord) :
    w = hostWord (HostWord.isWrite w) (HostWord.addr w) (HostWord.data w) := by
  apply BitVec.eq_of_getLsbD_eq
  intro i hi
  simp only [hostWord, HostWord.isWrite, HostWord.addr, HostWord.data, BitVec.getLsbD_append,
    BitVec.getLsbD_extractLsb', BitVec.getLsbD_ofBool]
  rcases Nat.lt_or_ge i 8 with h8 | h8
  · simp [h8]
  · rcases Nat.lt_or_ge i 11 with h11 | h11
    · have : i - 8 < 3 := by omega
      simp [Nat.not_lt.mpr h8, this, show 8 + (i - 8) = i by omega]
    · have : i = 11 := by omega
      subst this; simp

/-- What holds of every choice of the three fields holds of every word. -/
theorem hostWord_cases (P : HostWord → Prop) (h : ∀ isWrite addr d, P (hostWord isWrite addr d))
    (w : HostWord) : P w := by
  rw [hostWord_fields w]; exact h _ _ _

theorem hostWord_isWrite (b : Bool) (a : BitVec 3) (d : Byte) :
    HostWord.isWrite (hostWord b a d) = b := by
  revert b a d; decide

theorem hostWord_addr (b : Bool) (a : BitVec 3) (d : Byte) : HostWord.addr (hostWord b a d) = a := by
  revert b a d; decide

theorem hostWord_data (b : Bool) (a : BitVec 3) (d : Byte) : HostWord.data (hostWord b a d) = d := by
  revert b a d; decide

end Sys2Proof
end

