-- ==== Sys2Proof/Laws/Memory.lean ====
section
/-! SUPPORT. The laws of the FIFO storage: read after write, and every write keeps the canonical form. -/

namespace Sys2Proof.Machine

/-- The slots of a written storage are its slots before, and perhaps the written one. -/
theorem Memory.slots_write (m : Memory) (i : Nat) (v : Byte) :
    ∀ c ∈ Memory.write m i v, c = (i, v) ∨ c ∈ m := by
  induction m with
  | nil => intro c; unfold Memory.write; split <;> simp
  | cons d m ih =>
    intro c hc
    unfold Memory.write at hc
    split at hc
    · split at hc <;> simp_all
    · split at hc
      · split at hc <;> simp_all
        rcases hc with h | h <;> simp_all
      · rcases List.mem_cons.mp hc with h | h
        · simp [h]
        · rcases ih c h with h | h <;> simp [h]

/-- Reading back the slot just written (no canonical form needed where the slot is new or first; stated
for canonical storage). -/
theorem Memory.read_above (m : Memory) (i : Nat) (h : ∀ c ∈ m, i < c.1) :
    Memory.read m i = Memory.blank := by
  induction m with
  | nil => rfl
  | cons d m ih =>
    have hd := h d (by simp)
    unfold Memory.read
    rw [if_neg (by omega)]
    exact ih fun c hc => h c (by simp [hc])

theorem Memory.wf_tail {d : Host.Cell} {m : Memory} (h : Memory.wf (d :: m)) : Memory.wf m :=
  ⟨(List.pairwise_cons.mp h.1).2, fun c hc => h.2 c (by simp [hc])⟩

theorem Memory.wf_head_lt {d : Host.Cell} {m : Memory} (h : Memory.wf (d :: m)) :
    ∀ c ∈ m, d.1 < c.1 := by
  intro c hc
  exact (List.pairwise_cons.mp h.1).1 c.1 (List.mem_map_of_mem hc)

theorem Memory.wf_cons {d : Host.Cell} {m : Memory} (h : Memory.wf m) (hlt : ∀ c ∈ m, d.1 < c.1)
    (hd : d.2 ≠ Memory.blank) : Memory.wf (d :: m) := by
  refine ⟨?_, ?_⟩
  · rw [List.map_cons, List.pairwise_cons]
    refine ⟨?_, h.1⟩
    intro a ha
    obtain ⟨c, hc, rfl⟩ := List.mem_map.mp ha
    exact hlt c hc
  · intro c hc
    rcases List.mem_cons.mp hc with rfl | hc
    · exact hd
    · exact h.2 c hc

/-- A write keeps the canonical form. -/
theorem Memory.write_wf (m : Memory) (i : Nat) (v : Byte) (h : Memory.wf m) :
    Memory.wf (Memory.write m i v) := by
  induction m with
  | nil =>
    unfold Memory.write
    split
    · exact h
    · exact Memory.wf_cons h (by simp) (by assumption)
  | cons d m ih =>
    have ht := Memory.wf_tail h
    have hlt := Memory.wf_head_lt h
    have hd : d.2 ≠ Memory.blank := h.2 d (by simp)
    unfold Memory.write
    split
    · split
      · exact h
      · refine Memory.wf_cons h ?_ (by assumption)
        intro c hc
        rcases List.mem_cons.mp hc with rfl | hc
        · assumption
        · have := hlt c hc; simp only; omega
    · split
      · subst i
        split
        · exact ht
        · exact Memory.wf_cons ht hlt (by assumption)
      · refine Memory.wf_cons (ih ht) ?_ hd
        intro c hc
        rcases Memory.slots_write m i v c hc with rfl | hc
        · simp only; omega
        · exact hlt c hc

/-- A read of the slot just written gives the byte written. -/
theorem Memory.read_write_same (m : Memory) (i : Nat) (v : Byte) (h : Memory.wf m) :
    Memory.read (Memory.write m i v) i = v := by
  induction m with
  | nil =>
    unfold Memory.write
    split
    · subst v; rfl
    · simp [Memory.read]
  | cons d m ih =>
    have hlt := Memory.wf_head_lt h
    unfold Memory.write
    split
    · split
      · subst v
        refine Memory.read_above _ _ ?_
        intro c hc
        rcases List.mem_cons.mp hc with rfl | hc
        · assumption
        · have := hlt c hc; omega
      · simp [Memory.read]
    · split
      · split
        · subst v; subst i
          exact Memory.read_above _ _ hlt
        · simp [Memory.read]
      · unfold Memory.read
        rw [if_neg (by omega)]
        exact ih (Memory.wf_tail h)

/-- A read of any other slot is as before. -/
theorem Memory.read_write_other (m : Memory) (i j : Nat) (v : Byte) (h : Memory.wf m) (hj : j ≠ i) :
    Memory.read (Memory.write m i v) j = Memory.read m j := by
  induction m with
  | nil =>
    unfold Memory.write
    split
    · rfl
    · simp [Memory.read, Ne.symm hj]
  | cons d m ih =>
    have hlt := Memory.wf_head_lt h
    unfold Memory.write
    split
    · split
      · rfl
      · conv_lhs => unfold Memory.read
        rw [if_neg (by simpa using Ne.symm hj)]
    · split
      · subst i
        split
        · conv_rhs => unfold Memory.read
          rw [if_neg (Ne.symm hj)]
        · conv_lhs => unfold Memory.read
          conv_rhs => unfold Memory.read
          rw [if_neg (by simpa using Ne.symm hj), if_neg (Ne.symm hj)]
      · unfold Memory.read
        split
        · rfl
        · exact ih (Memory.wf_tail h)

end Sys2Proof.Machine
end

