-- ==== Sys2Proof/Laws/State.lean ====
section
/-! SUPPORT. One lemma per field per update of State: what each named update leaves in each field, so that
no later proof unfolds a record update. -/

namespace Sys2Proof.Machine

variable (s : State)

/-! ### `pinDirTxOut` -/

@[simp] theorem pinDirTxOut_cfg : (pinDirTxOut s).cfg = s.cfg := rfl
@[simp] theorem pinDirTxOut_life : (pinDirTxOut s).life = s.life := rfl
@[simp] theorem pinDirTxOut_lastErr : (pinDirTxOut s).lastErr = s.lastErr := rfl
@[simp] theorem pinDirTxOut_tx : (pinDirTxOut s).tx = s.tx := rfl
@[simp] theorem pinDirTxOut_txTimer : (pinDirTxOut s).txTimer = s.txTimer := rfl
@[simp] theorem pinDirTxOut_rx : (pinDirTxOut s).rx = s.rx := rfl
@[simp] theorem pinDirTxOut_rxIrqEn : (pinDirTxOut s).rxIrqEn = s.rxIrqEn := rfl
@[simp] theorem pinDirTxOut_rxEdgePending : (pinDirTxOut s).rxEdgePending = s.rxEdgePending := rfl
@[simp] theorem pinDirTxOut_rxEdgeTime : (pinDirTxOut s).rxEdgeTime = s.rxEdgeTime := rfl
@[simp] theorem pinDirTxOut_rxTimer : (pinDirTxOut s).rxTimer = s.rxTimer := rfl
@[simp] theorem pinDirTxOut_fifo : (pinDirTxOut s).fifo = s.fifo := rfl
@[simp] theorem pinDirTxOut_cntRxOk : (pinDirTxOut s).cntRxOk = s.cntRxOk := rfl
@[simp] theorem pinDirTxOut_cntRxFerr : (pinDirTxOut s).cntRxFerr = s.cntRxFerr := rfl
@[simp] theorem pinDirTxOut_txOut : (pinDirTxOut s).txOut = s.txOut := rfl
@[simp] theorem pinDirTxOut_rxIn : (pinDirTxOut s).rxIn = s.rxIn := rfl
@[simp] theorem pinDirTxOut_dirTx : (pinDirTxOut s).dirTx = .out := rfl
@[simp] theorem pinDirTxOut_dirRx : (pinDirTxOut s).dirRx = s.dirRx := rfl
@[simp] theorem pinDirTxOut_now : (pinDirTxOut s).now = s.now := rfl
@[simp] theorem pinDirTxOut_hist : (pinDirTxOut s).hist = s.hist := rfl
@[simp] theorem pinDirTxOut_fault : (pinDirTxOut s).fault = s.fault := rfl
@[simp] theorem pinDirTxOut_refused : (pinDirTxOut s).refused = s.refused := rfl
@[simp] theorem pinDirTxOut_hReady : (pinDirTxOut s).hReady = s.hReady := rfl
@[simp] theorem pinDirTxOut_hRdata : (pinDirTxOut s).hRdata = s.hRdata := rfl
@[simp] theorem pinDirTxOut_held : (pinDirTxOut s).held = s.held := rfl
@[simp] theorem pinDirTxOut_writes : (pinDirTxOut s).writes = s.writes := rfl
@[simp] theorem pinDirTxOut_returned : (pinDirTxOut s).returned = s.returned := rfl
@[simp] theorem pinDirTxOut_reads : (pinDirTxOut s).reads = s.reads := rfl
@[simp] theorem pinDirTxOut_delivered : (pinDirTxOut s).delivered = s.delivered := rfl
@[simp] theorem pinDirTxOut_initDraw : (pinDirTxOut s).initDraw = s.initDraw := rfl
@[simp] theorem pinDirTxOut_inputs : (pinDirTxOut s).inputs = s.inputs := rfl
@[simp] theorem pinDirTxOut_freeIx : (pinDirTxOut s).freeIx = s.freeIx := rfl

/-! ### `pinDirRxIn` -/

@[simp] theorem pinDirRxIn_cfg : (pinDirRxIn s).cfg = s.cfg := rfl
@[simp] theorem pinDirRxIn_life : (pinDirRxIn s).life = s.life := rfl
@[simp] theorem pinDirRxIn_lastErr : (pinDirRxIn s).lastErr = s.lastErr := rfl
@[simp] theorem pinDirRxIn_tx : (pinDirRxIn s).tx = s.tx := rfl
@[simp] theorem pinDirRxIn_txTimer : (pinDirRxIn s).txTimer = s.txTimer := rfl
@[simp] theorem pinDirRxIn_rx : (pinDirRxIn s).rx = s.rx := rfl
@[simp] theorem pinDirRxIn_rxIrqEn : (pinDirRxIn s).rxIrqEn = s.rxIrqEn := rfl
@[simp] theorem pinDirRxIn_rxEdgePending : (pinDirRxIn s).rxEdgePending = s.rxEdgePending := rfl
@[simp] theorem pinDirRxIn_rxEdgeTime : (pinDirRxIn s).rxEdgeTime = s.rxEdgeTime := rfl
@[simp] theorem pinDirRxIn_rxTimer : (pinDirRxIn s).rxTimer = s.rxTimer := rfl
@[simp] theorem pinDirRxIn_fifo : (pinDirRxIn s).fifo = s.fifo := rfl
@[simp] theorem pinDirRxIn_cntRxOk : (pinDirRxIn s).cntRxOk = s.cntRxOk := rfl
@[simp] theorem pinDirRxIn_cntRxFerr : (pinDirRxIn s).cntRxFerr = s.cntRxFerr := rfl
@[simp] theorem pinDirRxIn_txOut : (pinDirRxIn s).txOut = s.txOut := rfl
@[simp] theorem pinDirRxIn_rxIn : (pinDirRxIn s).rxIn = s.rxIn := rfl
@[simp] theorem pinDirRxIn_dirTx : (pinDirRxIn s).dirTx = s.dirTx := rfl
@[simp] theorem pinDirRxIn_dirRx : (pinDirRxIn s).dirRx = .inp := rfl
@[simp] theorem pinDirRxIn_now : (pinDirRxIn s).now = s.now := rfl
@[simp] theorem pinDirRxIn_hist : (pinDirRxIn s).hist = s.hist := rfl
@[simp] theorem pinDirRxIn_fault : (pinDirRxIn s).fault = s.fault := rfl
@[simp] theorem pinDirRxIn_refused : (pinDirRxIn s).refused = s.refused := rfl
@[simp] theorem pinDirRxIn_hReady : (pinDirRxIn s).hReady = s.hReady := rfl
@[simp] theorem pinDirRxIn_hRdata : (pinDirRxIn s).hRdata = s.hRdata := rfl
@[simp] theorem pinDirRxIn_held : (pinDirRxIn s).held = s.held := rfl
@[simp] theorem pinDirRxIn_writes : (pinDirRxIn s).writes = s.writes := rfl
@[simp] theorem pinDirRxIn_returned : (pinDirRxIn s).returned = s.returned := rfl
@[simp] theorem pinDirRxIn_reads : (pinDirRxIn s).reads = s.reads := rfl
@[simp] theorem pinDirRxIn_delivered : (pinDirRxIn s).delivered = s.delivered := rfl
@[simp] theorem pinDirRxIn_initDraw : (pinDirRxIn s).initDraw = s.initDraw := rfl
@[simp] theorem pinDirRxIn_inputs : (pinDirRxIn s).inputs = s.inputs := rfl
@[simp] theorem pinDirRxIn_freeIx : (pinDirRxIn s).freeIx = s.freeIx := rfl

/-! ### `pinsUnset` -/

@[simp] theorem pinsUnset_cfg : (pinsUnset s).cfg = s.cfg := rfl
@[simp] theorem pinsUnset_life : (pinsUnset s).life = s.life := rfl
@[simp] theorem pinsUnset_lastErr : (pinsUnset s).lastErr = s.lastErr := rfl
@[simp] theorem pinsUnset_tx : (pinsUnset s).tx = s.tx := rfl
@[simp] theorem pinsUnset_txTimer : (pinsUnset s).txTimer = s.txTimer := rfl
@[simp] theorem pinsUnset_rx : (pinsUnset s).rx = s.rx := rfl
@[simp] theorem pinsUnset_rxIrqEn : (pinsUnset s).rxIrqEn = s.rxIrqEn := rfl
@[simp] theorem pinsUnset_rxEdgePending : (pinsUnset s).rxEdgePending = s.rxEdgePending := rfl
@[simp] theorem pinsUnset_rxEdgeTime : (pinsUnset s).rxEdgeTime = s.rxEdgeTime := rfl
@[simp] theorem pinsUnset_rxTimer : (pinsUnset s).rxTimer = s.rxTimer := rfl
@[simp] theorem pinsUnset_fifo : (pinsUnset s).fifo = s.fifo := rfl
@[simp] theorem pinsUnset_cntRxOk : (pinsUnset s).cntRxOk = s.cntRxOk := rfl
@[simp] theorem pinsUnset_cntRxFerr : (pinsUnset s).cntRxFerr = s.cntRxFerr := rfl
@[simp] theorem pinsUnset_txOut : (pinsUnset s).txOut = s.txOut := rfl
@[simp] theorem pinsUnset_rxIn : (pinsUnset s).rxIn = s.rxIn := rfl
@[simp] theorem pinsUnset_dirTx : (pinsUnset s).dirTx = .unset := rfl
@[simp] theorem pinsUnset_dirRx : (pinsUnset s).dirRx = .unset := rfl
@[simp] theorem pinsUnset_now : (pinsUnset s).now = s.now := rfl
@[simp] theorem pinsUnset_hist : (pinsUnset s).hist = s.hist := rfl
@[simp] theorem pinsUnset_fault : (pinsUnset s).fault = s.fault := rfl
@[simp] theorem pinsUnset_refused : (pinsUnset s).refused = s.refused := rfl
@[simp] theorem pinsUnset_hReady : (pinsUnset s).hReady = s.hReady := rfl
@[simp] theorem pinsUnset_hRdata : (pinsUnset s).hRdata = s.hRdata := rfl
@[simp] theorem pinsUnset_held : (pinsUnset s).held = s.held := rfl
@[simp] theorem pinsUnset_writes : (pinsUnset s).writes = s.writes := rfl
@[simp] theorem pinsUnset_returned : (pinsUnset s).returned = s.returned := rfl
@[simp] theorem pinsUnset_reads : (pinsUnset s).reads = s.reads := rfl
@[simp] theorem pinsUnset_delivered : (pinsUnset s).delivered = s.delivered := rfl
@[simp] theorem pinsUnset_initDraw : (pinsUnset s).initDraw = s.initDraw := rfl
@[simp] theorem pinsUnset_inputs : (pinsUnset s).inputs = s.inputs := rfl
@[simp] theorem pinsUnset_freeIx : (pinsUnset s).freeIx = s.freeIx := rfl

/-! ### `pinSet` -/

@[simp] theorem pinSet_cfg : (pinSet s).cfg = s.cfg := rfl
@[simp] theorem pinSet_life : (pinSet s).life = s.life := rfl
@[simp] theorem pinSet_lastErr : (pinSet s).lastErr = s.lastErr := rfl
@[simp] theorem pinSet_tx : (pinSet s).tx = s.tx := rfl
@[simp] theorem pinSet_txTimer : (pinSet s).txTimer = s.txTimer := rfl
@[simp] theorem pinSet_rx : (pinSet s).rx = s.rx := rfl
@[simp] theorem pinSet_rxIrqEn : (pinSet s).rxIrqEn = s.rxIrqEn := rfl
@[simp] theorem pinSet_rxEdgePending : (pinSet s).rxEdgePending = s.rxEdgePending := rfl
@[simp] theorem pinSet_rxEdgeTime : (pinSet s).rxEdgeTime = s.rxEdgeTime := rfl
@[simp] theorem pinSet_rxTimer : (pinSet s).rxTimer = s.rxTimer := rfl
@[simp] theorem pinSet_fifo : (pinSet s).fifo = s.fifo := rfl
@[simp] theorem pinSet_cntRxOk : (pinSet s).cntRxOk = s.cntRxOk := rfl
@[simp] theorem pinSet_cntRxFerr : (pinSet s).cntRxFerr = s.cntRxFerr := rfl
@[simp] theorem pinSet_txOut : (pinSet s).txOut = true := rfl
@[simp] theorem pinSet_rxIn : (pinSet s).rxIn = s.rxIn := rfl
@[simp] theorem pinSet_dirTx : (pinSet s).dirTx = s.dirTx := rfl
@[simp] theorem pinSet_dirRx : (pinSet s).dirRx = s.dirRx := rfl
@[simp] theorem pinSet_now : (pinSet s).now = s.now := rfl
@[simp] theorem pinSet_hist : (pinSet s).hist = s.hist := rfl
@[simp] theorem pinSet_fault : (pinSet s).fault = s.fault := rfl
@[simp] theorem pinSet_refused : (pinSet s).refused = s.refused := rfl
@[simp] theorem pinSet_hReady : (pinSet s).hReady = s.hReady := rfl
@[simp] theorem pinSet_hRdata : (pinSet s).hRdata = s.hRdata := rfl
@[simp] theorem pinSet_held : (pinSet s).held = s.held := rfl
@[simp] theorem pinSet_writes : (pinSet s).writes = s.writes := rfl
@[simp] theorem pinSet_returned : (pinSet s).returned = s.returned := rfl
@[simp] theorem pinSet_reads : (pinSet s).reads = s.reads := rfl
@[simp] theorem pinSet_delivered : (pinSet s).delivered = s.delivered := rfl
@[simp] theorem pinSet_initDraw : (pinSet s).initDraw = s.initDraw := rfl
@[simp] theorem pinSet_inputs : (pinSet s).inputs = s.inputs := rfl
@[simp] theorem pinSet_freeIx : (pinSet s).freeIx = s.freeIx := rfl

/-! ### `pinClear` -/

@[simp] theorem pinClear_cfg : (pinClear s).cfg = s.cfg := rfl
@[simp] theorem pinClear_life : (pinClear s).life = s.life := rfl
@[simp] theorem pinClear_lastErr : (pinClear s).lastErr = s.lastErr := rfl
@[simp] theorem pinClear_tx : (pinClear s).tx = s.tx := rfl
@[simp] theorem pinClear_txTimer : (pinClear s).txTimer = s.txTimer := rfl
@[simp] theorem pinClear_rx : (pinClear s).rx = s.rx := rfl
@[simp] theorem pinClear_rxIrqEn : (pinClear s).rxIrqEn = s.rxIrqEn := rfl
@[simp] theorem pinClear_rxEdgePending : (pinClear s).rxEdgePending = s.rxEdgePending := rfl
@[simp] theorem pinClear_rxEdgeTime : (pinClear s).rxEdgeTime = s.rxEdgeTime := rfl
@[simp] theorem pinClear_rxTimer : (pinClear s).rxTimer = s.rxTimer := rfl
@[simp] theorem pinClear_fifo : (pinClear s).fifo = s.fifo := rfl
@[simp] theorem pinClear_cntRxOk : (pinClear s).cntRxOk = s.cntRxOk := rfl
@[simp] theorem pinClear_cntRxFerr : (pinClear s).cntRxFerr = s.cntRxFerr := rfl
@[simp] theorem pinClear_txOut : (pinClear s).txOut = false := rfl
@[simp] theorem pinClear_rxIn : (pinClear s).rxIn = s.rxIn := rfl
@[simp] theorem pinClear_dirTx : (pinClear s).dirTx = s.dirTx := rfl
@[simp] theorem pinClear_dirRx : (pinClear s).dirRx = s.dirRx := rfl
@[simp] theorem pinClear_now : (pinClear s).now = s.now := rfl
@[simp] theorem pinClear_hist : (pinClear s).hist = s.hist := rfl
@[simp] theorem pinClear_fault : (pinClear s).fault = s.fault := rfl
@[simp] theorem pinClear_refused : (pinClear s).refused = s.refused := rfl
@[simp] theorem pinClear_hReady : (pinClear s).hReady = s.hReady := rfl
@[simp] theorem pinClear_hRdata : (pinClear s).hRdata = s.hRdata := rfl
@[simp] theorem pinClear_held : (pinClear s).held = s.held := rfl
@[simp] theorem pinClear_writes : (pinClear s).writes = s.writes := rfl
@[simp] theorem pinClear_returned : (pinClear s).returned = s.returned := rfl
@[simp] theorem pinClear_reads : (pinClear s).reads = s.reads := rfl
@[simp] theorem pinClear_delivered : (pinClear s).delivered = s.delivered := rfl
@[simp] theorem pinClear_initDraw : (pinClear s).initDraw = s.initDraw := rfl
@[simp] theorem pinClear_inputs : (pinClear s).inputs = s.inputs := rfl
@[simp] theorem pinClear_freeIx : (pinClear s).freeIx = s.freeIx := rfl

/-! ### `pinPut` -/

@[simp] theorem pinPut_cfg (v : Bool) : (pinPut v s).cfg = s.cfg := rfl
@[simp] theorem pinPut_life (v : Bool) : (pinPut v s).life = s.life := rfl
@[simp] theorem pinPut_lastErr (v : Bool) : (pinPut v s).lastErr = s.lastErr := rfl
@[simp] theorem pinPut_tx (v : Bool) : (pinPut v s).tx = s.tx := rfl
@[simp] theorem pinPut_txTimer (v : Bool) : (pinPut v s).txTimer = s.txTimer := rfl
@[simp] theorem pinPut_rx (v : Bool) : (pinPut v s).rx = s.rx := rfl
@[simp] theorem pinPut_rxIrqEn (v : Bool) : (pinPut v s).rxIrqEn = s.rxIrqEn := rfl
@[simp] theorem pinPut_rxEdgePending (v : Bool) : (pinPut v s).rxEdgePending = s.rxEdgePending := rfl
@[simp] theorem pinPut_rxEdgeTime (v : Bool) : (pinPut v s).rxEdgeTime = s.rxEdgeTime := rfl
@[simp] theorem pinPut_rxTimer (v : Bool) : (pinPut v s).rxTimer = s.rxTimer := rfl
@[simp] theorem pinPut_fifo (v : Bool) : (pinPut v s).fifo = s.fifo := rfl
@[simp] theorem pinPut_cntRxOk (v : Bool) : (pinPut v s).cntRxOk = s.cntRxOk := rfl
@[simp] theorem pinPut_cntRxFerr (v : Bool) : (pinPut v s).cntRxFerr = s.cntRxFerr := rfl
@[simp] theorem pinPut_txOut (v : Bool) : (pinPut v s).txOut = v := rfl
@[simp] theorem pinPut_rxIn (v : Bool) : (pinPut v s).rxIn = s.rxIn := rfl
@[simp] theorem pinPut_dirTx (v : Bool) : (pinPut v s).dirTx = s.dirTx := rfl
@[simp] theorem pinPut_dirRx (v : Bool) : (pinPut v s).dirRx = s.dirRx := rfl
@[simp] theorem pinPut_now (v : Bool) : (pinPut v s).now = s.now := rfl
@[simp] theorem pinPut_hist (v : Bool) : (pinPut v s).hist = s.hist := rfl
@[simp] theorem pinPut_fault (v : Bool) : (pinPut v s).fault = s.fault := rfl
@[simp] theorem pinPut_refused (v : Bool) : (pinPut v s).refused = s.refused := rfl
@[simp] theorem pinPut_hReady (v : Bool) : (pinPut v s).hReady = s.hReady := rfl
@[simp] theorem pinPut_hRdata (v : Bool) : (pinPut v s).hRdata = s.hRdata := rfl
@[simp] theorem pinPut_held (v : Bool) : (pinPut v s).held = s.held := rfl
@[simp] theorem pinPut_writes (v : Bool) : (pinPut v s).writes = s.writes := rfl
@[simp] theorem pinPut_returned (v : Bool) : (pinPut v s).returned = s.returned := rfl
@[simp] theorem pinPut_reads (v : Bool) : (pinPut v s).reads = s.reads := rfl
@[simp] theorem pinPut_delivered (v : Bool) : (pinPut v s).delivered = s.delivered := rfl
@[simp] theorem pinPut_initDraw (v : Bool) : (pinPut v s).initDraw = s.initDraw := rfl
@[simp] theorem pinPut_inputs (v : Bool) : (pinPut v s).inputs = s.inputs := rfl
@[simp] theorem pinPut_freeIx (v : Bool) : (pinPut v s).freeIx = s.freeIx := rfl

/-! ### `logOp` -/

@[simp] theorem logOp_cfg (i : Instr) (r : Option Word) (v : Option Bool) : (logOp i r v s).cfg = s.cfg := rfl
@[simp] theorem logOp_life (i : Instr) (r : Option Word) (v : Option Bool) : (logOp i r v s).life = s.life := rfl
@[simp] theorem logOp_lastErr (i : Instr) (r : Option Word) (v : Option Bool) : (logOp i r v s).lastErr = s.lastErr := rfl
@[simp] theorem logOp_tx (i : Instr) (r : Option Word) (v : Option Bool) : (logOp i r v s).tx = s.tx := rfl
@[simp] theorem logOp_txTimer (i : Instr) (r : Option Word) (v : Option Bool) : (logOp i r v s).txTimer = s.txTimer := rfl
@[simp] theorem logOp_rx (i : Instr) (r : Option Word) (v : Option Bool) : (logOp i r v s).rx = s.rx := rfl
@[simp] theorem logOp_rxIrqEn (i : Instr) (r : Option Word) (v : Option Bool) : (logOp i r v s).rxIrqEn = s.rxIrqEn := rfl
@[simp] theorem logOp_rxEdgePending (i : Instr) (r : Option Word) (v : Option Bool) : (logOp i r v s).rxEdgePending = s.rxEdgePending := rfl
@[simp] theorem logOp_rxEdgeTime (i : Instr) (r : Option Word) (v : Option Bool) : (logOp i r v s).rxEdgeTime = s.rxEdgeTime := rfl
@[simp] theorem logOp_rxTimer (i : Instr) (r : Option Word) (v : Option Bool) : (logOp i r v s).rxTimer = s.rxTimer := rfl
@[simp] theorem logOp_fifo (i : Instr) (r : Option Word) (v : Option Bool) : (logOp i r v s).fifo = s.fifo := rfl
@[simp] theorem logOp_cntRxOk (i : Instr) (r : Option Word) (v : Option Bool) : (logOp i r v s).cntRxOk = s.cntRxOk := rfl
@[simp] theorem logOp_cntRxFerr (i : Instr) (r : Option Word) (v : Option Bool) : (logOp i r v s).cntRxFerr = s.cntRxFerr := rfl
@[simp] theorem logOp_txOut (i : Instr) (r : Option Word) (v : Option Bool) : (logOp i r v s).txOut = s.txOut := rfl
@[simp] theorem logOp_rxIn (i : Instr) (r : Option Word) (v : Option Bool) : (logOp i r v s).rxIn = s.rxIn := rfl
@[simp] theorem logOp_dirTx (i : Instr) (r : Option Word) (v : Option Bool) : (logOp i r v s).dirTx = s.dirTx := rfl
@[simp] theorem logOp_dirRx (i : Instr) (r : Option Word) (v : Option Bool) : (logOp i r v s).dirRx = s.dirRx := rfl
@[simp] theorem logOp_now (i : Instr) (r : Option Word) (v : Option Bool) : (logOp i r v s).now = s.now := rfl
@[simp] theorem logOp_hist (i : Instr) (r : Option Word) (v : Option Bool) : (logOp i r v s).hist = s.hist ++ [.op ⟨s.now, agentOf i, encode i, operandOf i, r, v⟩] := rfl
@[simp] theorem logOp_fault (i : Instr) (r : Option Word) (v : Option Bool) : (logOp i r v s).fault = s.fault := rfl
@[simp] theorem logOp_refused (i : Instr) (r : Option Word) (v : Option Bool) : (logOp i r v s).refused = s.refused := rfl
@[simp] theorem logOp_hReady (i : Instr) (r : Option Word) (v : Option Bool) : (logOp i r v s).hReady = s.hReady := rfl
@[simp] theorem logOp_hRdata (i : Instr) (r : Option Word) (v : Option Bool) : (logOp i r v s).hRdata = s.hRdata := rfl
@[simp] theorem logOp_held (i : Instr) (r : Option Word) (v : Option Bool) : (logOp i r v s).held = s.held := rfl
@[simp] theorem logOp_writes (i : Instr) (r : Option Word) (v : Option Bool) : (logOp i r v s).writes = s.writes := rfl
@[simp] theorem logOp_returned (i : Instr) (r : Option Word) (v : Option Bool) : (logOp i r v s).returned = s.returned := rfl
@[simp] theorem logOp_reads (i : Instr) (r : Option Word) (v : Option Bool) : (logOp i r v s).reads = s.reads := rfl
@[simp] theorem logOp_delivered (i : Instr) (r : Option Word) (v : Option Bool) : (logOp i r v s).delivered = s.delivered := rfl
@[simp] theorem logOp_initDraw (i : Instr) (r : Option Word) (v : Option Bool) : (logOp i r v s).initDraw = s.initDraw := rfl
@[simp] theorem logOp_inputs (i : Instr) (r : Option Word) (v : Option Bool) : (logOp i r v s).inputs = s.inputs := rfl
@[simp] theorem logOp_freeIx (i : Instr) (r : Option Word) (v : Option Bool) : (logOp i r v s).freeIx = s.freeIx := rfl

/-! ### `recordEvent` -/

@[simp] theorem recordEvent_cfg (e : Event) : (recordEvent e s).cfg = s.cfg := rfl
@[simp] theorem recordEvent_life (e : Event) : (recordEvent e s).life = s.life := rfl
@[simp] theorem recordEvent_lastErr (e : Event) : (recordEvent e s).lastErr = s.lastErr := rfl
@[simp] theorem recordEvent_tx (e : Event) : (recordEvent e s).tx = s.tx := rfl
@[simp] theorem recordEvent_txTimer (e : Event) : (recordEvent e s).txTimer = s.txTimer := rfl
@[simp] theorem recordEvent_rx (e : Event) : (recordEvent e s).rx = s.rx := rfl
@[simp] theorem recordEvent_rxIrqEn (e : Event) : (recordEvent e s).rxIrqEn = s.rxIrqEn := rfl
@[simp] theorem recordEvent_rxEdgePending (e : Event) : (recordEvent e s).rxEdgePending = s.rxEdgePending := rfl
@[simp] theorem recordEvent_rxEdgeTime (e : Event) : (recordEvent e s).rxEdgeTime = s.rxEdgeTime := rfl
@[simp] theorem recordEvent_rxTimer (e : Event) : (recordEvent e s).rxTimer = s.rxTimer := rfl
@[simp] theorem recordEvent_fifo (e : Event) : (recordEvent e s).fifo = s.fifo := rfl
@[simp] theorem recordEvent_cntRxOk (e : Event) : (recordEvent e s).cntRxOk = s.cntRxOk := rfl
@[simp] theorem recordEvent_cntRxFerr (e : Event) : (recordEvent e s).cntRxFerr = s.cntRxFerr := rfl
@[simp] theorem recordEvent_txOut (e : Event) : (recordEvent e s).txOut = s.txOut := rfl
@[simp] theorem recordEvent_rxIn (e : Event) : (recordEvent e s).rxIn = s.rxIn := rfl
@[simp] theorem recordEvent_dirTx (e : Event) : (recordEvent e s).dirTx = s.dirTx := rfl
@[simp] theorem recordEvent_dirRx (e : Event) : (recordEvent e s).dirRx = s.dirRx := rfl
@[simp] theorem recordEvent_now (e : Event) : (recordEvent e s).now = s.now := rfl
@[simp] theorem recordEvent_hist (e : Event) : (recordEvent e s).hist = s.hist ++ [.event e] := rfl
@[simp] theorem recordEvent_fault (e : Event) : (recordEvent e s).fault = s.fault := rfl
@[simp] theorem recordEvent_refused (e : Event) : (recordEvent e s).refused = s.refused := rfl
@[simp] theorem recordEvent_hReady (e : Event) : (recordEvent e s).hReady = s.hReady := rfl
@[simp] theorem recordEvent_hRdata (e : Event) : (recordEvent e s).hRdata = s.hRdata := rfl
@[simp] theorem recordEvent_held (e : Event) : (recordEvent e s).held = s.held := rfl
@[simp] theorem recordEvent_writes (e : Event) : (recordEvent e s).writes = s.writes := rfl
@[simp] theorem recordEvent_returned (e : Event) : (recordEvent e s).returned = s.returned := rfl
@[simp] theorem recordEvent_reads (e : Event) : (recordEvent e s).reads = s.reads := rfl
@[simp] theorem recordEvent_delivered (e : Event) : (recordEvent e s).delivered = s.delivered := rfl
@[simp] theorem recordEvent_initDraw (e : Event) : (recordEvent e s).initDraw = s.initDraw := rfl
@[simp] theorem recordEvent_inputs (e : Event) : (recordEvent e s).inputs = s.inputs := rfl
@[simp] theorem recordEvent_freeIx (e : Event) : (recordEvent e s).freeIx = s.freeIx := rfl

/-! ### `raiseEvent` -/

@[simp] theorem raiseEvent_cfg (e : Event) : (raiseEvent e s).cfg = s.cfg := rfl
@[simp] theorem raiseEvent_life (e : Event) : (raiseEvent e s).life = s.life := rfl
@[simp] theorem raiseEvent_lastErr (e : Event) : (raiseEvent e s).lastErr = s.lastErr := rfl
@[simp] theorem raiseEvent_tx (e : Event) : (raiseEvent e s).tx = s.tx := rfl
@[simp] theorem raiseEvent_txTimer (e : Event) : (raiseEvent e s).txTimer = s.txTimer := rfl
@[simp] theorem raiseEvent_rx (e : Event) : (raiseEvent e s).rx = s.rx := rfl
@[simp] theorem raiseEvent_rxIrqEn (e : Event) : (raiseEvent e s).rxIrqEn = s.rxIrqEn := rfl
@[simp] theorem raiseEvent_rxEdgePending (e : Event) : (raiseEvent e s).rxEdgePending = s.rxEdgePending := rfl
@[simp] theorem raiseEvent_rxEdgeTime (e : Event) : (raiseEvent e s).rxEdgeTime = s.rxEdgeTime := rfl
@[simp] theorem raiseEvent_rxTimer (e : Event) : (raiseEvent e s).rxTimer = s.rxTimer := rfl
@[simp] theorem raiseEvent_fifo (e : Event) : (raiseEvent e s).fifo = s.fifo := rfl
@[simp] theorem raiseEvent_cntRxOk (e : Event) : (raiseEvent e s).cntRxOk = s.cntRxOk := rfl
@[simp] theorem raiseEvent_cntRxFerr (e : Event) : (raiseEvent e s).cntRxFerr = ferrAfter e s.cntRxFerr := rfl
@[simp] theorem raiseEvent_txOut (e : Event) : (raiseEvent e s).txOut = s.txOut := rfl
@[simp] theorem raiseEvent_rxIn (e : Event) : (raiseEvent e s).rxIn = s.rxIn := rfl
@[simp] theorem raiseEvent_dirTx (e : Event) : (raiseEvent e s).dirTx = s.dirTx := rfl
@[simp] theorem raiseEvent_dirRx (e : Event) : (raiseEvent e s).dirRx = s.dirRx := rfl
@[simp] theorem raiseEvent_now (e : Event) : (raiseEvent e s).now = s.now := rfl
@[simp] theorem raiseEvent_hist (e : Event) : (raiseEvent e s).hist = s.hist ++ [.event e] := rfl
@[simp] theorem raiseEvent_fault (e : Event) : (raiseEvent e s).fault = s.fault := rfl
@[simp] theorem raiseEvent_refused (e : Event) : (raiseEvent e s).refused = s.refused := rfl
@[simp] theorem raiseEvent_hReady (e : Event) : (raiseEvent e s).hReady = s.hReady := rfl
@[simp] theorem raiseEvent_hRdata (e : Event) : (raiseEvent e s).hRdata = s.hRdata := rfl
@[simp] theorem raiseEvent_held (e : Event) : (raiseEvent e s).held = s.held := rfl
@[simp] theorem raiseEvent_writes (e : Event) : (raiseEvent e s).writes = s.writes := rfl
@[simp] theorem raiseEvent_returned (e : Event) : (raiseEvent e s).returned = s.returned := rfl
@[simp] theorem raiseEvent_reads (e : Event) : (raiseEvent e s).reads = s.reads := rfl
@[simp] theorem raiseEvent_delivered (e : Event) : (raiseEvent e s).delivered = s.delivered := rfl
@[simp] theorem raiseEvent_initDraw (e : Event) : (raiseEvent e s).initDraw = s.initDraw := rfl
@[simp] theorem raiseEvent_inputs (e : Event) : (raiseEvent e s).inputs = s.inputs := rfl
@[simp] theorem raiseEvent_freeIx (e : Event) : (raiseEvent e s).freeIx = s.freeIx := rfl

/-! ### `recordFault` -/

@[simp] theorem recordFault_cfg (f : FaultName) : (recordFault f s).cfg = s.cfg := rfl
@[simp] theorem recordFault_life (f : FaultName) : (recordFault f s).life = s.life := rfl
@[simp] theorem recordFault_lastErr (f : FaultName) : (recordFault f s).lastErr = s.lastErr := rfl
@[simp] theorem recordFault_tx (f : FaultName) : (recordFault f s).tx = s.tx := rfl
@[simp] theorem recordFault_txTimer (f : FaultName) : (recordFault f s).txTimer = s.txTimer := rfl
@[simp] theorem recordFault_rx (f : FaultName) : (recordFault f s).rx = s.rx := rfl
@[simp] theorem recordFault_rxIrqEn (f : FaultName) : (recordFault f s).rxIrqEn = s.rxIrqEn := rfl
@[simp] theorem recordFault_rxEdgePending (f : FaultName) : (recordFault f s).rxEdgePending = s.rxEdgePending := rfl
@[simp] theorem recordFault_rxEdgeTime (f : FaultName) : (recordFault f s).rxEdgeTime = s.rxEdgeTime := rfl
@[simp] theorem recordFault_rxTimer (f : FaultName) : (recordFault f s).rxTimer = s.rxTimer := rfl
@[simp] theorem recordFault_fifo (f : FaultName) : (recordFault f s).fifo = s.fifo := rfl
@[simp] theorem recordFault_cntRxOk (f : FaultName) : (recordFault f s).cntRxOk = s.cntRxOk := rfl
@[simp] theorem recordFault_cntRxFerr (f : FaultName) : (recordFault f s).cntRxFerr = s.cntRxFerr := rfl
@[simp] theorem recordFault_txOut (f : FaultName) : (recordFault f s).txOut = s.txOut := rfl
@[simp] theorem recordFault_rxIn (f : FaultName) : (recordFault f s).rxIn = s.rxIn := rfl
@[simp] theorem recordFault_dirTx (f : FaultName) : (recordFault f s).dirTx = s.dirTx := rfl
@[simp] theorem recordFault_dirRx (f : FaultName) : (recordFault f s).dirRx = s.dirRx := rfl
@[simp] theorem recordFault_now (f : FaultName) : (recordFault f s).now = s.now := rfl
@[simp] theorem recordFault_hist (f : FaultName) : (recordFault f s).hist = s.hist := rfl
@[simp] theorem recordFault_fault (f : FaultName) : (recordFault f s).fault = if f ∈ s.fault then s.fault else s.fault ++ [f] := rfl
@[simp] theorem recordFault_refused (f : FaultName) : (recordFault f s).refused = s.refused := rfl
@[simp] theorem recordFault_hReady (f : FaultName) : (recordFault f s).hReady = s.hReady := rfl
@[simp] theorem recordFault_hRdata (f : FaultName) : (recordFault f s).hRdata = s.hRdata := rfl
@[simp] theorem recordFault_held (f : FaultName) : (recordFault f s).held = s.held := rfl
@[simp] theorem recordFault_writes (f : FaultName) : (recordFault f s).writes = s.writes := rfl
@[simp] theorem recordFault_returned (f : FaultName) : (recordFault f s).returned = s.returned := rfl
@[simp] theorem recordFault_reads (f : FaultName) : (recordFault f s).reads = s.reads := rfl
@[simp] theorem recordFault_delivered (f : FaultName) : (recordFault f s).delivered = s.delivered := rfl
@[simp] theorem recordFault_initDraw (f : FaultName) : (recordFault f s).initDraw = s.initDraw := rfl
@[simp] theorem recordFault_inputs (f : FaultName) : (recordFault f s).inputs = s.inputs := rfl
@[simp] theorem recordFault_freeIx (f : FaultName) : (recordFault f s).freeIx = s.freeIx := rfl

/-! ### `respond` -/

@[simp] theorem respond_cfg (r : Option Word) : (respond r s).cfg = s.cfg := rfl
@[simp] theorem respond_life (r : Option Word) : (respond r s).life = s.life := rfl
@[simp] theorem respond_lastErr (r : Option Word) : (respond r s).lastErr = s.lastErr := rfl
@[simp] theorem respond_tx (r : Option Word) : (respond r s).tx = s.tx := rfl
@[simp] theorem respond_txTimer (r : Option Word) : (respond r s).txTimer = s.txTimer := rfl
@[simp] theorem respond_rx (r : Option Word) : (respond r s).rx = s.rx := rfl
@[simp] theorem respond_rxIrqEn (r : Option Word) : (respond r s).rxIrqEn = s.rxIrqEn := rfl
@[simp] theorem respond_rxEdgePending (r : Option Word) : (respond r s).rxEdgePending = s.rxEdgePending := rfl
@[simp] theorem respond_rxEdgeTime (r : Option Word) : (respond r s).rxEdgeTime = s.rxEdgeTime := rfl
@[simp] theorem respond_rxTimer (r : Option Word) : (respond r s).rxTimer = s.rxTimer := rfl
@[simp] theorem respond_fifo (r : Option Word) : (respond r s).fifo = s.fifo := rfl
@[simp] theorem respond_cntRxOk (r : Option Word) : (respond r s).cntRxOk = s.cntRxOk := rfl
@[simp] theorem respond_cntRxFerr (r : Option Word) : (respond r s).cntRxFerr = s.cntRxFerr := rfl
@[simp] theorem respond_txOut (r : Option Word) : (respond r s).txOut = s.txOut := rfl
@[simp] theorem respond_rxIn (r : Option Word) : (respond r s).rxIn = s.rxIn := rfl
@[simp] theorem respond_dirTx (r : Option Word) : (respond r s).dirTx = s.dirTx := rfl
@[simp] theorem respond_dirRx (r : Option Word) : (respond r s).dirRx = s.dirRx := rfl
@[simp] theorem respond_now (r : Option Word) : (respond r s).now = s.now := rfl
@[simp] theorem respond_hist (r : Option Word) : (respond r s).hist = s.hist := rfl
@[simp] theorem respond_fault (r : Option Word) : (respond r s).fault = s.fault := rfl
@[simp] theorem respond_refused (r : Option Word) : (respond r s).refused = s.refused := rfl
@[simp] theorem respond_hReady (r : Option Word) : (respond r s).hReady = true := rfl
@[simp] theorem respond_hRdata (r : Option Word) : (respond r s).hRdata = r := rfl
@[simp] theorem respond_held (r : Option Word) : (respond r s).held = s.held := rfl
@[simp] theorem respond_writes (r : Option Word) : (respond r s).writes = s.writes := rfl
@[simp] theorem respond_returned (r : Option Word) : (respond r s).returned = s.returned := rfl
@[simp] theorem respond_reads (r : Option Word) : (respond r s).reads = s.reads := rfl
@[simp] theorem respond_delivered (r : Option Word) : (respond r s).delivered = s.delivered := rfl
@[simp] theorem respond_initDraw (r : Option Word) : (respond r s).initDraw = s.initDraw := rfl
@[simp] theorem respond_inputs (r : Option Word) : (respond r s).inputs = s.inputs := rfl
@[simp] theorem respond_freeIx (r : Option Word) : (respond r s).freeIx = s.freeIx := rfl

/-! ### `hostDone` -/

@[simp] theorem hostDone_cfg (i : Instr) (r : Option Word) : (hostDone i r s).cfg = s.cfg := rfl
@[simp] theorem hostDone_life (i : Instr) (r : Option Word) : (hostDone i r s).life = s.life := rfl
@[simp] theorem hostDone_lastErr (i : Instr) (r : Option Word) : (hostDone i r s).lastErr = s.lastErr := rfl
@[simp] theorem hostDone_tx (i : Instr) (r : Option Word) : (hostDone i r s).tx = s.tx := rfl
@[simp] theorem hostDone_txTimer (i : Instr) (r : Option Word) : (hostDone i r s).txTimer = s.txTimer := rfl
@[simp] theorem hostDone_rx (i : Instr) (r : Option Word) : (hostDone i r s).rx = s.rx := rfl
@[simp] theorem hostDone_rxIrqEn (i : Instr) (r : Option Word) : (hostDone i r s).rxIrqEn = s.rxIrqEn := rfl
@[simp] theorem hostDone_rxEdgePending (i : Instr) (r : Option Word) : (hostDone i r s).rxEdgePending = s.rxEdgePending := rfl
@[simp] theorem hostDone_rxEdgeTime (i : Instr) (r : Option Word) : (hostDone i r s).rxEdgeTime = s.rxEdgeTime := rfl
@[simp] theorem hostDone_rxTimer (i : Instr) (r : Option Word) : (hostDone i r s).rxTimer = s.rxTimer := rfl
@[simp] theorem hostDone_fifo (i : Instr) (r : Option Word) : (hostDone i r s).fifo = s.fifo := rfl
@[simp] theorem hostDone_cntRxOk (i : Instr) (r : Option Word) : (hostDone i r s).cntRxOk = s.cntRxOk := rfl
@[simp] theorem hostDone_cntRxFerr (i : Instr) (r : Option Word) : (hostDone i r s).cntRxFerr = s.cntRxFerr := rfl
@[simp] theorem hostDone_txOut (i : Instr) (r : Option Word) : (hostDone i r s).txOut = s.txOut := rfl
@[simp] theorem hostDone_rxIn (i : Instr) (r : Option Word) : (hostDone i r s).rxIn = s.rxIn := rfl
@[simp] theorem hostDone_dirTx (i : Instr) (r : Option Word) : (hostDone i r s).dirTx = s.dirTx := rfl
@[simp] theorem hostDone_dirRx (i : Instr) (r : Option Word) : (hostDone i r s).dirRx = s.dirRx := rfl
@[simp] theorem hostDone_now (i : Instr) (r : Option Word) : (hostDone i r s).now = s.now := rfl
@[simp] theorem hostDone_hist (i : Instr) (r : Option Word) : (hostDone i r s).hist = s.hist ++ [.op ⟨s.now, agentOf i, encode i, operandOf i, r, none⟩] := rfl
@[simp] theorem hostDone_fault (i : Instr) (r : Option Word) : (hostDone i r s).fault = s.fault := rfl
@[simp] theorem hostDone_refused (i : Instr) (r : Option Word) : (hostDone i r s).refused = s.refused := rfl
@[simp] theorem hostDone_hReady (i : Instr) (r : Option Word) : (hostDone i r s).hReady = true := rfl
@[simp] theorem hostDone_hRdata (i : Instr) (r : Option Word) : (hostDone i r s).hRdata = r := rfl
@[simp] theorem hostDone_held (i : Instr) (r : Option Word) : (hostDone i r s).held = s.held := rfl
@[simp] theorem hostDone_writes (i : Instr) (r : Option Word) : (hostDone i r s).writes = s.writes := rfl
@[simp] theorem hostDone_returned (i : Instr) (r : Option Word) : (hostDone i r s).returned = s.returned := rfl
@[simp] theorem hostDone_reads (i : Instr) (r : Option Word) : (hostDone i r s).reads = s.reads := rfl
@[simp] theorem hostDone_delivered (i : Instr) (r : Option Word) : (hostDone i r s).delivered = s.delivered := rfl
@[simp] theorem hostDone_initDraw (i : Instr) (r : Option Word) : (hostDone i r s).initDraw = s.initDraw := rfl
@[simp] theorem hostDone_inputs (i : Instr) (r : Option Word) : (hostDone i r s).inputs = s.inputs := rfl
@[simp] theorem hostDone_freeIx (i : Instr) (r : Option Word) : (hostDone i r s).freeIx = s.freeIx := rfl

/-! ### `refuseRead` -/

@[simp] theorem refuseRead_cfg : (refuseRead s).cfg = s.cfg := rfl
@[simp] theorem refuseRead_life : (refuseRead s).life = s.life := rfl
@[simp] theorem refuseRead_lastErr : (refuseRead s).lastErr = s.lastErr := rfl
@[simp] theorem refuseRead_tx : (refuseRead s).tx = s.tx := rfl
@[simp] theorem refuseRead_txTimer : (refuseRead s).txTimer = s.txTimer := rfl
@[simp] theorem refuseRead_rx : (refuseRead s).rx = s.rx := rfl
@[simp] theorem refuseRead_rxIrqEn : (refuseRead s).rxIrqEn = s.rxIrqEn := rfl
@[simp] theorem refuseRead_rxEdgePending : (refuseRead s).rxEdgePending = s.rxEdgePending := rfl
@[simp] theorem refuseRead_rxEdgeTime : (refuseRead s).rxEdgeTime = s.rxEdgeTime := rfl
@[simp] theorem refuseRead_rxTimer : (refuseRead s).rxTimer = s.rxTimer := rfl
@[simp] theorem refuseRead_fifo : (refuseRead s).fifo = s.fifo := rfl
@[simp] theorem refuseRead_cntRxOk : (refuseRead s).cntRxOk = s.cntRxOk := rfl
@[simp] theorem refuseRead_cntRxFerr : (refuseRead s).cntRxFerr = s.cntRxFerr := rfl
@[simp] theorem refuseRead_txOut : (refuseRead s).txOut = s.txOut := rfl
@[simp] theorem refuseRead_rxIn : (refuseRead s).rxIn = s.rxIn := rfl
@[simp] theorem refuseRead_dirTx : (refuseRead s).dirTx = s.dirTx := rfl
@[simp] theorem refuseRead_dirRx : (refuseRead s).dirRx = s.dirRx := rfl
@[simp] theorem refuseRead_now : (refuseRead s).now = s.now := rfl
@[simp] theorem refuseRead_hist : (refuseRead s).hist = s.hist := rfl
@[simp] theorem refuseRead_fault : (refuseRead s).fault = s.fault := rfl
@[simp] theorem refuseRead_refused : (refuseRead s).refused = true := rfl
@[simp] theorem refuseRead_hReady : (refuseRead s).hReady = true := rfl
@[simp] theorem refuseRead_hRdata : (refuseRead s).hRdata = some 0 := rfl
@[simp] theorem refuseRead_held : (refuseRead s).held = s.held := rfl
@[simp] theorem refuseRead_writes : (refuseRead s).writes = s.writes := rfl
@[simp] theorem refuseRead_returned : (refuseRead s).returned = s.returned := rfl
@[simp] theorem refuseRead_reads : (refuseRead s).reads = s.reads := rfl
@[simp] theorem refuseRead_delivered : (refuseRead s).delivered = s.delivered := rfl
@[simp] theorem refuseRead_initDraw : (refuseRead s).initDraw = s.initDraw := rfl
@[simp] theorem refuseRead_inputs : (refuseRead s).inputs = s.inputs := rfl
@[simp] theorem refuseRead_freeIx : (refuseRead s).freeIx = s.freeIx := rfl

/-! ### `refuseWrite` -/

@[simp] theorem refuseWrite_cfg : (refuseWrite s).cfg = s.cfg := rfl
@[simp] theorem refuseWrite_life : (refuseWrite s).life = s.life := rfl
@[simp] theorem refuseWrite_lastErr : (refuseWrite s).lastErr = s.lastErr := rfl
@[simp] theorem refuseWrite_tx : (refuseWrite s).tx = s.tx := rfl
@[simp] theorem refuseWrite_txTimer : (refuseWrite s).txTimer = s.txTimer := rfl
@[simp] theorem refuseWrite_rx : (refuseWrite s).rx = s.rx := rfl
@[simp] theorem refuseWrite_rxIrqEn : (refuseWrite s).rxIrqEn = s.rxIrqEn := rfl
@[simp] theorem refuseWrite_rxEdgePending : (refuseWrite s).rxEdgePending = s.rxEdgePending := rfl
@[simp] theorem refuseWrite_rxEdgeTime : (refuseWrite s).rxEdgeTime = s.rxEdgeTime := rfl
@[simp] theorem refuseWrite_rxTimer : (refuseWrite s).rxTimer = s.rxTimer := rfl
@[simp] theorem refuseWrite_fifo : (refuseWrite s).fifo = s.fifo := rfl
@[simp] theorem refuseWrite_cntRxOk : (refuseWrite s).cntRxOk = s.cntRxOk := rfl
@[simp] theorem refuseWrite_cntRxFerr : (refuseWrite s).cntRxFerr = s.cntRxFerr := rfl
@[simp] theorem refuseWrite_txOut : (refuseWrite s).txOut = s.txOut := rfl
@[simp] theorem refuseWrite_rxIn : (refuseWrite s).rxIn = s.rxIn := rfl
@[simp] theorem refuseWrite_dirTx : (refuseWrite s).dirTx = s.dirTx := rfl
@[simp] theorem refuseWrite_dirRx : (refuseWrite s).dirRx = s.dirRx := rfl
@[simp] theorem refuseWrite_now : (refuseWrite s).now = s.now := rfl
@[simp] theorem refuseWrite_hist : (refuseWrite s).hist = s.hist := rfl
@[simp] theorem refuseWrite_fault : (refuseWrite s).fault = s.fault := rfl
@[simp] theorem refuseWrite_refused : (refuseWrite s).refused = true := rfl
@[simp] theorem refuseWrite_hReady : (refuseWrite s).hReady = true := rfl
@[simp] theorem refuseWrite_hRdata : (refuseWrite s).hRdata = none := rfl
@[simp] theorem refuseWrite_held : (refuseWrite s).held = s.held := rfl
@[simp] theorem refuseWrite_writes : (refuseWrite s).writes = s.writes := rfl
@[simp] theorem refuseWrite_returned : (refuseWrite s).returned = s.returned := rfl
@[simp] theorem refuseWrite_reads : (refuseWrite s).reads = s.reads := rfl
@[simp] theorem refuseWrite_delivered : (refuseWrite s).delivered = s.delivered := rfl
@[simp] theorem refuseWrite_initDraw : (refuseWrite s).initDraw = s.initDraw := rfl
@[simp] theorem refuseWrite_inputs : (refuseWrite s).inputs = s.inputs := rfl
@[simp] theorem refuseWrite_freeIx : (refuseWrite s).freeIx = s.freeIx := rfl

/-! ### `holdWait` -/

@[simp] theorem holdWait_cfg (d : Byte) : (holdWait d s).cfg = s.cfg := rfl
@[simp] theorem holdWait_life (d : Byte) : (holdWait d s).life = s.life := rfl
@[simp] theorem holdWait_lastErr (d : Byte) : (holdWait d s).lastErr = s.lastErr := rfl
@[simp] theorem holdWait_tx (d : Byte) : (holdWait d s).tx = s.tx := rfl
@[simp] theorem holdWait_txTimer (d : Byte) : (holdWait d s).txTimer = s.txTimer := rfl
@[simp] theorem holdWait_rx (d : Byte) : (holdWait d s).rx = s.rx := rfl
@[simp] theorem holdWait_rxIrqEn (d : Byte) : (holdWait d s).rxIrqEn = s.rxIrqEn := rfl
@[simp] theorem holdWait_rxEdgePending (d : Byte) : (holdWait d s).rxEdgePending = s.rxEdgePending := rfl
@[simp] theorem holdWait_rxEdgeTime (d : Byte) : (holdWait d s).rxEdgeTime = s.rxEdgeTime := rfl
@[simp] theorem holdWait_rxTimer (d : Byte) : (holdWait d s).rxTimer = s.rxTimer := rfl
@[simp] theorem holdWait_fifo (d : Byte) : (holdWait d s).fifo = s.fifo := rfl
@[simp] theorem holdWait_cntRxOk (d : Byte) : (holdWait d s).cntRxOk = s.cntRxOk := rfl
@[simp] theorem holdWait_cntRxFerr (d : Byte) : (holdWait d s).cntRxFerr = s.cntRxFerr := rfl
@[simp] theorem holdWait_txOut (d : Byte) : (holdWait d s).txOut = s.txOut := rfl
@[simp] theorem holdWait_rxIn (d : Byte) : (holdWait d s).rxIn = s.rxIn := rfl
@[simp] theorem holdWait_dirTx (d : Byte) : (holdWait d s).dirTx = s.dirTx := rfl
@[simp] theorem holdWait_dirRx (d : Byte) : (holdWait d s).dirRx = s.dirRx := rfl
@[simp] theorem holdWait_now (d : Byte) : (holdWait d s).now = s.now := rfl
@[simp] theorem holdWait_hist (d : Byte) : (holdWait d s).hist = s.hist := rfl
@[simp] theorem holdWait_fault (d : Byte) : (holdWait d s).fault = s.fault := rfl
@[simp] theorem holdWait_refused (d : Byte) : (holdWait d s).refused = s.refused := rfl
@[simp] theorem holdWait_hReady (d : Byte) : (holdWait d s).hReady = false := rfl
@[simp] theorem holdWait_hRdata (d : Byte) : (holdWait d s).hRdata = none := rfl
@[simp] theorem holdWait_held (d : Byte) : (holdWait d s).held = s.held ++ [d] := rfl
@[simp] theorem holdWait_writes (d : Byte) : (holdWait d s).writes = s.writes := rfl
@[simp] theorem holdWait_returned (d : Byte) : (holdWait d s).returned = s.returned := rfl
@[simp] theorem holdWait_reads (d : Byte) : (holdWait d s).reads = s.reads := rfl
@[simp] theorem holdWait_delivered (d : Byte) : (holdWait d s).delivered = s.delivered := rfl
@[simp] theorem holdWait_initDraw (d : Byte) : (holdWait d s).initDraw = s.initDraw := rfl
@[simp] theorem holdWait_inputs (d : Byte) : (holdWait d s).inputs = s.inputs := rfl
@[simp] theorem holdWait_freeIx (d : Byte) : (holdWait d s).freeIx = s.freeIx := rfl

/-! ### `corruptTx` -/

@[simp] theorem corruptTx_cfg : (corruptTx s).cfg = s.cfg := rfl
@[simp] theorem corruptTx_life : (corruptTx s).life = s.life := rfl
@[simp] theorem corruptTx_lastErr : (corruptTx s).lastErr = s.lastErr := rfl
@[simp] theorem corruptTx_tx : (corruptTx s).tx = ⟨Config.freeByte s.freeIx, TxIndex.ofFin (Config.freeIndex s.freeIx), Config.freeBit s.freeIx⟩ := rfl
@[simp] theorem corruptTx_txTimer : (corruptTx s).txTimer = ⟨Config.freeBit (s.freeIx + 1), Config.freeTime s.freeIx⟩ := rfl
@[simp] theorem corruptTx_rx : (corruptTx s).rx = s.rx := rfl
@[simp] theorem corruptTx_rxIrqEn : (corruptTx s).rxIrqEn = s.rxIrqEn := rfl
@[simp] theorem corruptTx_rxEdgePending : (corruptTx s).rxEdgePending = s.rxEdgePending := rfl
@[simp] theorem corruptTx_rxEdgeTime : (corruptTx s).rxEdgeTime = s.rxEdgeTime := rfl
@[simp] theorem corruptTx_rxTimer : (corruptTx s).rxTimer = s.rxTimer := rfl
@[simp] theorem corruptTx_fifo : (corruptTx s).fifo = s.fifo := rfl
@[simp] theorem corruptTx_cntRxOk : (corruptTx s).cntRxOk = s.cntRxOk := rfl
@[simp] theorem corruptTx_cntRxFerr : (corruptTx s).cntRxFerr = s.cntRxFerr := rfl
@[simp] theorem corruptTx_txOut : (corruptTx s).txOut = s.txOut := rfl
@[simp] theorem corruptTx_rxIn : (corruptTx s).rxIn = s.rxIn := rfl
@[simp] theorem corruptTx_dirTx : (corruptTx s).dirTx = s.dirTx := rfl
@[simp] theorem corruptTx_dirRx : (corruptTx s).dirRx = s.dirRx := rfl
@[simp] theorem corruptTx_now : (corruptTx s).now = s.now := rfl
@[simp] theorem corruptTx_hist : (corruptTx s).hist = s.hist := rfl
@[simp] theorem corruptTx_fault : (corruptTx s).fault = s.fault := rfl
@[simp] theorem corruptTx_refused : (corruptTx s).refused = s.refused := rfl
@[simp] theorem corruptTx_hReady : (corruptTx s).hReady = s.hReady := rfl
@[simp] theorem corruptTx_hRdata : (corruptTx s).hRdata = s.hRdata := rfl
@[simp] theorem corruptTx_held : (corruptTx s).held = s.held := rfl
@[simp] theorem corruptTx_writes : (corruptTx s).writes = s.writes := rfl
@[simp] theorem corruptTx_returned : (corruptTx s).returned = s.returned := rfl
@[simp] theorem corruptTx_reads : (corruptTx s).reads = s.reads := rfl
@[simp] theorem corruptTx_delivered : (corruptTx s).delivered = s.delivered := rfl
@[simp] theorem corruptTx_initDraw : (corruptTx s).initDraw = s.initDraw := rfl
@[simp] theorem corruptTx_inputs : (corruptTx s).inputs = s.inputs := rfl
@[simp] theorem corruptTx_freeIx : (corruptTx s).freeIx = s.freeIx + 2 := rfl

/-! ### `releaseTxOut` -/

@[simp] theorem releaseTxOut_cfg : (releaseTxOut s).cfg = s.cfg := rfl
@[simp] theorem releaseTxOut_life : (releaseTxOut s).life = s.life := rfl
@[simp] theorem releaseTxOut_lastErr : (releaseTxOut s).lastErr = s.lastErr := rfl
@[simp] theorem releaseTxOut_tx : (releaseTxOut s).tx = s.tx := rfl
@[simp] theorem releaseTxOut_txTimer : (releaseTxOut s).txTimer = s.txTimer := rfl
@[simp] theorem releaseTxOut_rx : (releaseTxOut s).rx = s.rx := rfl
@[simp] theorem releaseTxOut_rxIrqEn : (releaseTxOut s).rxIrqEn = s.rxIrqEn := rfl
@[simp] theorem releaseTxOut_rxEdgePending : (releaseTxOut s).rxEdgePending = s.rxEdgePending := rfl
@[simp] theorem releaseTxOut_rxEdgeTime : (releaseTxOut s).rxEdgeTime = s.rxEdgeTime := rfl
@[simp] theorem releaseTxOut_rxTimer : (releaseTxOut s).rxTimer = s.rxTimer := rfl
@[simp] theorem releaseTxOut_fifo : (releaseTxOut s).fifo = s.fifo := rfl
@[simp] theorem releaseTxOut_cntRxOk : (releaseTxOut s).cntRxOk = s.cntRxOk := rfl
@[simp] theorem releaseTxOut_cntRxFerr : (releaseTxOut s).cntRxFerr = s.cntRxFerr := rfl
@[simp] theorem releaseTxOut_txOut : (releaseTxOut s).txOut = Config.freeBit s.freeIx := rfl
@[simp] theorem releaseTxOut_rxIn : (releaseTxOut s).rxIn = s.rxIn := rfl
@[simp] theorem releaseTxOut_dirTx : (releaseTxOut s).dirTx = s.dirTx := rfl
@[simp] theorem releaseTxOut_dirRx : (releaseTxOut s).dirRx = s.dirRx := rfl
@[simp] theorem releaseTxOut_now : (releaseTxOut s).now = s.now := rfl
@[simp] theorem releaseTxOut_hist : (releaseTxOut s).hist = s.hist := rfl
@[simp] theorem releaseTxOut_fault : (releaseTxOut s).fault = s.fault := rfl
@[simp] theorem releaseTxOut_refused : (releaseTxOut s).refused = s.refused := rfl
@[simp] theorem releaseTxOut_hReady : (releaseTxOut s).hReady = s.hReady := rfl
@[simp] theorem releaseTxOut_hRdata : (releaseTxOut s).hRdata = s.hRdata := rfl
@[simp] theorem releaseTxOut_held : (releaseTxOut s).held = s.held := rfl
@[simp] theorem releaseTxOut_writes : (releaseTxOut s).writes = s.writes := rfl
@[simp] theorem releaseTxOut_returned : (releaseTxOut s).returned = s.returned := rfl
@[simp] theorem releaseTxOut_reads : (releaseTxOut s).reads = s.reads := rfl
@[simp] theorem releaseTxOut_delivered : (releaseTxOut s).delivered = s.delivered := rfl
@[simp] theorem releaseTxOut_initDraw : (releaseTxOut s).initDraw = s.initDraw := rfl
@[simp] theorem releaseTxOut_inputs : (releaseTxOut s).inputs = s.inputs := rfl
@[simp] theorem releaseTxOut_freeIx : (releaseTxOut s).freeIx = s.freeIx + 1 := rfl

/-! ### `loadTx` -/

@[simp] theorem loadTx_cfg (b : Byte) : (loadTx b s).cfg = s.cfg := rfl
@[simp] theorem loadTx_life (b : Byte) : (loadTx b s).life = s.life := rfl
@[simp] theorem loadTx_lastErr (b : Byte) : (loadTx b s).lastErr = s.lastErr := rfl
@[simp] theorem loadTx_tx (b : Byte) : (loadTx b s).tx = ⟨b, .start, false⟩ := rfl
@[simp] theorem loadTx_txTimer (b : Byte) : (loadTx b s).txTimer = ⟨true, s.now + s.cfg.bitPeriod⟩ := rfl
@[simp] theorem loadTx_rx (b : Byte) : (loadTx b s).rx = s.rx := rfl
@[simp] theorem loadTx_rxIrqEn (b : Byte) : (loadTx b s).rxIrqEn = s.rxIrqEn := rfl
@[simp] theorem loadTx_rxEdgePending (b : Byte) : (loadTx b s).rxEdgePending = s.rxEdgePending := rfl
@[simp] theorem loadTx_rxEdgeTime (b : Byte) : (loadTx b s).rxEdgeTime = s.rxEdgeTime := rfl
@[simp] theorem loadTx_rxTimer (b : Byte) : (loadTx b s).rxTimer = s.rxTimer := rfl
@[simp] theorem loadTx_fifo (b : Byte) : (loadTx b s).fifo = s.fifo := rfl
@[simp] theorem loadTx_cntRxOk (b : Byte) : (loadTx b s).cntRxOk = s.cntRxOk := rfl
@[simp] theorem loadTx_cntRxFerr (b : Byte) : (loadTx b s).cntRxFerr = s.cntRxFerr := rfl
@[simp] theorem loadTx_txOut (b : Byte) : (loadTx b s).txOut = s.txOut := rfl
@[simp] theorem loadTx_rxIn (b : Byte) : (loadTx b s).rxIn = s.rxIn := rfl
@[simp] theorem loadTx_dirTx (b : Byte) : (loadTx b s).dirTx = s.dirTx := rfl
@[simp] theorem loadTx_dirRx (b : Byte) : (loadTx b s).dirRx = s.dirRx := rfl
@[simp] theorem loadTx_now (b : Byte) : (loadTx b s).now = s.now := rfl
@[simp] theorem loadTx_hist (b : Byte) : (loadTx b s).hist = s.hist := rfl
@[simp] theorem loadTx_fault (b : Byte) : (loadTx b s).fault = s.fault := rfl
@[simp] theorem loadTx_refused (b : Byte) : (loadTx b s).refused = s.refused := rfl
@[simp] theorem loadTx_hReady (b : Byte) : (loadTx b s).hReady = s.hReady := rfl
@[simp] theorem loadTx_hRdata (b : Byte) : (loadTx b s).hRdata = s.hRdata := rfl
@[simp] theorem loadTx_held (b : Byte) : (loadTx b s).held = s.held := rfl
@[simp] theorem loadTx_writes (b : Byte) : (loadTx b s).writes = s.writes := rfl
@[simp] theorem loadTx_returned (b : Byte) : (loadTx b s).returned = s.returned := rfl
@[simp] theorem loadTx_reads (b : Byte) : (loadTx b s).reads = s.reads := rfl
@[simp] theorem loadTx_delivered (b : Byte) : (loadTx b s).delivered = s.delivered := rfl
@[simp] theorem loadTx_initDraw (b : Byte) : (loadTx b s).initDraw = s.initDraw := rfl
@[simp] theorem loadTx_inputs (b : Byte) : (loadTx b s).inputs = s.inputs := rfl
@[simp] theorem loadTx_freeIx (b : Byte) : (loadTx b s).freeIx = s.freeIx := rfl

/-! ### `txShift` -/

@[simp] theorem txShift_cfg (v : Bool) : (txShift v s).cfg = s.cfg := rfl
@[simp] theorem txShift_life (v : Bool) : (txShift v s).life = s.life := rfl
@[simp] theorem txShift_lastErr (v : Bool) : (txShift v s).lastErr = s.lastErr := rfl
@[simp] theorem txShift_tx (v : Bool) : (txShift v s).tx = ⟨s.tx.targetByte, s.tx.bitIndex.next, s.tx.doneSignal⟩ := rfl
@[simp] theorem txShift_txTimer (v : Bool) : (txShift v s).txTimer = ⟨s.txTimer.armed, s.txTimer.deadline + s.cfg.bitPeriod⟩ := rfl
@[simp] theorem txShift_rx (v : Bool) : (txShift v s).rx = s.rx := rfl
@[simp] theorem txShift_rxIrqEn (v : Bool) : (txShift v s).rxIrqEn = s.rxIrqEn := rfl
@[simp] theorem txShift_rxEdgePending (v : Bool) : (txShift v s).rxEdgePending = s.rxEdgePending := rfl
@[simp] theorem txShift_rxEdgeTime (v : Bool) : (txShift v s).rxEdgeTime = s.rxEdgeTime := rfl
@[simp] theorem txShift_rxTimer (v : Bool) : (txShift v s).rxTimer = s.rxTimer := rfl
@[simp] theorem txShift_fifo (v : Bool) : (txShift v s).fifo = s.fifo := rfl
@[simp] theorem txShift_cntRxOk (v : Bool) : (txShift v s).cntRxOk = s.cntRxOk := rfl
@[simp] theorem txShift_cntRxFerr (v : Bool) : (txShift v s).cntRxFerr = s.cntRxFerr := rfl
@[simp] theorem txShift_txOut (v : Bool) : (txShift v s).txOut = v := rfl
@[simp] theorem txShift_rxIn (v : Bool) : (txShift v s).rxIn = s.rxIn := rfl
@[simp] theorem txShift_dirTx (v : Bool) : (txShift v s).dirTx = s.dirTx := rfl
@[simp] theorem txShift_dirRx (v : Bool) : (txShift v s).dirRx = s.dirRx := rfl
@[simp] theorem txShift_now (v : Bool) : (txShift v s).now = s.now := rfl
@[simp] theorem txShift_hist (v : Bool) : (txShift v s).hist = s.hist := rfl
@[simp] theorem txShift_fault (v : Bool) : (txShift v s).fault = s.fault := rfl
@[simp] theorem txShift_refused (v : Bool) : (txShift v s).refused = s.refused := rfl
@[simp] theorem txShift_hReady (v : Bool) : (txShift v s).hReady = s.hReady := rfl
@[simp] theorem txShift_hRdata (v : Bool) : (txShift v s).hRdata = s.hRdata := rfl
@[simp] theorem txShift_held (v : Bool) : (txShift v s).held = s.held := rfl
@[simp] theorem txShift_writes (v : Bool) : (txShift v s).writes = s.writes := rfl
@[simp] theorem txShift_returned (v : Bool) : (txShift v s).returned = s.returned := rfl
@[simp] theorem txShift_reads (v : Bool) : (txShift v s).reads = s.reads := rfl
@[simp] theorem txShift_delivered (v : Bool) : (txShift v s).delivered = s.delivered := rfl
@[simp] theorem txShift_initDraw (v : Bool) : (txShift v s).initDraw = s.initDraw := rfl
@[simp] theorem txShift_inputs (v : Bool) : (txShift v s).inputs = s.inputs := rfl
@[simp] theorem txShift_freeIx (v : Bool) : (txShift v s).freeIx = s.freeIx := rfl

/-! ### `txFinish` -/

@[simp] theorem txFinish_cfg : (txFinish s).cfg = s.cfg := rfl
@[simp] theorem txFinish_life : (txFinish s).life = s.life := rfl
@[simp] theorem txFinish_lastErr : (txFinish s).lastErr = s.lastErr := rfl
@[simp] theorem txFinish_tx : (txFinish s).tx = ⟨s.tx.targetByte, s.tx.bitIndex, true⟩ := rfl
@[simp] theorem txFinish_txTimer : (txFinish s).txTimer = ⟨false, s.txTimer.deadline⟩ := rfl
@[simp] theorem txFinish_rx : (txFinish s).rx = s.rx := rfl
@[simp] theorem txFinish_rxIrqEn : (txFinish s).rxIrqEn = s.rxIrqEn := rfl
@[simp] theorem txFinish_rxEdgePending : (txFinish s).rxEdgePending = s.rxEdgePending := rfl
@[simp] theorem txFinish_rxEdgeTime : (txFinish s).rxEdgeTime = s.rxEdgeTime := rfl
@[simp] theorem txFinish_rxTimer : (txFinish s).rxTimer = s.rxTimer := rfl
@[simp] theorem txFinish_fifo : (txFinish s).fifo = s.fifo := rfl
@[simp] theorem txFinish_cntRxOk : (txFinish s).cntRxOk = s.cntRxOk := rfl
@[simp] theorem txFinish_cntRxFerr : (txFinish s).cntRxFerr = s.cntRxFerr := rfl
@[simp] theorem txFinish_txOut : (txFinish s).txOut = s.txOut := rfl
@[simp] theorem txFinish_rxIn : (txFinish s).rxIn = s.rxIn := rfl
@[simp] theorem txFinish_dirTx : (txFinish s).dirTx = s.dirTx := rfl
@[simp] theorem txFinish_dirRx : (txFinish s).dirRx = s.dirRx := rfl
@[simp] theorem txFinish_now : (txFinish s).now = s.now := rfl
@[simp] theorem txFinish_hist : (txFinish s).hist = s.hist := rfl
@[simp] theorem txFinish_fault : (txFinish s).fault = s.fault := rfl
@[simp] theorem txFinish_refused : (txFinish s).refused = s.refused := rfl
@[simp] theorem txFinish_hReady : (txFinish s).hReady = s.hReady := rfl
@[simp] theorem txFinish_hRdata : (txFinish s).hRdata = s.hRdata := rfl
@[simp] theorem txFinish_held : (txFinish s).held = s.held := rfl
@[simp] theorem txFinish_writes : (txFinish s).writes = s.writes := rfl
@[simp] theorem txFinish_returned : (txFinish s).returned = s.returned := rfl
@[simp] theorem txFinish_reads : (txFinish s).reads = s.reads := rfl
@[simp] theorem txFinish_delivered : (txFinish s).delivered = s.delivered := rfl
@[simp] theorem txFinish_initDraw : (txFinish s).initDraw = s.initDraw := rfl
@[simp] theorem txFinish_inputs : (txFinish s).inputs = s.inputs := rfl
@[simp] theorem txFinish_freeIx : (txFinish s).freeIx = s.freeIx := rfl

/-! ### `driveLine` -/

@[simp] theorem driveLine_cfg (v : Bool) : (driveLine v s).cfg = s.cfg := rfl
@[simp] theorem driveLine_life (v : Bool) : (driveLine v s).life = s.life := rfl
@[simp] theorem driveLine_lastErr (v : Bool) : (driveLine v s).lastErr = s.lastErr := rfl
@[simp] theorem driveLine_tx (v : Bool) : (driveLine v s).tx = s.tx := rfl
@[simp] theorem driveLine_txTimer (v : Bool) : (driveLine v s).txTimer = s.txTimer := rfl
@[simp] theorem driveLine_rx (v : Bool) : (driveLine v s).rx = s.rx := rfl
@[simp] theorem driveLine_rxIrqEn (v : Bool) : (driveLine v s).rxIrqEn = s.rxIrqEn := rfl
@[simp] theorem driveLine_rxEdgePending (v : Bool) : (driveLine v s).rxEdgePending = (s.rxEdgePending || edgeCaught s v) := rfl
@[simp] theorem driveLine_rxEdgeTime (v : Bool) : (driveLine v s).rxEdgeTime = if edgeCaught s v then s.now else s.rxEdgeTime := rfl
@[simp] theorem driveLine_rxTimer (v : Bool) : (driveLine v s).rxTimer = s.rxTimer := rfl
@[simp] theorem driveLine_fifo (v : Bool) : (driveLine v s).fifo = s.fifo := rfl
@[simp] theorem driveLine_cntRxOk (v : Bool) : (driveLine v s).cntRxOk = s.cntRxOk := rfl
@[simp] theorem driveLine_cntRxFerr (v : Bool) : (driveLine v s).cntRxFerr = s.cntRxFerr := rfl
@[simp] theorem driveLine_txOut (v : Bool) : (driveLine v s).txOut = s.txOut := rfl
@[simp] theorem driveLine_rxIn (v : Bool) : (driveLine v s).rxIn = v := rfl
@[simp] theorem driveLine_dirTx (v : Bool) : (driveLine v s).dirTx = s.dirTx := rfl
@[simp] theorem driveLine_dirRx (v : Bool) : (driveLine v s).dirRx = s.dirRx := rfl
@[simp] theorem driveLine_now (v : Bool) : (driveLine v s).now = s.now := rfl
@[simp] theorem driveLine_hist (v : Bool) : (driveLine v s).hist = s.hist := rfl
@[simp] theorem driveLine_fault (v : Bool) : (driveLine v s).fault = s.fault := rfl
@[simp] theorem driveLine_refused (v : Bool) : (driveLine v s).refused = s.refused := rfl
@[simp] theorem driveLine_hReady (v : Bool) : (driveLine v s).hReady = s.hReady := rfl
@[simp] theorem driveLine_hRdata (v : Bool) : (driveLine v s).hRdata = s.hRdata := rfl
@[simp] theorem driveLine_held (v : Bool) : (driveLine v s).held = s.held := rfl
@[simp] theorem driveLine_writes (v : Bool) : (driveLine v s).writes = s.writes := rfl
@[simp] theorem driveLine_returned (v : Bool) : (driveLine v s).returned = s.returned := rfl
@[simp] theorem driveLine_reads (v : Bool) : (driveLine v s).reads = s.reads := rfl
@[simp] theorem driveLine_delivered (v : Bool) : (driveLine v s).delivered = s.delivered := rfl
@[simp] theorem driveLine_initDraw (v : Bool) : (driveLine v s).initDraw = s.initDraw := rfl
@[simp] theorem driveLine_inputs (v : Bool) : (driveLine v s).inputs = s.inputs := rfl
@[simp] theorem driveLine_freeIx (v : Bool) : (driveLine v s).freeIx = s.freeIx := rfl

/-! ### `startFrame` -/

@[simp] theorem startFrame_cfg : (startFrame s).cfg = s.cfg := rfl
@[simp] theorem startFrame_life : (startFrame s).life = s.life := rfl
@[simp] theorem startFrame_lastErr : (startFrame s).lastErr = s.lastErr := rfl
@[simp] theorem startFrame_tx : (startFrame s).tx = s.tx := rfl
@[simp] theorem startFrame_txTimer : (startFrame s).txTimer = s.txTimer := rfl
@[simp] theorem startFrame_rx : (startFrame s).rx = ⟨true, 0, 0⟩ := rfl
@[simp] theorem startFrame_rxIrqEn : (startFrame s).rxIrqEn = false := rfl
@[simp] theorem startFrame_rxEdgePending : (startFrame s).rxEdgePending = s.rxEdgePending := rfl
@[simp] theorem startFrame_rxEdgeTime : (startFrame s).rxEdgeTime = s.rxEdgeTime := rfl
@[simp] theorem startFrame_rxTimer : (startFrame s).rxTimer = ⟨true, s.now + s.cfg.bitPeriod⟩ := rfl
@[simp] theorem startFrame_fifo : (startFrame s).fifo = s.fifo := rfl
@[simp] theorem startFrame_cntRxOk : (startFrame s).cntRxOk = s.cntRxOk := rfl
@[simp] theorem startFrame_cntRxFerr : (startFrame s).cntRxFerr = s.cntRxFerr := rfl
@[simp] theorem startFrame_txOut : (startFrame s).txOut = s.txOut := rfl
@[simp] theorem startFrame_rxIn : (startFrame s).rxIn = s.rxIn := rfl
@[simp] theorem startFrame_dirTx : (startFrame s).dirTx = s.dirTx := rfl
@[simp] theorem startFrame_dirRx : (startFrame s).dirRx = s.dirRx := rfl
@[simp] theorem startFrame_now : (startFrame s).now = s.now := rfl
@[simp] theorem startFrame_hist : (startFrame s).hist = s.hist := rfl
@[simp] theorem startFrame_fault : (startFrame s).fault = s.fault := rfl
@[simp] theorem startFrame_refused : (startFrame s).refused = s.refused := rfl
@[simp] theorem startFrame_hReady : (startFrame s).hReady = s.hReady := rfl
@[simp] theorem startFrame_hRdata : (startFrame s).hRdata = s.hRdata := rfl
@[simp] theorem startFrame_held : (startFrame s).held = s.held := rfl
@[simp] theorem startFrame_writes : (startFrame s).writes = s.writes := rfl
@[simp] theorem startFrame_returned : (startFrame s).returned = s.returned := rfl
@[simp] theorem startFrame_reads : (startFrame s).reads = s.reads := rfl
@[simp] theorem startFrame_delivered : (startFrame s).delivered = s.delivered := rfl
@[simp] theorem startFrame_initDraw : (startFrame s).initDraw = s.initDraw := rfl
@[simp] theorem startFrame_inputs : (startFrame s).inputs = s.inputs := rfl
@[simp] theorem startFrame_freeIx : (startFrame s).freeIx = s.freeIx := rfl

/-! ### `endFrame` -/

@[simp] theorem endFrame_cfg : (endFrame s).cfg = s.cfg := rfl
@[simp] theorem endFrame_life : (endFrame s).life = s.life := rfl
@[simp] theorem endFrame_lastErr : (endFrame s).lastErr = s.lastErr := rfl
@[simp] theorem endFrame_tx : (endFrame s).tx = s.tx := rfl
@[simp] theorem endFrame_txTimer : (endFrame s).txTimer = s.txTimer := rfl
@[simp] theorem endFrame_rx : (endFrame s).rx = ⟨false, s.rx.bitCount, s.rx.accumulator⟩ := rfl
@[simp] theorem endFrame_rxIrqEn : (endFrame s).rxIrqEn = true := rfl
@[simp] theorem endFrame_rxEdgePending : (endFrame s).rxEdgePending = s.rxEdgePending := rfl
@[simp] theorem endFrame_rxEdgeTime : (endFrame s).rxEdgeTime = s.rxEdgeTime := rfl
@[simp] theorem endFrame_rxTimer : (endFrame s).rxTimer = ⟨false, s.rxTimer.deadline⟩ := rfl
@[simp] theorem endFrame_fifo : (endFrame s).fifo = s.fifo := rfl
@[simp] theorem endFrame_cntRxOk : (endFrame s).cntRxOk = s.cntRxOk := rfl
@[simp] theorem endFrame_cntRxFerr : (endFrame s).cntRxFerr = s.cntRxFerr := rfl
@[simp] theorem endFrame_txOut : (endFrame s).txOut = s.txOut := rfl
@[simp] theorem endFrame_rxIn : (endFrame s).rxIn = s.rxIn := rfl
@[simp] theorem endFrame_dirTx : (endFrame s).dirTx = s.dirTx := rfl
@[simp] theorem endFrame_dirRx : (endFrame s).dirRx = s.dirRx := rfl
@[simp] theorem endFrame_now : (endFrame s).now = s.now := rfl
@[simp] theorem endFrame_hist : (endFrame s).hist = s.hist := rfl
@[simp] theorem endFrame_fault : (endFrame s).fault = s.fault := rfl
@[simp] theorem endFrame_refused : (endFrame s).refused = s.refused := rfl
@[simp] theorem endFrame_hReady : (endFrame s).hReady = s.hReady := rfl
@[simp] theorem endFrame_hRdata : (endFrame s).hRdata = s.hRdata := rfl
@[simp] theorem endFrame_held : (endFrame s).held = s.held := rfl
@[simp] theorem endFrame_writes : (endFrame s).writes = s.writes := rfl
@[simp] theorem endFrame_returned : (endFrame s).returned = s.returned := rfl
@[simp] theorem endFrame_reads : (endFrame s).reads = s.reads := rfl
@[simp] theorem endFrame_delivered : (endFrame s).delivered = s.delivered := rfl
@[simp] theorem endFrame_initDraw : (endFrame s).initDraw = s.initDraw := rfl
@[simp] theorem endFrame_inputs : (endFrame s).inputs = s.inputs := rfl
@[simp] theorem endFrame_freeIx : (endFrame s).freeIx = s.freeIx := rfl

/-! ### `bringUp` -/

@[simp] theorem bringUp_cfg : (bringUp s).cfg = s.cfg := rfl
@[simp] theorem bringUp_life : (bringUp s).life = .up := rfl
@[simp] theorem bringUp_lastErr : (bringUp s).lastErr = .noFailure := rfl
@[simp] theorem bringUp_tx : (bringUp s).tx = ⟨0, .done, false⟩ := rfl
@[simp] theorem bringUp_txTimer : (bringUp s).txTimer = ⟨false, s.txTimer.deadline⟩ := rfl
@[simp] theorem bringUp_rx : (bringUp s).rx = ⟨false, 0, 0⟩ := rfl
@[simp] theorem bringUp_rxIrqEn : (bringUp s).rxIrqEn = true := rfl
@[simp] theorem bringUp_rxEdgePending : (bringUp s).rxEdgePending = false := rfl
@[simp] theorem bringUp_rxEdgeTime : (bringUp s).rxEdgeTime = s.rxEdgeTime := rfl
@[simp] theorem bringUp_rxTimer : (bringUp s).rxTimer = ⟨false, s.rxTimer.deadline⟩ := rfl
@[simp] theorem bringUp_fifo : (bringUp s).fifo = ⟨s.fifo.storage, 0, 0⟩ := rfl
@[simp] theorem bringUp_cntRxOk : (bringUp s).cntRxOk = 0 := rfl
@[simp] theorem bringUp_cntRxFerr : (bringUp s).cntRxFerr = 0 := rfl
@[simp] theorem bringUp_txOut : (bringUp s).txOut = true := rfl
@[simp] theorem bringUp_rxIn : (bringUp s).rxIn = s.rxIn := rfl
@[simp] theorem bringUp_dirTx : (bringUp s).dirTx = .out := rfl
@[simp] theorem bringUp_dirRx : (bringUp s).dirRx = .inp := rfl
@[simp] theorem bringUp_now : (bringUp s).now = s.now := rfl
@[simp] theorem bringUp_hist : (bringUp s).hist = s.hist := rfl
@[simp] theorem bringUp_fault : (bringUp s).fault = s.fault := rfl
@[simp] theorem bringUp_refused : (bringUp s).refused = s.refused := rfl
@[simp] theorem bringUp_hReady : (bringUp s).hReady = s.hReady := rfl
@[simp] theorem bringUp_hRdata : (bringUp s).hRdata = s.hRdata := rfl
@[simp] theorem bringUp_held : (bringUp s).held = s.held := rfl
@[simp] theorem bringUp_writes : (bringUp s).writes = s.writes := rfl
@[simp] theorem bringUp_returned : (bringUp s).returned = s.returned := rfl
@[simp] theorem bringUp_reads : (bringUp s).reads = s.reads := rfl
@[simp] theorem bringUp_delivered : (bringUp s).delivered = s.delivered := rfl
@[simp] theorem bringUp_initDraw : (bringUp s).initDraw = s.initDraw := rfl
@[simp] theorem bringUp_inputs : (bringUp s).inputs = s.inputs := rfl
@[simp] theorem bringUp_freeIx : (bringUp s).freeIx = s.freeIx := rfl

/-! ### `bringDown` -/

@[simp] theorem bringDown_cfg : (bringDown s).cfg = s.cfg := rfl
@[simp] theorem bringDown_life : (bringDown s).life = .down := rfl
@[simp] theorem bringDown_lastErr : (bringDown s).lastErr = s.lastErr := rfl
@[simp] theorem bringDown_tx : (bringDown s).tx = s.tx := rfl
@[simp] theorem bringDown_txTimer : (bringDown s).txTimer = ⟨false, s.txTimer.deadline⟩ := rfl
@[simp] theorem bringDown_rx : (bringDown s).rx = ⟨false, s.rx.bitCount, s.rx.accumulator⟩ := rfl
@[simp] theorem bringDown_rxIrqEn : (bringDown s).rxIrqEn = false := rfl
@[simp] theorem bringDown_rxEdgePending : (bringDown s).rxEdgePending = false := rfl
@[simp] theorem bringDown_rxEdgeTime : (bringDown s).rxEdgeTime = s.rxEdgeTime := rfl
@[simp] theorem bringDown_rxTimer : (bringDown s).rxTimer = ⟨false, s.rxTimer.deadline⟩ := rfl
@[simp] theorem bringDown_fifo : (bringDown s).fifo = s.fifo := rfl
@[simp] theorem bringDown_cntRxOk : (bringDown s).cntRxOk = s.cntRxOk := rfl
@[simp] theorem bringDown_cntRxFerr : (bringDown s).cntRxFerr = s.cntRxFerr := rfl
@[simp] theorem bringDown_txOut : (bringDown s).txOut = Config.freeBit s.freeIx := rfl
@[simp] theorem bringDown_rxIn : (bringDown s).rxIn = s.rxIn := rfl
@[simp] theorem bringDown_dirTx : (bringDown s).dirTx = .unset := rfl
@[simp] theorem bringDown_dirRx : (bringDown s).dirRx = .unset := rfl
@[simp] theorem bringDown_now : (bringDown s).now = s.now := rfl
@[simp] theorem bringDown_hist : (bringDown s).hist = s.hist := rfl
@[simp] theorem bringDown_fault : (bringDown s).fault = s.fault := rfl
@[simp] theorem bringDown_refused : (bringDown s).refused = s.refused := rfl
@[simp] theorem bringDown_hReady : (bringDown s).hReady = s.hReady := rfl
@[simp] theorem bringDown_hRdata : (bringDown s).hRdata = s.hRdata := rfl
@[simp] theorem bringDown_held : (bringDown s).held = s.held := rfl
@[simp] theorem bringDown_writes : (bringDown s).writes = s.writes := rfl
@[simp] theorem bringDown_returned : (bringDown s).returned = s.returned := rfl
@[simp] theorem bringDown_reads : (bringDown s).reads = s.reads := rfl
@[simp] theorem bringDown_delivered : (bringDown s).delivered = s.delivered := rfl
@[simp] theorem bringDown_initDraw : (bringDown s).initDraw = s.initDraw := rfl
@[simp] theorem bringDown_inputs : (bringDown s).inputs = s.inputs := rfl
@[simp] theorem bringDown_freeIx : (bringDown s).freeIx = s.freeIx + 1 := rfl

end Sys2Proof.Machine
end

