-- ==== Sys2Proof/Laws/Fifo.lean ====
section
/-! SUPPORT. One spec lemma per FIFO operation: what `fifoPush` and `fifoPop` do on cursors below C, and
what they can answer at all. -/

namespace Sys2Proof.Machine

theorem capacity_pos (p : Params) : 2 ≤ p.capacity := by unfold Params.capacity; omega

theorem cursorNext_lt (s : State) (i : Nat) : cursorNext s i < s.cfg.capacity :=
  Nat.mod_lt _ (by have := capacity_pos s.cfg; omega)

theorem cursorNext_eq (s : State) (i : Nat) : cursorNext s i = (i + 1) % s.cfg.capacity := rfl

theorem fifoFull_iff (s : State) :
    fifoFull s = true ↔ (s.fifo.head + 1) % s.cfg.capacity = s.fifo.tail := by
  unfold fifoFull cursorNext
  exact decide_eq_true_iff

theorem fifoEmpty_iff (s : State) : fifoEmpty s = true ↔ s.fifo.head = s.fifo.tail := by
  unfold fifoEmpty
  exact decide_eq_true_iff

/-- The count of a FIFO whose cursors are in range, without the modulo. -/
theorem Fifo.count_eq (c : Nat) (f : Fifo) (hh : f.head < c) (ht : f.tail < c) :
    Fifo.count c f = if f.tail ≤ f.head then f.head - f.tail else f.head + c - f.tail := by
  unfold Fifo.count
  split
  · rw [Int.emod_eq_of_lt (by omega) (by omega)]
    omega
  · have h : ((f.head : Int) - f.tail) % c = (f.head : Int) - f.tail + c := by
      rw [← Int.add_emod_right]
      exact Int.emod_eq_of_lt (by omega) (by omega)
    rw [h]
    omega

theorem Fifo.length_unread (c : Nat) (f : Fifo) : (Fifo.unread c f).length = Fifo.count c f := by
  simp [Fifo.unread]

theorem Fifo.unread_getElem (c : Nat) (f : Fifo) (k : Nat) (h : k < (Fifo.unread c f).length) :
    (Fifo.unread c f)[k] = Memory.read f.storage ((f.tail + k) % c) := by
  simp [Fifo.unread]

/-- A cursor and an offset below the capacity, added modulo the capacity. -/
theorem index_add (a k c : Nat) (ha : a < c) (hk : k < c) :
    (a + k) % c = if a + k < c then a + k else a + k - c := by
  split
  · exact Nat.mod_eq_of_lt ‹_›
  · rw [Nat.mod_eq_sub_mod (by omega)]
    exact Nat.mod_eq_of_lt (by omega)

theorem index_succ (i c : Nat) (h : i < c) : (i + 1) % c = if i + 1 = c then 0 else i + 1 := by
  split
  · rename_i e
    rw [e]
    exact Nat.mod_self _
  · exact Nat.mod_eq_of_lt (by omega)

/-- What a push does to the storage and the cursors (R122). -/
def pushedFifo (b : Byte) (s : State) : Fifo :=
  { storage := Memory.write s.fifo.storage s.fifo.head b
    head := cursorNext s s.fifo.head
    tail := if fifoFull s then cursorNext s s.fifo.tail else s.fifo.tail }

/-- The record a push raises: the dropped byte of a full FIFO, or nothing (R122, R213). -/
def pushRecords (s : State) : List Record :=
  if fifoFull s then [.event (.bufferOverrun (Memory.read s.fifo.storage s.fifo.tail))] else []

/-! A record in the history is nothing to the FIFO. -/

theorem logOp_fifoFull (i : Instr) (r : Option Word) (d : Option Bool) (s : State) :
    fifoFull (logOp i r d s) = fifoFull s := rfl
@[simp] theorem logOp_pushRecords (i : Instr) (r : Option Word) (d : Option Bool) (s : State) :
    pushRecords (logOp i r d s) = pushRecords s := rfl
@[simp] theorem logOp_pushedFifo (i : Instr) (r : Option Word) (d : Option Bool) (b : Byte) (s : State) :
    pushedFifo b (logOp i r d s) = pushedFifo b s := rfl

/-- `fifo_push` below C: exactly these two fields change (R122). -/
theorem fifoPush_eq (b : Byte) (s : State) (h : s.fifo.head < s.cfg.capacity) :
    fifoPush b s = .ok { s with fifo := pushedFifo b s, hist := s.hist ++ pushRecords s } := by
  have hn := cursorNext_lt s s.fifo.head
  by_cases hf : fifoFull s
  · have ht : s.fifo.tail < s.cfg.capacity := by
      have : cursorNext s s.fifo.head = s.fifo.tail := by simpa [fifoFull] using hf
      omega
    simp [fifoPush, hf, dropOldest, memRead, ht, storeAtHead, memWrite, h, raiseEvent, recordEvent,
      pushedFifo, pushRecords, ferrAfter, cursorNext]
  · simp [fifoPush, hf, storeAtHead, memWrite, h, pushedFifo, pushRecords, cursorNext]

/-- `fifo_push` at or above C stops on the slot that does not exist. -/
theorem fifoPush_error (b : Byte) (s : State) (h : ¬ s.fifo.head < s.cfg.capacity) :
    fifoPush b s = .error (.slotOutOfRange s.fifo.head) := by
  by_cases hf : fifoFull s
  · have ht : s.fifo.tail < s.cfg.capacity := by
      have hn := cursorNext_lt s s.fifo.head
      have : cursorNext s s.fifo.head = s.fifo.tail := by simpa [fifoFull] using hf
      omega
    simp [fifoPush, hf, dropOldest, memRead, ht, storeAtHead, memWrite, h, raiseEvent, recordEvent]
  · simp [fifoPush, hf, storeAtHead, memWrite, h]

/-- If `fifo_push` answers a state, it is the state of `fifoPush_eq`. -/
theorem fifoPush_ok {b : Byte} {s t : State} (h : fifoPush b s = .ok t) :
    s.fifo.head < s.cfg.capacity ∧
      t = { s with fifo := pushedFifo b s, hist := s.hist ++ pushRecords s } := by
  by_cases hh : s.fifo.head < s.cfg.capacity
  · rw [fifoPush_eq b s hh] at h
    exact ⟨hh, (Except.ok.inj h).symm⟩
  · rw [fifoPush_error b s hh] at h
    cases h

/-- What a pop of a non-empty FIFO leaves (R123): the slot zeroed, `tail` one on. -/
def poppedFifo (s : State) : Fifo :=
  { storage := Memory.write s.fifo.storage s.fifo.tail 0
    head := s.fifo.head
    tail := cursorNext s s.fifo.tail }

/-- `fifo_pop` of an empty FIFO (R123). -/
theorem fifoPop_empty (s : State) (h : s.fifo.head = s.fifo.tail) : fifoPop s = .ok (none, s) := by
  simp [fifoPop, fifoEmpty, h]

/-- `fifo_pop` of a non-empty FIFO below C (R123). -/
theorem fifoPop_eq (s : State) (h : s.fifo.head ≠ s.fifo.tail) (ht : s.fifo.tail < s.cfg.capacity) :
    fifoPop s = .ok (some (Memory.read s.fifo.storage s.fifo.tail), { s with fifo := poppedFifo s }) := by
  simp [fifoPop, fifoEmpty, h, memRead, memWrite, ht, poppedFifo]

/-- If `fifo_pop` answers, it is one of the two cases above. -/
theorem fifoPop_ok {s t : State} {r : Option Byte} (h : fifoPop s = .ok (r, t)) :
    (s.fifo.head = s.fifo.tail ∧ r = none ∧ t = s) ∨
    (s.fifo.head ≠ s.fifo.tail ∧ s.fifo.tail < s.cfg.capacity ∧
      r = some (Memory.read s.fifo.storage s.fifo.tail) ∧ t = { s with fifo := poppedFifo s }) := by
  by_cases he : s.fifo.head = s.fifo.tail
  · rw [fifoPop_empty s he] at h
    cases h
    exact .inl ⟨he, rfl, rfl⟩
  · by_cases ht : s.fifo.tail < s.cfg.capacity
    · rw [fifoPop_eq s he ht] at h
      cases h
      exact .inr ⟨he, ht, rfl, rfl⟩
    · simp [fifoPop, fifoEmpty, he, memRead, ht] at h

end Sys2Proof.Machine
end

