-- ==== Sys2Proof/Laws/Exec.lean ====
section
/-! SUPPORT. One inversion lemma per meaning: if it answers a next state, it is one of these. The simp set
of Laws/State.lean reads the fields off the named updates. -/

namespace Sys2Proof.Machine

theorem not_up_iff (s : State) : s.life ≠ .up ↔ s.life = .down := by
  cases s.life <;> simp

theorem execTxstart_next {b : Byte} {s t : State} (h : execTxstart b s = .next t) :
    (s.life = .down ∧ t = refuseWrite s) ∨
    (s.life = .up ∧ s.txTimer.armed = true ∧
      t = hostDone (.txstart b) none (corruptTx (recordFault .txOverlap s))) ∨
    (s.life = .up ∧ s.txTimer.armed = false ∧ t = hostDone (.txstart b) none (loadTx b s)) := by
  unfold execTxstart at h
  split at h
  · split at h <;> cases h <;> simp_all
  · cases h; simp_all [not_up_iff]

theorem execTxwait_next {d : Byte} {s t : State} (h : execTxwait d s = .next t) :
    (s.life = .down ∧ t = refuseRead s) ∨
    (s.life = .up ∧ s.tx.doneSignal = true ∧ t = hostDone (.txwait d) (some waitAnswer) s) ∨
    (s.life = .up ∧ s.tx.doneSignal = false ∧ t = holdWait d s) := by
  unfold execTxwait at h
  split at h
  · split at h <;> cases h <;> simp_all
  · cases h; simp_all [not_up_iff]

theorem execRxpop_next {d : Byte} {s t : State} (h : execRxpop d s = .next t) :
    (s.life = .down ∧ t = refuseRead s) ∨
    (s.life = .up ∧ s.fifo.head = s.fifo.tail ∧ t = hostDone (.rxpop d) (some 0) s) ∨
    (s.life = .up ∧ s.fifo.head ≠ s.fifo.tail ∧ s.fifo.tail < s.cfg.capacity ∧
      t = hostDone (.rxpop d) (some (popAnswer (some (Memory.read s.fifo.storage s.fifo.tail))))
        { s with fifo := poppedFifo s }) := by
  unfold execRxpop at h
  split at h
  · split at h
    · cases h
    · rename_i hp
      cases h
      rcases fifoPop_ok hp with ⟨he, rfl, rfl⟩ | ⟨he, ht, rfl, rfl⟩
      · simp_all [popAnswer]
      · simp_all
  · cases h; simp_all [not_up_iff]

theorem execRdstat_next {d : Byte} {s t : State} (h : execRdstat d s = .next t) :
    t = hostDone (.rdstat d) (some (status s)) s := by
  cases h; rfl

theorem execRdcntok_next {d : Byte} {s t : State} (h : execRdcntok d s = .next t) :
    (s.life = .down ∧ t = refuseRead s) ∨
    (s.life = .up ∧ t = hostDone (.rdcntok d) (some s.cntRxOk) s) := by
  unfold execRdcntok at h
  split at h <;> cases h <;> simp_all [not_up_iff]

theorem execRdcntfe_next {d : Byte} {s t : State} (h : execRdcntfe d s = .next t) :
    (s.life = .down ∧ t = refuseRead s) ∨
    (s.life = .up ∧ t = hostDone (.rdcntfe d) (some s.cntRxFerr) s) := by
  unfold execRdcntfe at h
  split at h <;> cases h <;> simp_all [not_up_iff]

theorem execInit_next {s t : State} (h : execInit s = .next t) :
    (s.life = .up ∧ t = refuseWrite s) ∨
    (s.life = .down ∧ s.initDraw = .ok ∧ t = initOk s) ∨
    (s.life = .down ∧ s.initDraw = .mapFail ∧ t = initMapFail s) ∨
    (s.life = .down ∧ s.initDraw = .irqFail ∧ t = initIrqFail s) := by
  unfold execInit at h
  split at h
  · cases h; simp_all
  · split at h <;> cases h <;> simp_all [not_up_iff]

theorem execTeardown_next {s t : State} (h : execTeardown s = .next t) :
    (s.life = .down ∧ t = refuseWrite s) ∨
    (s.life = .up ∧ t = hostDone .teardown none (bringDown s)) := by
  unfold execTeardown at h
  split at h <;> cases h <;> simp_all [not_up_iff]

/-- What a firing of the TX timer does, by the state on entry (R138). -/
theorem txFire_cases (s : State) :
    (s.tx.bitIndex = .start ∧ txFire s = txShift false s) ∨
    (∃ i, s.tx.bitIndex = .data i ∧ txFire s = txShift (s.tx.targetByte.getLsbD i.val) s) ∨
    (s.tx.bitIndex = .stop ∧ txFire s = txShift true s) ∨
    (s.tx.bitIndex = .done ∧ txFire s = txFinish s) := by
  unfold txFire
  split <;> simp_all

/-- Every firing is a shift, but for the terminal one. -/
theorem txFire_shift_or_finish (s : State) :
    (s.tx.bitIndex ≠ .done ∧ ∃ v, txFire s = txShift v s) ∨
    (s.tx.bitIndex = .done ∧ txFire s = txFinish s) := by
  rcases txFire_cases s with ⟨h, e⟩ | ⟨i, h, e⟩ | ⟨h, e⟩ | ⟨h, e⟩
  · exact .inl ⟨by simp [h], _, e⟩
  · exact .inl ⟨by simp [h], _, e⟩
  · exact .inl ⟨by simp [h], _, e⟩
  · exact .inr ⟨h, e⟩

theorem timerDue_iff (s : State) (t : Timer) :
    timerDue s t = true ↔ s.life = .up ∧ t.armed = true ∧ t.deadline ≤ s.now := by
  simp [timerDue, isUp, and_assoc]

theorem txTickEnabled_iff (s : State) :
    txTickEnabled s = true ↔ s.life = .up ∧ s.txTimer.armed = true ∧ s.txTimer.deadline ≤ s.now :=
  timerDue_iff s s.txTimer

theorem rxTickEnabled_iff (s : State) :
    rxTickEnabled s = true ↔ s.life = .up ∧ s.rxTimer.armed = true ∧ s.rxTimer.deadline ≤ s.now :=
  timerDue_iff s s.rxTimer

theorem rxEdgeEnabled_iff (s : State) :
    rxEdgeEnabled s = true ↔ s.life = .up ∧ s.rxEdgePending = true := by
  simp [rxEdgeEnabled, isUp]

theorem edgeCaught_iff (s : State) (v : Bool) :
    edgeCaught s v = true ↔ s.life = .up ∧ s.rxIn = true ∧ v = false ∧ s.rxIrqEn = true ∧
      s.rxEdgePending = false := by
  simp [edgeCaught, isUp, and_assoc]

theorem execTxtick_next {s t : State} (h : execTxtick s = .next t) :
    (txTickEnabled s = false ∧ t = s) ∨
    (txTickEnabled s = true ∧ t = logOp .txtick none (driveOf s (txFire s)) (txFire s)) := by
  unfold execTxtick at h
  split at h <;> cases h <;> simp_all

theorem execLine_next {v : Bool} {s t : State} (h : execLine v s = .next t) :
    t = logOp (.line v) none none (driveLine v s) := by
  cases h; rfl

theorem execRxedge_next {s t : State} (h : execRxedge s = .next t) :
    (rxEdgeEnabled s = false ∧ t = s) ∨
    (rxEdgeEnabled s = true ∧ s.rx.active = true ∧
      t = logOp .rxedge none none { s with rxEdgePending := false }) ∨
    (rxEdgeEnabled s = true ∧ s.rx.active = false ∧
      t = logOp .rxedge none none (startFrame { s with rxEdgePending := false })) := by
  unfold execRxedge handleEdge at h
  split at h
  · split at h <;> cases h <;> simp_all
  · cases h; simp_all

/-- The state after an accepted frame (R163). -/
def acceptedState (s : State) : State :=
  endFrame (recordEvent (.frameOk s.rx.accumulator)
    { s with fifo := pushedFifo s.rx.accumulator s, hist := s.hist ++ pushRecords s,
             cntRxOk := s.cntRxOk + 1 })

/-- The state after a framing error (R163). -/
def droppedState (s : State) : State :=
  endFrame (raiseEvent (.framingError s.rx.accumulator) s)

theorem stopCheck_accept (s : State) (hv : s.rxIn = true) (h : s.fifo.head < s.cfg.capacity) :
    stopCheck s = .ok (acceptedState s) := by
  simp [stopCheck, pinRead, hv, acceptFrame, fifoPush_eq _ s h, acceptedState]

theorem stopCheck_drop (s : State) (hv : s.rxIn = false) : stopCheck s = .ok (droppedState s) := by
  simp [stopCheck, pinRead, hv, droppedState]

theorem stopCheck_ok {s t : State} (h : stopCheck s = .ok t) :
    (s.rxIn = true ∧ s.fifo.head < s.cfg.capacity ∧ t = acceptedState s) ∨
    (s.rxIn = false ∧ t = droppedState s) := by
  cases hv : s.rxIn with
  | false =>
    rw [stopCheck_drop s hv] at h
    exact .inr ⟨rfl, (Except.ok.inj h).symm⟩
  | true =>
    by_cases hh : s.fifo.head < s.cfg.capacity
    · rw [stopCheck_accept s hv hh] at h
      exact .inl ⟨rfl, hh, (Except.ok.inj h).symm⟩
    · simp [stopCheck, pinRead, hv, acceptFrame, fifoPush_error _ s hh] at h

/-- What RXTICK can answer (R161): nothing taken, a sample, an accepted frame, or a dropped one. -/
theorem execRxtick_next {s t : State} (h : execRxtick s = .next t) :
    (rxTickEnabled s = false ∧ t = s) ∨
    (rxTickEnabled s = true ∧ ∃ hc : s.rx.bitCount.val < 8,
      t = sampleBit (logOp .rxtick none none s) hc) ∨
    (rxTickEnabled s = true ∧ ¬ s.rx.bitCount.val < 8 ∧ s.rxIn = true ∧
      s.fifo.head < s.cfg.capacity ∧ t = acceptedState (logOp .rxtick none none s)) ∨
    (rxTickEnabled s = true ∧ ¬ s.rx.bitCount.val < 8 ∧ s.rxIn = false ∧
      t = droppedState (logOp .rxtick none none s)) := by
  unfold execRxtick rxFire at h
  split at h
  · rename_i he
    split at h
    · cases h
    · rename_i hr
      cases h
      split at hr
      · rename_i hc
        exact .inr (.inl ⟨he, hc, (Except.ok.inj hr).symm⟩)
      · rename_i hc
        rcases stopCheck_ok hr with ⟨hv, hh, e⟩ | ⟨hv, e⟩
        · exact .inr (.inr (.inl ⟨he, hc, hv, hh, e⟩))
        · exact .inr (.inr (.inr ⟨he, hc, hv, e⟩))
  · cases h; simp_all

theorem execRxtick_sample (s : State) (he : rxTickEnabled s = true) (hc : s.rx.bitCount.val < 8) :
    execRxtick s = .next (sampleBit (logOp .rxtick none none s) hc) := by
  simp [execRxtick, he, rxFire, hc]

theorem execRxtick_accept (s : State) (he : rxTickEnabled s = true) (hc : ¬ s.rx.bitCount.val < 8)
    (hv : s.rxIn = true) (hh : s.fifo.head < s.cfg.capacity) :
    execRxtick s = .next (acceptedState (logOp .rxtick none none s)) := by
  simp [execRxtick, he, rxFire, hc, stopCheck_accept (logOp .rxtick none none s) hv hh]

theorem execRxtick_drop (s : State) (he : rxTickEnabled s = true) (hc : ¬ s.rx.bitCount.val < 8)
    (hv : s.rxIn = false) :
    execRxtick s = .next (droppedState (logOp .rxtick none none s)) := by
  simp [execRxtick, he, rxFire, hc, stopCheck_drop (logOp .rxtick none none s) hv]

/-- ORing a sample into bit `c` changes that bit alone (R162). -/
theorem accumulate_bit (acc : Byte) (v : Bool) (c k : Fin 8) :
    (accumulate acc v c.val).getLsbD k.val =
      (acc.getLsbD k.val || (decide (k.val = c.val) && v)) := by
  unfold accumulate levelBit
  rw [BitVec.getLsbD_or, BitVec.getLsbD_shiftLeft]
  have := k.isLt
  congr 1
  rcases Nat.lt_trichotomy k.val c.val with h | h | h
  · have : ¬ k.val = c.val := by omega
    simp [h, this]
  · rw [h]; cases v <;> simp
  · have h' : ¬ k.val = c.val := by omega
    cases v <;> simp [h', Nat.not_lt.mpr (Nat.le_of_lt h), this]
    omega

/-- An operation leaves the calls of WRITE and READ, the schedule and the environment's draw alone, and holds at most
its own caller. -/
theorem exec_callers {i : Instr} {s t : State} (h : exec i s = .next t) :
    t.writes = s.writes ∧ t.returned = s.returned ∧ t.inputs = s.inputs ∧ t.initDraw = s.initDraw ∧
    t.reads = s.reads ∧ t.delivered = s.delivered ∧ ∃ l, t.held = s.held ++ l := by
  cases i <;> simp only [exec] at h
  · rcases execTxstart_next h with ⟨_, rfl⟩ | ⟨_, _, rfl⟩ | ⟨_, _, rfl⟩ <;> simp
  · rcases execTxwait_next h with ⟨_, rfl⟩ | ⟨_, _, rfl⟩ | ⟨_, _, rfl⟩ <;> simp
  · rcases execRxpop_next h with ⟨_, rfl⟩ | ⟨_, _, rfl⟩ | ⟨_, _, _, rfl⟩ <;> simp
  · rw [execRdstat_next h]; simp
  · rcases execInit_next h with ⟨_, rfl⟩ | ⟨_, _, rfl⟩ | ⟨_, _, rfl⟩ | ⟨_, _, rfl⟩ <;>
      simp [initOk, initMapFail, initIrqFail]
  · rcases execTeardown_next h with ⟨_, rfl⟩ | ⟨_, rfl⟩ <;> simp
  · rcases execRdcntok_next h with ⟨_, rfl⟩ | ⟨_, rfl⟩ <;> simp
  · rcases execRdcntfe_next h with ⟨_, rfl⟩ | ⟨_, rfl⟩ <;> simp
  · rcases execTxtick_next h with ⟨_, rfl⟩ | ⟨_, rfl⟩
    · simp
    · rcases txFire_shift_or_finish s with ⟨_, v, e⟩ | ⟨_, e⟩ <;> simp [e]
  · rcases execRxedge_next h with ⟨_, rfl⟩ | ⟨_, _, rfl⟩ | ⟨_, _, rfl⟩ <;> simp
  · rcases execRxtick_next h with ⟨_, rfl⟩ | ⟨_, hc, rfl⟩ | ⟨_, _, _, _, rfl⟩ | ⟨_, _, _, rfl⟩ <;>
      simp [acceptedState, droppedState, sampleBit]
  · rw [execLine_next h]; simp

end Sys2Proof.Machine
end

