-- ==== Sys2Proof/Laws/Holds.lean ====
section
/-! SUPPORT. What the lifting of holds can do (R143, R180): completions of held TXWAITs and returns of WRITE
calls, and no other field of State; and what a call of WRITE or READ leaves alone. -/

namespace Sys2Proof.Machine

/-- The completions in one: a record each, and the port at the last answer. -/
theorem completeWaits_eq (ds : List Byte) (s : State) :
    completeWaits ds s =
      { s with
        hist := s.hist ++ ds.map (fun d =>
          .op { time := s.now, agent := .host, code := encode (.txwait d), operand := none,
                result := some waitAnswer, drive := none })
        hReady := s.hReady || !ds.isEmpty
        hRdata := if ds = [] then s.hRdata else some waitAnswer } := by
  induction ds generalizing s with
  | nil => simp [completeWaits]
  | cons d ds ih =>
    rw [completeWaits, ih]
    cases ds <;> simp [hostDone, respond, logOp, agentOf, operandOf]

/-- What lifting does when it does something. -/
theorem liftHolds_lifted (s : State) (hu : s.life = .up) (hd : s.tx.doneSignal = true) :
    liftHolds s =
      { s with
        hist := s.hist ++ s.held.map (fun d =>
          .op { time := s.now, agent := .host, code := encode (.txwait d), operand := none,
                result := some waitAnswer, drive := none })
        hReady := s.hReady || !s.held.isEmpty
        hRdata := if s.held = [] then s.hRdata else some waitAnswer
        held := []
        writes := (s.writes.map WriteCall.unblock).filter (fun c => !c.finished)
        returned := s.returned ++ ((s.writes.map WriteCall.unblock).filter (fun c => c.finished)).map
          (fun c => (s.now, c.sent)) } := by
  rw [liftHolds, if_pos ⟨hu, hd⟩, completeWaits_eq]
  rfl

theorem liftHolds_not (s : State) (h : ¬ (s.life = .up ∧ s.tx.doneSignal = true)) : liftHolds s = s := by
  rw [liftHolds, if_neg h]

/-- A call that is not blocked is left as it is. -/
theorem unblock_not_held (c : WriteCall) (h : c.phase ≠ .held) : c.unblock = c := by
  rw [WriteCall.unblock, if_neg h]

theorem unblock_phase (c : WriteCall) : c.unblock.phase ≠ .held := by
  unfold WriteCall.unblock
  split
  · simp
  · assumption

theorem unblock_total (c : WriteCall) : c.unblock.total = c.total := by
  unfold WriteCall.unblock WriteCall.total
  split
  · simp [*]; omega
  · rfl

/-- Where no caller is held and no call is done there is nothing to lift. -/
theorem liftHolds_none (s : State) (hh : s.held = [])
    (hw : ∀ c ∈ s.writes, c.phase ≠ .held ∧ c.finished = false) : liftHolds s = s := by
  by_cases h : s.life = .up ∧ s.tx.doneSignal = true
  · have hm : s.writes.map WriteCall.unblock = s.writes := by
      conv => rhs; rw [← List.map_id s.writes]
      exact List.map_congr_left (fun c hc => unblock_not_held c (hw c hc).1)
    have hn : s.writes.filter (fun c => !c.finished) = s.writes :=
      List.filter_eq_self.mpr (fun c hc => by simp [(hw c hc).2])
    have hf : s.writes.filter (fun c => c.finished) = [] :=
      List.filter_eq_nil_iff.mpr (fun c hc => by simp [(hw c hc).2])
    rw [liftHolds_lifted s h.1 h.2, hm, hn, hf]
    simp [hh]
    rw [← hh]
  · exact liftHolds_not s h

/-- Of calls that are not done, one of which moves on, only that one can be done. -/
theorem filter_set_call (ws : List WriteCall) (k : Nat) (c : WriteCall) (hk : k < ws.length)
    (hw : ∀ x ∈ ws, x.finished = false) :
    (ws.set k c).filter (fun x => !x.finished) = (if c.finished then ws.eraseIdx k else ws.set k c) ∧
    (ws.set k c).filter (fun x => x.finished) = (if c.finished then [c] else []) := by
  induction ws generalizing k with
  | nil => simp at hk
  | cons x xs ih =>
    have hx := hw x (by simp)
    have hxs : ∀ y ∈ xs, y.finished = false := fun y hy => hw y (by simp [hy])
    cases k with
    | zero =>
      have h1 : xs.filter (fun y => !y.finished) = xs := List.filter_eq_self.mpr (fun y hy => by simp [hxs y hy])
      have h2 : xs.filter (fun y => y.finished) = [] :=
        List.filter_eq_nil_iff.mpr (fun y hy => by simp [hxs y hy])
      cases hc : c.finished <;> simp [hc, h1, h2]
    | succ k =>
      obtain ⟨h1, h2⟩ := ih k (by simpa using hk) hxs
      rw [List.set_cons_succ, List.filter_cons, List.filter_cons, h1, h2]
      cases c.finished <;> simp [hx]

/-- Where the element at `k` is not one of those kept, changing or removing it keeps all of them. -/
theorem filter_sublist_set {α : Type} (p : α → Bool) (l : List α) (k : Nat) (a b : α) (hk : l[k]? = some a)
    (ha : p a = false) : (l.filter p).Sublist ((l.set k b).filter p) := by
  induction l generalizing k with
  | nil => simp
  | cons x xs ih =>
    cases k with
    | zero =>
      obtain rfl : x = a := by simpa using hk
      rw [List.set_cons_zero, List.filter_cons, if_neg (by simp [ha]), List.filter_cons]
      split
      · exact List.sublist_cons_self _ _
      · exact List.Sublist.refl _
    | succ k =>
      rw [List.set_cons_succ, List.filter_cons, List.filter_cons]
      split
      · exact (ih k (by simpa using hk)).cons_cons _
      · exact ih k (by simpa using hk)

theorem filter_eraseIdx {α : Type} (p : α → Bool) (l : List α) (k : Nat) (a : α) (hk : l[k]? = some a)
    (ha : p a = false) : (l.eraseIdx k).filter p = l.filter p := by
  induction l generalizing k with
  | nil => simp
  | cons x xs ih =>
    cases k with
    | zero =>
      obtain rfl : x = a := by simpa using hk
      simp [ha]
    | succ k => simp [List.filter_cons, ih k (by simpa using hk)]

/-! ### The fields that lifting and calling leave alone -/

@[simp] theorem returnWrites_cfg (s : State) : (returnWrites s).cfg = s.cfg := rfl
@[simp] theorem liftHolds_cfg (s : State) : (liftHolds s).cfg = s.cfg := by
  unfold liftHolds
  split <;> simp [completeWaits_eq]
@[simp] theorem callWrite_cfg (bs : List Byte) (s : State) : (callWrite bs s).cfg = s.cfg := by
  unfold callWrite
  repeat (first | rfl | split)
@[simp] theorem callRead_cfg (n : Nat) (s : State) : (callRead n s).cfg = s.cfg := by
  unfold callRead
  repeat (first | rfl | split)
@[simp] theorem deliver_cfg (k : Nat) (c : ReadCall) (s : State) : (deliver k c s).cfg = s.cfg := by
  unfold deliver
  split <;> rfl

@[simp] theorem returnWrites_life (s : State) : (returnWrites s).life = s.life := rfl
@[simp] theorem liftHolds_life (s : State) : (liftHolds s).life = s.life := by
  unfold liftHolds
  split <;> simp [completeWaits_eq]
@[simp] theorem callWrite_life (bs : List Byte) (s : State) : (callWrite bs s).life = s.life := by
  unfold callWrite
  repeat (first | rfl | split)
@[simp] theorem callRead_life (n : Nat) (s : State) : (callRead n s).life = s.life := by
  unfold callRead
  repeat (first | rfl | split)
@[simp] theorem deliver_life (k : Nat) (c : ReadCall) (s : State) : (deliver k c s).life = s.life := by
  unfold deliver
  split <;> rfl

@[simp] theorem returnWrites_lastErr (s : State) : (returnWrites s).lastErr = s.lastErr := rfl
@[simp] theorem liftHolds_lastErr (s : State) : (liftHolds s).lastErr = s.lastErr := by
  unfold liftHolds
  split <;> simp [completeWaits_eq]
@[simp] theorem callWrite_lastErr (bs : List Byte) (s : State) : (callWrite bs s).lastErr = s.lastErr := by
  unfold callWrite
  repeat (first | rfl | split)
@[simp] theorem callRead_lastErr (n : Nat) (s : State) : (callRead n s).lastErr = s.lastErr := by
  unfold callRead
  repeat (first | rfl | split)
@[simp] theorem deliver_lastErr (k : Nat) (c : ReadCall) (s : State) : (deliver k c s).lastErr = s.lastErr := by
  unfold deliver
  split <;> rfl

@[simp] theorem returnWrites_tx (s : State) : (returnWrites s).tx = s.tx := rfl
@[simp] theorem liftHolds_tx (s : State) : (liftHolds s).tx = s.tx := by
  unfold liftHolds
  split <;> simp [completeWaits_eq]
@[simp] theorem callWrite_tx (bs : List Byte) (s : State) : (callWrite bs s).tx = s.tx := by
  unfold callWrite
  repeat (first | rfl | split)
@[simp] theorem callRead_tx (n : Nat) (s : State) : (callRead n s).tx = s.tx := by
  unfold callRead
  repeat (first | rfl | split)
@[simp] theorem deliver_tx (k : Nat) (c : ReadCall) (s : State) : (deliver k c s).tx = s.tx := by
  unfold deliver
  split <;> rfl

@[simp] theorem returnWrites_txTimer (s : State) : (returnWrites s).txTimer = s.txTimer := rfl
@[simp] theorem liftHolds_txTimer (s : State) : (liftHolds s).txTimer = s.txTimer := by
  unfold liftHolds
  split <;> simp [completeWaits_eq]
@[simp] theorem callWrite_txTimer (bs : List Byte) (s : State) : (callWrite bs s).txTimer = s.txTimer := by
  unfold callWrite
  repeat (first | rfl | split)
@[simp] theorem callRead_txTimer (n : Nat) (s : State) : (callRead n s).txTimer = s.txTimer := by
  unfold callRead
  repeat (first | rfl | split)
@[simp] theorem deliver_txTimer (k : Nat) (c : ReadCall) (s : State) : (deliver k c s).txTimer = s.txTimer := by
  unfold deliver
  split <;> rfl

@[simp] theorem returnWrites_rx (s : State) : (returnWrites s).rx = s.rx := rfl
@[simp] theorem liftHolds_rx (s : State) : (liftHolds s).rx = s.rx := by
  unfold liftHolds
  split <;> simp [completeWaits_eq]
@[simp] theorem callWrite_rx (bs : List Byte) (s : State) : (callWrite bs s).rx = s.rx := by
  unfold callWrite
  repeat (first | rfl | split)
@[simp] theorem callRead_rx (n : Nat) (s : State) : (callRead n s).rx = s.rx := by
  unfold callRead
  repeat (first | rfl | split)
@[simp] theorem deliver_rx (k : Nat) (c : ReadCall) (s : State) : (deliver k c s).rx = s.rx := by
  unfold deliver
  split <;> rfl

@[simp] theorem returnWrites_rxIrqEn (s : State) : (returnWrites s).rxIrqEn = s.rxIrqEn := rfl
@[simp] theorem liftHolds_rxIrqEn (s : State) : (liftHolds s).rxIrqEn = s.rxIrqEn := by
  unfold liftHolds
  split <;> simp [completeWaits_eq]
@[simp] theorem callWrite_rxIrqEn (bs : List Byte) (s : State) : (callWrite bs s).rxIrqEn = s.rxIrqEn := by
  unfold callWrite
  repeat (first | rfl | split)
@[simp] theorem callRead_rxIrqEn (n : Nat) (s : State) : (callRead n s).rxIrqEn = s.rxIrqEn := by
  unfold callRead
  repeat (first | rfl | split)
@[simp] theorem deliver_rxIrqEn (k : Nat) (c : ReadCall) (s : State) : (deliver k c s).rxIrqEn = s.rxIrqEn := by
  unfold deliver
  split <;> rfl

@[simp] theorem returnWrites_rxEdgePending (s : State) : (returnWrites s).rxEdgePending = s.rxEdgePending := rfl
@[simp] theorem liftHolds_rxEdgePending (s : State) : (liftHolds s).rxEdgePending = s.rxEdgePending := by
  unfold liftHolds
  split <;> simp [completeWaits_eq]
@[simp] theorem callWrite_rxEdgePending (bs : List Byte) (s : State) : (callWrite bs s).rxEdgePending = s.rxEdgePending := by
  unfold callWrite
  repeat (first | rfl | split)
@[simp] theorem callRead_rxEdgePending (n : Nat) (s : State) : (callRead n s).rxEdgePending = s.rxEdgePending := by
  unfold callRead
  repeat (first | rfl | split)
@[simp] theorem deliver_rxEdgePending (k : Nat) (c : ReadCall) (s : State) : (deliver k c s).rxEdgePending = s.rxEdgePending := by
  unfold deliver
  split <;> rfl

@[simp] theorem returnWrites_rxEdgeTime (s : State) : (returnWrites s).rxEdgeTime = s.rxEdgeTime := rfl
@[simp] theorem liftHolds_rxEdgeTime (s : State) : (liftHolds s).rxEdgeTime = s.rxEdgeTime := by
  unfold liftHolds
  split <;> simp [completeWaits_eq]
@[simp] theorem callWrite_rxEdgeTime (bs : List Byte) (s : State) : (callWrite bs s).rxEdgeTime = s.rxEdgeTime := by
  unfold callWrite
  repeat (first | rfl | split)
@[simp] theorem callRead_rxEdgeTime (n : Nat) (s : State) : (callRead n s).rxEdgeTime = s.rxEdgeTime := by
  unfold callRead
  repeat (first | rfl | split)
@[simp] theorem deliver_rxEdgeTime (k : Nat) (c : ReadCall) (s : State) : (deliver k c s).rxEdgeTime = s.rxEdgeTime := by
  unfold deliver
  split <;> rfl

@[simp] theorem returnWrites_rxTimer (s : State) : (returnWrites s).rxTimer = s.rxTimer := rfl
@[simp] theorem liftHolds_rxTimer (s : State) : (liftHolds s).rxTimer = s.rxTimer := by
  unfold liftHolds
  split <;> simp [completeWaits_eq]
@[simp] theorem callWrite_rxTimer (bs : List Byte) (s : State) : (callWrite bs s).rxTimer = s.rxTimer := by
  unfold callWrite
  repeat (first | rfl | split)
@[simp] theorem callRead_rxTimer (n : Nat) (s : State) : (callRead n s).rxTimer = s.rxTimer := by
  unfold callRead
  repeat (first | rfl | split)
@[simp] theorem deliver_rxTimer (k : Nat) (c : ReadCall) (s : State) : (deliver k c s).rxTimer = s.rxTimer := by
  unfold deliver
  split <;> rfl

@[simp] theorem returnWrites_fifo (s : State) : (returnWrites s).fifo = s.fifo := rfl
@[simp] theorem liftHolds_fifo (s : State) : (liftHolds s).fifo = s.fifo := by
  unfold liftHolds
  split <;> simp [completeWaits_eq]
@[simp] theorem callWrite_fifo (bs : List Byte) (s : State) : (callWrite bs s).fifo = s.fifo := by
  unfold callWrite
  repeat (first | rfl | split)
@[simp] theorem callRead_fifo (n : Nat) (s : State) : (callRead n s).fifo = s.fifo := by
  unfold callRead
  repeat (first | rfl | split)
@[simp] theorem deliver_fifo (k : Nat) (c : ReadCall) (s : State) : (deliver k c s).fifo = s.fifo := by
  unfold deliver
  split <;> rfl

@[simp] theorem returnWrites_cntRxOk (s : State) : (returnWrites s).cntRxOk = s.cntRxOk := rfl
@[simp] theorem liftHolds_cntRxOk (s : State) : (liftHolds s).cntRxOk = s.cntRxOk := by
  unfold liftHolds
  split <;> simp [completeWaits_eq]
@[simp] theorem callWrite_cntRxOk (bs : List Byte) (s : State) : (callWrite bs s).cntRxOk = s.cntRxOk := by
  unfold callWrite
  repeat (first | rfl | split)
@[simp] theorem callRead_cntRxOk (n : Nat) (s : State) : (callRead n s).cntRxOk = s.cntRxOk := by
  unfold callRead
  repeat (first | rfl | split)
@[simp] theorem deliver_cntRxOk (k : Nat) (c : ReadCall) (s : State) : (deliver k c s).cntRxOk = s.cntRxOk := by
  unfold deliver
  split <;> rfl

@[simp] theorem returnWrites_cntRxFerr (s : State) : (returnWrites s).cntRxFerr = s.cntRxFerr := rfl
@[simp] theorem liftHolds_cntRxFerr (s : State) : (liftHolds s).cntRxFerr = s.cntRxFerr := by
  unfold liftHolds
  split <;> simp [completeWaits_eq]
@[simp] theorem callWrite_cntRxFerr (bs : List Byte) (s : State) : (callWrite bs s).cntRxFerr = s.cntRxFerr := by
  unfold callWrite
  repeat (first | rfl | split)
@[simp] theorem callRead_cntRxFerr (n : Nat) (s : State) : (callRead n s).cntRxFerr = s.cntRxFerr := by
  unfold callRead
  repeat (first | rfl | split)
@[simp] theorem deliver_cntRxFerr (k : Nat) (c : ReadCall) (s : State) : (deliver k c s).cntRxFerr = s.cntRxFerr := by
  unfold deliver
  split <;> rfl

@[simp] theorem returnWrites_txOut (s : State) : (returnWrites s).txOut = s.txOut := rfl
@[simp] theorem liftHolds_txOut (s : State) : (liftHolds s).txOut = s.txOut := by
  unfold liftHolds
  split <;> simp [completeWaits_eq]
@[simp] theorem callWrite_txOut (bs : List Byte) (s : State) : (callWrite bs s).txOut = s.txOut := by
  unfold callWrite
  repeat (first | rfl | split)
@[simp] theorem callRead_txOut (n : Nat) (s : State) : (callRead n s).txOut = s.txOut := by
  unfold callRead
  repeat (first | rfl | split)
@[simp] theorem deliver_txOut (k : Nat) (c : ReadCall) (s : State) : (deliver k c s).txOut = s.txOut := by
  unfold deliver
  split <;> rfl

@[simp] theorem returnWrites_rxIn (s : State) : (returnWrites s).rxIn = s.rxIn := rfl
@[simp] theorem liftHolds_rxIn (s : State) : (liftHolds s).rxIn = s.rxIn := by
  unfold liftHolds
  split <;> simp [completeWaits_eq]
@[simp] theorem callWrite_rxIn (bs : List Byte) (s : State) : (callWrite bs s).rxIn = s.rxIn := by
  unfold callWrite
  repeat (first | rfl | split)
@[simp] theorem callRead_rxIn (n : Nat) (s : State) : (callRead n s).rxIn = s.rxIn := by
  unfold callRead
  repeat (first | rfl | split)
@[simp] theorem deliver_rxIn (k : Nat) (c : ReadCall) (s : State) : (deliver k c s).rxIn = s.rxIn := by
  unfold deliver
  split <;> rfl

@[simp] theorem returnWrites_dirTx (s : State) : (returnWrites s).dirTx = s.dirTx := rfl
@[simp] theorem liftHolds_dirTx (s : State) : (liftHolds s).dirTx = s.dirTx := by
  unfold liftHolds
  split <;> simp [completeWaits_eq]
@[simp] theorem callWrite_dirTx (bs : List Byte) (s : State) : (callWrite bs s).dirTx = s.dirTx := by
  unfold callWrite
  repeat (first | rfl | split)
@[simp] theorem callRead_dirTx (n : Nat) (s : State) : (callRead n s).dirTx = s.dirTx := by
  unfold callRead
  repeat (first | rfl | split)
@[simp] theorem deliver_dirTx (k : Nat) (c : ReadCall) (s : State) : (deliver k c s).dirTx = s.dirTx := by
  unfold deliver
  split <;> rfl

@[simp] theorem returnWrites_dirRx (s : State) : (returnWrites s).dirRx = s.dirRx := rfl
@[simp] theorem liftHolds_dirRx (s : State) : (liftHolds s).dirRx = s.dirRx := by
  unfold liftHolds
  split <;> simp [completeWaits_eq]
@[simp] theorem callWrite_dirRx (bs : List Byte) (s : State) : (callWrite bs s).dirRx = s.dirRx := by
  unfold callWrite
  repeat (first | rfl | split)
@[simp] theorem callRead_dirRx (n : Nat) (s : State) : (callRead n s).dirRx = s.dirRx := by
  unfold callRead
  repeat (first | rfl | split)
@[simp] theorem deliver_dirRx (k : Nat) (c : ReadCall) (s : State) : (deliver k c s).dirRx = s.dirRx := by
  unfold deliver
  split <;> rfl

@[simp] theorem returnWrites_now (s : State) : (returnWrites s).now = s.now := rfl
@[simp] theorem liftHolds_now (s : State) : (liftHolds s).now = s.now := by
  unfold liftHolds
  split <;> simp [completeWaits_eq]
@[simp] theorem callWrite_now (bs : List Byte) (s : State) : (callWrite bs s).now = s.now := by
  unfold callWrite
  repeat (first | rfl | split)
@[simp] theorem callRead_now (n : Nat) (s : State) : (callRead n s).now = s.now := by
  unfold callRead
  repeat (first | rfl | split)
@[simp] theorem deliver_now (k : Nat) (c : ReadCall) (s : State) : (deliver k c s).now = s.now := by
  unfold deliver
  split <;> rfl

@[simp] theorem callWrite_hist (bs : List Byte) (s : State) : (callWrite bs s).hist = s.hist := by
  unfold callWrite
  repeat (first | rfl | split)
@[simp] theorem callRead_hist (n : Nat) (s : State) : (callRead n s).hist = s.hist := by
  unfold callRead
  repeat (first | rfl | split)
@[simp] theorem deliver_hist (k : Nat) (c : ReadCall) (s : State) : (deliver k c s).hist = s.hist := by
  unfold deliver
  split <;> rfl

@[simp] theorem returnWrites_fault (s : State) : (returnWrites s).fault = s.fault := rfl
@[simp] theorem liftHolds_fault (s : State) : (liftHolds s).fault = s.fault := by
  unfold liftHolds
  split <;> simp [completeWaits_eq]
@[simp] theorem callWrite_fault (bs : List Byte) (s : State) : (callWrite bs s).fault = s.fault := by
  unfold callWrite
  repeat (first | rfl | split)
@[simp] theorem callRead_fault (n : Nat) (s : State) : (callRead n s).fault = s.fault := by
  unfold callRead
  repeat (first | rfl | split)
@[simp] theorem deliver_fault (k : Nat) (c : ReadCall) (s : State) : (deliver k c s).fault = s.fault := by
  unfold deliver
  split <;> rfl

@[simp] theorem returnWrites_refused (s : State) : (returnWrites s).refused = s.refused := rfl
@[simp] theorem liftHolds_refused (s : State) : (liftHolds s).refused = s.refused := by
  unfold liftHolds
  split <;> simp [completeWaits_eq]
@[simp] theorem deliver_refused (k : Nat) (c : ReadCall) (s : State) : (deliver k c s).refused = s.refused := by
  unfold deliver
  split <;> rfl

@[simp] theorem callWrite_hReady (bs : List Byte) (s : State) : (callWrite bs s).hReady = s.hReady := by
  unfold callWrite
  repeat (first | rfl | split)
@[simp] theorem callRead_hReady (n : Nat) (s : State) : (callRead n s).hReady = s.hReady := by
  unfold callRead
  repeat (first | rfl | split)
@[simp] theorem deliver_hReady (k : Nat) (c : ReadCall) (s : State) : (deliver k c s).hReady = s.hReady := by
  unfold deliver
  split <;> rfl

@[simp] theorem callWrite_hRdata (bs : List Byte) (s : State) : (callWrite bs s).hRdata = s.hRdata := by
  unfold callWrite
  repeat (first | rfl | split)
@[simp] theorem callRead_hRdata (n : Nat) (s : State) : (callRead n s).hRdata = s.hRdata := by
  unfold callRead
  repeat (first | rfl | split)
@[simp] theorem deliver_hRdata (k : Nat) (c : ReadCall) (s : State) : (deliver k c s).hRdata = s.hRdata := by
  unfold deliver
  split <;> rfl

@[simp] theorem callWrite_held (bs : List Byte) (s : State) : (callWrite bs s).held = s.held := by
  unfold callWrite
  repeat (first | rfl | split)
@[simp] theorem callRead_held (n : Nat) (s : State) : (callRead n s).held = s.held := by
  unfold callRead
  repeat (first | rfl | split)
@[simp] theorem deliver_held (k : Nat) (c : ReadCall) (s : State) : (deliver k c s).held = s.held := by
  unfold deliver
  split <;> rfl

@[simp] theorem callRead_writes (n : Nat) (s : State) : (callRead n s).writes = s.writes := by
  unfold callRead
  repeat (first | rfl | split)
@[simp] theorem deliver_writes (k : Nat) (c : ReadCall) (s : State) : (deliver k c s).writes = s.writes := by
  unfold deliver
  split <;> rfl

@[simp] theorem callRead_returned (n : Nat) (s : State) : (callRead n s).returned = s.returned := by
  unfold callRead
  repeat (first | rfl | split)
@[simp] theorem deliver_returned (k : Nat) (c : ReadCall) (s : State) : (deliver k c s).returned = s.returned := by
  unfold deliver
  split <;> rfl

@[simp] theorem returnWrites_reads (s : State) : (returnWrites s).reads = s.reads := rfl
@[simp] theorem liftHolds_reads (s : State) : (liftHolds s).reads = s.reads := by
  unfold liftHolds
  split <;> simp [completeWaits_eq]
@[simp] theorem callWrite_reads (bs : List Byte) (s : State) : (callWrite bs s).reads = s.reads := by
  unfold callWrite
  repeat (first | rfl | split)

@[simp] theorem returnWrites_delivered (s : State) : (returnWrites s).delivered = s.delivered := rfl
@[simp] theorem liftHolds_delivered (s : State) : (liftHolds s).delivered = s.delivered := by
  unfold liftHolds
  split <;> simp [completeWaits_eq]
@[simp] theorem callWrite_delivered (bs : List Byte) (s : State) : (callWrite bs s).delivered = s.delivered := by
  unfold callWrite
  repeat (first | rfl | split)

@[simp] theorem returnWrites_initDraw (s : State) : (returnWrites s).initDraw = s.initDraw := rfl
@[simp] theorem liftHolds_initDraw (s : State) : (liftHolds s).initDraw = s.initDraw := by
  unfold liftHolds
  split <;> simp [completeWaits_eq]
@[simp] theorem callWrite_initDraw (bs : List Byte) (s : State) : (callWrite bs s).initDraw = s.initDraw := by
  unfold callWrite
  repeat (first | rfl | split)
@[simp] theorem callRead_initDraw (n : Nat) (s : State) : (callRead n s).initDraw = s.initDraw := by
  unfold callRead
  repeat (first | rfl | split)
@[simp] theorem deliver_initDraw (k : Nat) (c : ReadCall) (s : State) : (deliver k c s).initDraw = s.initDraw := by
  unfold deliver
  split <;> rfl

@[simp] theorem returnWrites_inputs (s : State) : (returnWrites s).inputs = s.inputs := rfl
@[simp] theorem liftHolds_inputs (s : State) : (liftHolds s).inputs = s.inputs := by
  unfold liftHolds
  split <;> simp [completeWaits_eq]
@[simp] theorem callWrite_inputs (bs : List Byte) (s : State) : (callWrite bs s).inputs = s.inputs := by
  unfold callWrite
  repeat (first | rfl | split)
@[simp] theorem callRead_inputs (n : Nat) (s : State) : (callRead n s).inputs = s.inputs := by
  unfold callRead
  repeat (first | rfl | split)
@[simp] theorem deliver_inputs (k : Nat) (c : ReadCall) (s : State) : (deliver k c s).inputs = s.inputs := by
  unfold deliver
  split <;> rfl

@[simp] theorem returnWrites_freeIx (s : State) : (returnWrites s).freeIx = s.freeIx := rfl
@[simp] theorem liftHolds_freeIx (s : State) : (liftHolds s).freeIx = s.freeIx := by
  unfold liftHolds
  split <;> simp [completeWaits_eq]
@[simp] theorem callWrite_freeIx (bs : List Byte) (s : State) : (callWrite bs s).freeIx = s.freeIx := by
  unfold callWrite
  repeat (first | rfl | split)
@[simp] theorem callRead_freeIx (n : Nat) (s : State) : (callRead n s).freeIx = s.freeIx := by
  unfold callRead
  repeat (first | rfl | split)
@[simp] theorem deliver_freeIx (k : Nat) (c : ReadCall) (s : State) : (deliver k c s).freeIx = s.freeIx := by
  unfold deliver
  split <;> rfl

end Sys2Proof.Machine
end

