-- ==== Sys2Proof/Laws/PerInstr.lean ====
section
/-! SUPPORT. Per instruction: its code has the format, the fixed bits and the operand field that its row
of spec 30_encoding R82 gives it. -/

namespace Sys2Proof.Laws.TableRow

/-- A host word with the row's match under the row's mask, carrying `d` in bits 7:0. -/
def HostRow (mask pattern : HostWord) (d : Byte) (c : Code) : Prop :=
  ∃ w, c = .h w ∧ w &&& mask = pattern ∧ w.extractLsb' 0 8 = d

/-- An event code with the row's match under the row's mask. -/
def EventRow (mask pattern : EventCode) (c : Code) : Prop := ∃ e, c = .e e ∧ e &&& mask = pattern

/-- The row of R82 that the instruction's code fits. -/
def Statement : Instr → Prop
  | .txstart b => HostRow 0xF00#12 0x800#12 b (encode (.txstart b))
  | .txwait d => HostRow 0xF00#12 0x100#12 d (encode (.txwait d))
  | .rxpop d => HostRow 0xF00#12 0x200#12 d (encode (.rxpop d))
  | .rdstat d => HostRow 0xF00#12 0x300#12 d (encode (.rdstat d))
  | .init => HostRow 0xFFF#12 0xC01#12 0x01#8 (encode .init)
  | .teardown => HostRow 0xFFF#12 0xC00#12 0x00#8 (encode .teardown)
  | .rdcntok d => HostRow 0xF00#12 0x500#12 d (encode (.rdcntok d))
  | .rdcntfe d => HostRow 0xF00#12 0x600#12 d (encode (.rdcntfe d))
  | .txtick => EventRow 0xF#4 0x1#4 (encode .txtick)
  | .rxedge => EventRow 0xF#4 0x2#4 (encode .rxedge)
  | .rxtick => EventRow 0xF#4 0x3#4 (encode .rxtick)
  | .line v => EventRow 0xE#4 0x4#4 (encode (.line v))

theorem txstart (b : Byte) : Statement (.txstart b) := ⟨_, rfl, by revert b; decide, by revert b; decide⟩
theorem txwait (d : Byte) : Statement (.txwait d) := ⟨_, rfl, by revert d; decide, by revert d; decide⟩
theorem rxpop (d : Byte) : Statement (.rxpop d) := ⟨_, rfl, by revert d; decide, by revert d; decide⟩
theorem rdstat (d : Byte) : Statement (.rdstat d) := ⟨_, rfl, by revert d; decide, by revert d; decide⟩
theorem init : Statement .init := ⟨_, rfl, by decide, by decide⟩
theorem teardown : Statement .teardown := ⟨_, rfl, by decide, by decide⟩
theorem rdcntok (d : Byte) : Statement (.rdcntok d) := ⟨_, rfl, by revert d; decide, by revert d; decide⟩
theorem rdcntfe (d : Byte) : Statement (.rdcntfe d) := ⟨_, rfl, by revert d; decide, by revert d; decide⟩
theorem txtick : Statement .txtick := ⟨_, rfl, by decide⟩
theorem rxedge : Statement .rxedge := ⟨_, rfl, by decide⟩
theorem rxtick : Statement .rxtick := ⟨_, rfl, by decide⟩
theorem line (v : Bool) : Statement (.line v) := ⟨_, rfl, by revert v; decide⟩

end Sys2Proof.Laws.TableRow
end

