-- ==== Sys2Proof/Laws/Step.lean ====
section
/-! SUPPORT. What a step can be: the one inversion lemma over the inputs. -/

namespace Sys2Proof.Machine

theorem advanceAllowed_iff (dt : Nat) (s : State) :
    advanceAllowed dt s = true ↔
      1 ≤ dt ∧
      (s.life = .up → s.txTimer.armed = true →
        s.now + dt ≤ s.txTimer.deadline + s.cfg.tickLatMax) ∧
      (s.life = .up → s.rxTimer.armed = true →
        s.now + dt ≤ s.rxTimer.deadline + s.cfg.tickLatMax) ∧
      (s.rxEdgePending = true → s.now + dt ≤ s.rxEdgeTime + s.cfg.edgeLatMax) := by
  simp only [advanceAllowed, timerAllows, edgeAllows, isUp, Bool.and_eq_true, Bool.or_eq_true,
    Bool.not_eq_true', decide_eq_true_eq, and_assoc]
  cases s.life <;> cases s.txTimer.armed <;> cases s.rxTimer.armed <;> cases s.rxEdgePending <;> simp

theorem advanceTime_cases (dt : Nat) (s : State) :
    (advanceAllowed dt s = true ∧ advanceTime dt s = { s with now := s.now + dt }) ∨
    (advanceAllowed dt s = false ∧ advanceTime dt s = s) := by
  unfold advanceTime
  split <;> simp_all

/-- If an input answers a next state, it is an operation's (which for a `WRITE` also moves its loop
variable), a refusal of a reserved word, or one of the steps that are no operations. -/
theorem takeInput_next {x : Input} {s t : State} (h : takeInput x s = .next t) :
    (∃ i w, exec i { s with writes := w } = .next t) ∨ t = refuseWrite s ∨ t = refuseRead s ∨ t = s ∨
    (∃ bs, t = callWrite bs s) ∨ (∃ n, t = callRead n s) ∨
    (∃ k c u, s.reads[k]? = some c ∧ exec (.rxpop 0) s = .next u ∧
      t = deliver k (c.took (u.hRdata.getD 0)) u) ∨
    (∃ dt, t = advanceTime dt s) ∨ (∃ o, t = { s with initDraw := o }) ∨ t = hardwareReset s := by
  cases x with
  | host w =>
    simp only [takeInput, takeHost] at h
    split at h
    · rename_i i _
      exact .inl ⟨i, s.writes, h⟩
    · split at h <;> cases h <;> simp
  | event c =>
    simp only [takeInput, takeEvent] at h
    split at h
    · rename_i i _
      exact .inl ⟨i, s.writes, h⟩
    · cases h
  | write bs => cases h; exact .inr (.inr (.inr (.inr (.inl ⟨bs, rfl⟩))))
  | writer k =>
    simp only [takeInput, writerStep] at h
    split at h
    · cases h; simp
    · split at h
      · cases h; simp
      · rename_i i _
        exact .inl ⟨i, _, h⟩
  | read n => cases h; exact .inr (.inr (.inr (.inr (.inr (.inl ⟨n, rfl⟩)))))
  | reader k =>
    simp only [takeInput, readerStep] at h
    split at h
    · cases h; simp
    · rename_i c hc
      split at h
      · cases h
      · cases h
      · rename_i u hu
        cases h
        exact .inr (.inr (.inr (.inr (.inr (.inr (.inl ⟨k, c, u, hc, hu, rfl⟩))))))
  | advance dt => cases h; exact .inr (.inr (.inr (.inr (.inr (.inr (.inr (.inl ⟨dt, rfl⟩)))))))
  | initDraw o => cases h; exact .inr (.inr (.inr (.inr (.inr (.inr (.inr (.inr (.inl ⟨o, rfl⟩))))))))
  | rst => cases h; simp

/-- What an input does to the calls of WRITE: nothing, a new call, or the next operation of one. -/
theorem takeInput_writes {x : Input} {s t : State} (h : takeInput x s = .next t) :
    (t.writes = s.writes ∧ t.returned = s.returned) ∨
    (∃ bs, x = .write bs ∧ t = callWrite bs s) ∨
    ∃ k c i, x = .writer k ∧ s.writes[k]? = some c ∧ c.nextOp = some i ∧
      exec i { s with writes := if s.life = .up then s.writes.set k c.moved else s.writes.eraseIdx k } =
        .next t ∧
      t.writes = (if s.life = .up then s.writes.set k c.moved else s.writes.eraseIdx k) ∧
      t.returned = s.returned := by
  cases x with
  | host w =>
    simp only [takeInput, takeHost] at h
    split at h
    · exact .inl ⟨(exec_callers h).1, (exec_callers h).2.1⟩
    · split at h <;> cases h <;> exact .inl ⟨rfl, rfl⟩
  | event c =>
    simp only [takeInput, takeEvent] at h
    split at h
    · exact .inl ⟨(exec_callers h).1, (exec_callers h).2.1⟩
    · cases h
  | write bs => cases h; exact .inr (.inl ⟨bs, rfl, rfl⟩)
  | writer k =>
    simp only [takeInput, writerStep] at h
    split at h
    · cases h; exact .inl ⟨rfl, rfl⟩
    · rename_i c hc
      split at h
      · cases h; exact .inl ⟨rfl, rfl⟩
      · rename_i i hi
        exact .inr (.inr ⟨k, c, i, rfl, hc, hi, h, (exec_callers h).1, (exec_callers h).2.1⟩)
  | read n => cases h; exact .inl ⟨callRead_writes n s, callRead_returned n s⟩
  | reader k =>
    simp only [takeInput, readerStep] at h
    split at h
    · cases h; exact .inl ⟨rfl, rfl⟩
    · split at h
      · cases h
      · cases h
      · rename_i u hu
        cases h
        exact .inl ⟨by simpa using (exec_callers hu).1, by simpa using (exec_callers hu).2.1⟩
  | advance dt =>
    cases h
    rcases advanceTime_cases dt s with ⟨_, e⟩ | ⟨_, e⟩ <;> rw [e] <;> exact .inl ⟨rfl, rfl⟩
  | initDraw o => cases h; exact .inl ⟨rfl, rfl⟩
  | rst => cases h; exact .inl ⟨rfl, rfl⟩

/-- No input unblocks a `WRITE`: that is the lifting's. -/
theorem takeInput_blocked {x : Input} {s t : State} (h : takeInput x s = .next t) :
    (s.writes.filter (fun c => c.phase = .held)).Sublist (t.writes.filter (fun c => c.phase = .held)) := by
  rcases takeInput_writes h with ⟨e, _⟩ | ⟨bs, _, rfl⟩ | ⟨k, c, i, _, hc, hi, _, e, _⟩
  · rw [e]
  · unfold callWrite
    split
    · exact List.Sublist.refl _
    · split
      · exact (List.sublist_append_left _ _).filter _
      · exact List.Sublist.refl _
  · have hp : decide (c.phase = .held) = false := by
      unfold WriteCall.nextOp at hi
      split at hi <;> simp_all
    rw [e]
    split
    · exact filter_sublist_set _ _ k c _ hc hp
    · rw [filter_eraseIdx _ _ k c hc hp]

/-- No input returns a count but a call of `WRITE []`. -/
theorem takeInput_returned {x : Input} {s t : State} (h : takeInput x s = .next t) :
    t.returned = s.returned ∨ t.returned = s.returned ++ [(s.now, 0)] := by
  rcases takeInput_writes h with ⟨_, e⟩ | ⟨bs, _, rfl⟩ | ⟨_, _, _, _, _, _, _, _, e⟩
  · exact .inl e
  · unfold callWrite
    split
    · exact .inr rfl
    · split <;> exact .inl rfl
  · exact .inl e

/-- What an input does to the calls of READ: nothing, a new call, or the next pop of one. -/
theorem takeInput_reads {x : Input} {s t : State} (h : takeInput x s = .next t) :
    (t.reads = s.reads ∧ t.delivered = s.delivered) ∨
    (∃ n, x = .read n ∧ t = callRead n s) ∨
    ∃ k c u, x = .reader k ∧ s.reads[k]? = some c ∧ exec (.rxpop 0) s = .next u ∧
      u.reads = s.reads ∧ u.delivered = s.delivered ∧ t = deliver k (c.took (u.hRdata.getD 0)) u := by
  cases x with
  | host w =>
    simp only [takeInput, takeHost] at h
    split at h
    · exact .inl ⟨(exec_callers h).2.2.2.2.1, (exec_callers h).2.2.2.2.2.1⟩
    · split at h <;> cases h <;> exact .inl ⟨rfl, rfl⟩
  | event c =>
    simp only [takeInput, takeEvent] at h
    split at h
    · exact .inl ⟨(exec_callers h).2.2.2.2.1, (exec_callers h).2.2.2.2.2.1⟩
    · cases h
  | write bs => cases h; exact .inl ⟨callWrite_reads bs s, callWrite_delivered bs s⟩
  | writer k =>
    simp only [takeInput, writerStep] at h
    split at h
    · cases h; exact .inl ⟨rfl, rfl⟩
    · split at h
      · cases h; exact .inl ⟨rfl, rfl⟩
      · exact .inl ⟨(exec_callers h).2.2.2.2.1, (exec_callers h).2.2.2.2.2.1⟩
  | read n => cases h; exact .inr (.inl ⟨n, rfl, rfl⟩)
  | reader k =>
    simp only [takeInput, readerStep] at h
    split at h
    · cases h; exact .inl ⟨rfl, rfl⟩
    · rename_i c hc
      split at h
      · cases h
      · cases h
      · rename_i u hu
        cases h
        exact .inr (.inr ⟨k, c, u, rfl, hc, hu, (exec_callers hu).2.2.2.2.1, (exec_callers hu).2.2.2.2.2.1, rfl⟩)
  | advance dt =>
    cases h
    rcases advanceTime_cases dt s with ⟨_, e⟩ | ⟨_, e⟩ <;> rw [e] <;> exact .inl ⟨rfl, rfl⟩
  | initDraw o => cases h; exact .inl ⟨rfl, rfl⟩
  | rst => cases h; exact .inl ⟨rfl, rfl⟩

/-- A call of WRITE or READ changes what belongs to the callers, and the refusal mark. -/
theorem callWrite_outside (bs : List Byte) (s : State) :
    ∃ writes returned refused,
      callWrite bs s = { s with writes := writes, returned := returned, refused := refused } := by
  unfold callWrite
  repeat' split
  all_goals exact ⟨_, _, _, rfl⟩

theorem callRead_outside (n : Nat) (s : State) :
    ∃ reads delivered refused,
      callRead n s = { s with reads := reads, delivered := delivered, refused := refused } := by
  unfold callRead
  repeat' split
  all_goals exact ⟨_, _, _, rfl⟩

theorem deliver_outside (k : Nat) (c : ReadCall) (s : State) :
    ∃ reads delivered, deliver k c s = { s with reads := reads, delivered := delivered } := by
  unfold deliver
  split
  all_goals exact ⟨_, _, rfl⟩

theorem settle_next {o : Host.Outcome State Fault Refusal} {t : State} (h : settle o = .next t) :
    ∃ u, o = .next u ∧ t = liftHolds u := by
  cases o with
  | next u => cases h; exact ⟨u, rfl, rfl⟩
  | fault f => cases h
  | refused r => cases h

/-- If a step answers a next state, it is what the next input leaves (or the state as it is, where no agent
moves), with the holds that are over lifted. -/
theorem step_next {s t : State} (h : step s = .next t) :
    (s.inputs = [] ∧ t = liftHolds s) ∨
    ∃ x rest u, s.inputs = x :: rest ∧ takeInput x { s with inputs := rest } = .next u ∧
      t = liftHolds u := by
  obtain ⟨u, hu, rfl⟩ := settle_next h
  unfold takeNext at hu
  split at hu
  · cases hu; simp_all
  · rename_i x rest hx
    exact .inr ⟨x, rest, u, hx, hu, rfl⟩

/-- The step of an input, forwards. -/
theorem step_of_input {s : State} {x : Input} {rest : List Input} (h : s.inputs = x :: rest) :
    step s = settle (takeInput x { s with inputs := rest }) := by
  simp [step, nextStep, takeNext, h]

/-- Lifting is a change of what belongs to the callers and the record of the run. -/
theorem liftHolds_outside (s : State) :
    ∃ held writes returned hist hReady hRdata,
      liftHolds s = { s with held := held, writes := writes, returned := returned, hist := hist,
                             hReady := hReady, hRdata := hRdata } := by
  by_cases h : s.life = .up ∧ s.tx.doneSignal = true
  · rw [liftHolds_lifted s h.1 h.2]; exact ⟨_, _, _, _, _, _, rfl⟩
  · rw [liftHolds_not s h]; exact ⟨s.held, s.writes, s.returned, s.hist, s.hReady, s.hRdata, rfl⟩

/-- The induction over steps, once: what every operation keeps, what no field outside the block touches, and
what ADVANCE and rst keep, every step keeps. -/
theorem step_keeps {P : State → Prop}
    (hexec : ∀ i s t, P s → exec i s = .next t → P t)
    (hout : ∀ s inputs held writes returned reads delivered hist hReady hRdata refused draw, P s →
      P { s with inputs := inputs, held := held, writes := writes, returned := returned, reads := reads,
                 delivered := delivered, hist := hist, hReady := hReady, hRdata := hRdata,
                 refused := refused, initDraw := draw })
    (hadv : ∀ dt s, P s → advanceAllowed dt s = true → P { s with now := s.now + dt })
    (hrst : ∀ s, P s → P (hardwareReset s))
    {s t : State} (hs : P s) (h : step s = .next t) : P t := by
  have lift : ∀ u, P u → P (liftHolds u) := by
    intro u hu
    obtain ⟨a, b, c, d, e, f, q⟩ := liftHolds_outside u
    rw [q]
    exact hout u u.inputs a b c u.reads u.delivered d e f u.refused u.initDraw hu
  have callers : ∀ u writes returned reads delivered refused, P u →
      P { u with writes := writes, returned := returned, reads := reads, delivered := delivered,
                 refused := refused } := by
    intro u a b c d r hu
    exact hout u u.inputs u.held a b c d u.hist u.hReady u.hRdata r u.initDraw hu
  rcases step_next h with ⟨_, rfl⟩ | ⟨x, rest, u, _, hx, rfl⟩
  · exact lift s hs
  · apply lift
    have base : P { s with inputs := rest } :=
      hout s rest s.held s.writes s.returned s.reads s.delivered s.hist s.hReady s.hRdata s.refused
        s.initDraw hs
    rcases takeInput_next hx with ⟨i, w, hi⟩ | rfl | rfl | rfl | ⟨bs, rfl⟩ | ⟨n, rfl⟩ | ⟨k, c, v, _, hv, rfl⟩ |
      ⟨dt, rfl⟩ | ⟨o, rfl⟩ | rfl
    · exact hexec i _ u (callers _ w s.returned s.reads s.delivered s.refused base) hi
    · exact hout s rest s.held s.writes s.returned s.reads s.delivered s.hist true none true s.initDraw hs
    · exact hout s rest s.held s.writes s.returned s.reads s.delivered s.hist true (some 0) true s.initDraw hs
    · exact base
    · obtain ⟨a, b, r, q⟩ := callWrite_outside bs { s with inputs := rest }
      rw [q]
      exact callers _ a b s.reads s.delivered r base
    · obtain ⟨a, b, r, q⟩ := callRead_outside n { s with inputs := rest }
      rw [q]
      exact callers _ s.writes s.returned a b r base
    · obtain ⟨a, b, q⟩ := deliver_outside k (c.took (v.hRdata.getD 0)) v
      rw [q]
      exact callers _ v.writes v.returned a b v.refused (hexec _ _ v base hv)
    · rcases advanceTime_cases dt { s with inputs := rest } with ⟨ha, e⟩ | ⟨_, e⟩ <;> rw [e]
      · exact hadv dt _ base ha
      · exact base
    · exact hout s rest s.held s.writes s.returned s.reads s.delivered s.hist s.hReady s.hRdata s.refused o hs
    · exact hrst _ base

end Sys2Proof.Machine
end

