-- ==== Sys2Proof/Tests/Slice0.lean ====
section
/-! SUPPORT. Tests: words written out from spec 30_encoding, single steps of spec 95_test_vectors on small
states, and for each statement with hypotheses a state and operands that meet them together. -/

namespace Sys2Proof.Tests

open Sys2Proof.Machine

/-! ### Small states (95_test_vectors, conventions: BAUD 9600, C = 4, no latency) -/

/-- BAUD 9600, C = 4, TICK_LAT_MAX = EDGE_LAT_MAX = 0. -/
def cfg : Params := { baudMinusOne := 9599, slotsMinusTwo := 2, txPin := 17, rxPinSkip := 17, tickLatMax := 0, edgeLatMax := 0 }

/-- After `rst`, with those parameters. -/
def down : State := { State.reset with cfg := cfg }

/-- Right after `INIT` with outcome OK (R52, right column). -/
def idle : State :=
  { down with life := .up, rxIrqEn := true, txOut := true, dirTx := .out, dirRx := .inp }

/-- A byte in flight, due: `tx = (0x41, i, 0)`, deadline 104166. -/
def sending (i : TxIndex) : State :=
  { idle with tx := { targetByte := 0x41, bitIndex := i, doneSignal := false }
              txTimer := { armed := true, deadline := 104166 }, now := 104166 }

/-- The byte is done: `tx = (0x41, 9, 1)`. -/
def sent : State := { idle with tx := { targetByte := 0x41, bitIndex := .done, doneSignal := true } }

/-- A frame being received, its timer due: `rx = (1, n, acc)`, deadline 104666. -/
def receiving (n : Fin 9) (acc : Byte) (v : Bool) : State :=
  { idle with rx := { active := true, bitCount := n, accumulator := acc }, rxIrqEn := false
              rxTimer := { armed := true, deadline := 104666 }, now := 104666, rxIn := v }

/-- A falling edge pending. -/
def edge : State := { idle with rxIn := false, rxEdgePending := true, rxEdgeTime := 500, now := 500 }

/-- V-F1 after three pushes: full, `head = 3`, `tail = 0`. -/
def full : State :=
  { idle with fifo := { storage := [(0, 0x11), (1, 0x22), (2, 0x33)], head := 3, tail := 0 } }

/-- V-F1 after five pushes: full, `head = 1`, `tail = 2`. -/
def wrapped : State :=
  { idle with fifo := { storage := [(0, 0x55), (1, 0x22), (2, 0x33), (3, 0x44)], head := 1, tail := 2 } }

/-- The next state, where there is one. -/
def nextOf (o : Host.Outcome State Fault Refusal) : Option State :=
  match o with
  | .next t => some t
  | .fault _ => none
  | .refused _ => none

/-- Whether the outcome is a next state of which `p` holds. -/
def answers (o : Host.Outcome State Fault Refusal) (p : State → Bool) : Bool :=
  match nextOf o with
  | some t => p t
  | none => false

theorem says_elim {o : Host.Outcome State Fault Refusal} {p : State → Bool} (h : answers o p = true) :
    ∃ t, o = .next t ∧ p t = true := by
  cases o with
  | next t => exact ⟨t, rfl, h⟩
  | fault f => cases h
  | refused r => cases h

/-! ### Decoding: one word per constructor, written bit by bit (R82 to R84) -/

theorem test_decode_txstart : decode (.h 0b1000_0100_0001#12) = .ok (.txstart 0x41) := by decide
theorem test_decode_txwait : decode (.h 0b0001_1010_0111#12) = .ok (.txwait 0xA7) := by decide
theorem test_decode_rxpop : decode (.h 0b0010_0000_0000#12) = .ok (.rxpop 0x00) := by decide
theorem test_decode_rdstat : decode (.h 0b0011_0000_0000#12) = .ok (.rdstat 0x00) := by decide
theorem test_decode_init : decode (.h 0b1100_0000_0001#12) = .ok .init := by decide
theorem test_decode_teardown : decode (.h 0b1100_0000_0000#12) = .ok .teardown := by decide
theorem test_decode_rdcntok : decode (.h 0b0101_0000_0000#12) = .ok (.rdcntok 0x00) := by decide
theorem test_decode_rdcntfe : decode (.h 0b0110_0000_0000#12) = .ok (.rdcntfe 0x00) := by decide
theorem test_decode_txtick : decode (.e 0b0001#4) = .ok .txtick := by decide
theorem test_decode_rxedge : decode (.e 0b0010#4) = .ok .rxedge := by decide
theorem test_decode_rxtick : decode (.e 0b0011#4) = .ok .rxtick := by decide
theorem test_decode_line : decode (.e 0b0100#4) = .ok (.line false) := by decide

/-- The words of 95_test_vectors 2.8 that are reserved, each under the name of its access. -/
theorem test_decode_reserved :
    decode (.h 0x041#12) = .error .readOfTxdata ∧ decode (.h 0x400#12) = .error .readOfCtrl ∧
    decode (.h 0x700#12) = .error .readOfAddr7 ∧ decode (.h 0xA41#12) = .error .writeOfReadOnly ∧
    decode (.h 0xC02#12) = .error .unknownCtrlCommand ∧ decode (.h 0xE00#12) = .error .writeOfCounter ∧
    decode (.h 0xF00#12) = .error .writeOfAddr7 ∧ decode (.e 0x6#4) = .error .unusedEvent := by decide

theorem test_decode_table_word :
    decodeTableWord 12 0x841 = some (.txstart 0x41) ∧ decodeTableWord 16 0x100 = some (.txwait 0) ∧
    decodeTableWord 4 0x5 = some (.line true) ∧ decodeTableWord 8 0x3 = some .rxtick ∧
    decodeTableWord 12 0x700 = none ∧ decodeTableWord 16 0x1841 = none := by decide

/-! ### WellFormed: every range of R86 and the unused codes of R84, at both ends -/

theorem test_wf_reserved_reads :
    Code.wf (.h 0x000#12) = false ∧ Code.wf (.h 0x0FF#12) = false ∧ Code.wf (.h 0x400#12) = false ∧
    Code.wf (.h 0x4FF#12) = false ∧ Code.wf (.h 0x700#12) = false ∧ Code.wf (.h 0x7FF#12) = false := by
  decide

theorem test_wf_reserved_writes :
    Code.wf (.h 0x900#12) = false ∧ Code.wf (.h 0xBFF#12) = false ∧ Code.wf (.h 0xC02#12) = false ∧
    Code.wf (.h 0xCFF#12) = false ∧ Code.wf (.h 0xD00#12) = false ∧ Code.wf (.h 0xEFF#12) = false ∧
    Code.wf (.h 0xF00#12) = false ∧ Code.wf (.h 0xFFF#12) = false := by decide

theorem test_wf_unused_events :
    Code.wf (.e 0x0#4) = false ∧ Code.wf (.e 0x6#4) = false ∧ Code.wf (.e 0xF#4) = false ∧
    Code.wf (.e 0x1#4) = true ∧ Code.wf (.e 0x5#4) = true := by decide

/-! ### Primitives (2.1, 2.3, 2.4) -/

theorem test_bit_period :
    ({ cfg with baudMinusOne := 0 } : Params).bitPeriod = 1000000000 ∧ cfg.bitPeriod = 104166 ∧
    ({ cfg with baudMinusOne := 115199 } : Params).bitPeriod = 8680 ∧
    ({ cfg with baudMinusOne := 999999999 } : Params).bitPeriod = 1 := by decide

/-- V-T1, V-T3 and V-T4, V-T5. -/
theorem test_timers :
    timerStart 1000 104166 { armed := false, deadline := 7 } = { armed := true, deadline := 105166 } ∧
    timerForward cfg { armed := true, deadline := 104166 } = { armed := true, deadline := 208332 } ∧
    (timerCancel { armed := true, deadline := 208332 }).armed = false := by decide

/-- V-T9, V-T10. -/
theorem test_advance_to_the_deadline :
    advanceAllowed 4166 { sending .start with now := 100000 } = true ∧
    advanceAllowed 4167 { sending .start with now := 100000 } = false := by decide

/-- V-T11, V-T12. -/
theorem test_advance_latency :
    advanceAllowed 7166 { sending .start with now := 100000, cfg := { cfg with tickLatMax := 3000 } } = true ∧
    advanceAllowed 7167 { sending .start with now := 100000, cfg := { cfg with tickLatMax := 3000 } } = false ∧
    advanceAllowed 1 edge = false := by decide

/-- V-F1, fourth push: the oldest byte is dropped and its slot is not zeroed. -/
theorem test_push_full :
    (match fifoPush 0x44 full with
     | .ok t => decide (t.fifo = { storage := [(0, 0x11), (1, 0x22), (2, 0x33), (3, 0x44)], head := 0, tail := 1 }
         ∧ t.hist = [.event (.bufferOverrun 0x11)] ∧ unread t = [0x22, 0x33, 0x44])
     | .error _ => false) = true := by decide

/-- R8: the two pins are distinct, whichever side of TX_PIN the other one lies. -/
theorem test_pins :
    cfg.txPin = 17 ∧ cfg.rxPin = 18 ∧ ({ cfg with rxPinSkip := 4 } : Params).rxPin = 4 := by decide

/-- R180, R89: one operation of a `WRITE` at a time; blocked in TXWAIT it takes no step. -/
theorem test_write_blocks :
    answers (writerStep 0 { idle with writes := [{ left := [0x41, 0x0D], phase := .start, sent := 0 }] })
      (fun t => decide (t.tx.targetByte = 0x41 ∧
        t.writes = [{ left := [0x0D], phase := .wait, sent := 0 }])) = true ∧
    answers (writerStep 0 { sending .start with writes := [{ left := [0x0D], phase := .held, sent := 0 }], held := [0] })
      (fun t => decide (t.tx.targetByte = 0x41 ∧ t.fault = [])) = true := by decide

/-- V-S17: the terminal firing lets the last TXWAIT of `WRITE [0x41, 0x0D]` complete, and it returns 2. -/
theorem test_write_returns :
    answers (step { sending .done with inputs := [.event 0x1#4], held := [0]
                                       writes := [{ left := [], phase := .held, sent := 1 }] })
      (fun t => decide (t.held = [] ∧ t.writes = [] ∧ t.returned = [(104166, 2)] ∧ t.hRdata = some 1)) = true := by
  decide

/-- R195, V-S16: in DOWN a `WRITE` or `READ` is refused at the call; the empty ones return in any state. -/
theorem test_calls_in_down :
    (callWrite [0x41] down).refused = true ∧ (callWrite [0x41] down).writes = [] ∧
    (callRead 1 down).refused = true ∧ (callRead 1 down).reads = [] ∧
    (callWrite [] down).returned = [(0, 0)] ∧ (callRead 0 down).delivered = [(0, [])] ∧
    (callRead 0 down).refused = false := by decide

/-- R181: a frame is accepted between the pops of a `READ 2` of a FIFO with one byte; it returns both. -/
theorem test_read_with_a_push_between :
    (let s : State := { receiving 8 0x0D true with
       reads := [{ left := 1, got := [0x41] }], fifo := { storage := [], head := 1, tail := 1 } }
     answers (step { s with inputs := [.event 0x3#4] })
       (fun t => decide (unread t = [0x0D] ∧ t.reads = s.reads ∧ t.delivered = []))) = true ∧
    (let s : State := { receiving 8 0x0D true with
       reads := [{ left := 1, got := [0x41] }]
       fifo := { storage := [(1, 0x0D)], head := 2, tail := 1 } }
     answers (step { s with inputs := [.reader 0] })
       (fun t => decide (t.reads = [] ∧ t.delivered = [(104666, [0x41, 0x0D])]))) = true := by decide

/-- V-S14: three pops for `READ 4` of two bytes. -/
theorem test_read_two :
    (match readLoop 4 { idle with fifo := { storage := [(0, 0x41), (1, 0x0D)], head := 2, tail := 0 } } with
     | .next (bs, t) => decide (bs = [0x41, 0x0D] ∧ t.hist.length = 3 ∧ t.fifo.tail = 2)
     | .fault _ => false
     | .refused _ => false) = true := by decide

/-! ### Single steps -/

/-- V-TX1. -/
theorem test_txstart_loads :
    answers (exec (.txstart 0x41) idle) (fun t => decide (
      t.tx = { targetByte := 0x41, bitIndex := .start, doneSignal := false } ∧
      t.txTimer = { armed := true, deadline := 104166 } ∧ t.txOut = true)) = true := by decide

/-- V-TX10. -/
theorem test_txstart_overlap :
    answers (exec (.txstart 0x42) (sending (.data 3))) (fun t => decide (t.fault = [.txOverlap])) = true := by
  decide

/-- V-TX12: the deadline is one period after the last deadline, not after `now`. -/
theorem test_txtick_late_start :
    answers (exec .txtick { sending .start with now := 106666 }) (fun t => decide (
      t.txOut = false ∧ t.tx.bitIndex = .data 0 ∧ t.txTimer.deadline = 208332 ∧
      wireTrace t.hist = [(106666, false)])) = true := by decide

/-- V-TX6. -/
theorem test_txtick_terminal :
    answers (exec .txtick { sending .done with txTimer := { armed := true, deadline := 1145826 }, now := 1145826 })
      (fun t => decide (t.tx.doneSignal = true ∧ t.tx.bitIndex = .done ∧ t.txTimer.armed = false ∧
        t.txOut = true)) = true := by decide

/-- V-TX7. -/
theorem test_txwait_done :
    answers (exec (.txwait 0) sent) (fun t => decide (t.hRdata = some 1 ∧ t.tx = sent.tx)) = true := by decide

/-- V-TX8, V-TX11. -/
theorem test_txwait_held :
    answers (exec (.txwait 0) idle) (fun t => decide (t.hReady = false ∧ t.held = [0])) = true := by decide

/-- V-RX1. -/
theorem test_line_falls :
    answers (exec (.line false) { idle with now := 500 }) (fun t => decide (
      t.rxIn = false ∧ t.rxEdgePending = true ∧ t.rxEdgeTime = 500)) = true := by decide

/-- V-RX15. -/
theorem test_line_falls_in_down :
    answers (exec (.line false) down) (fun t => decide (t.rxIn = false ∧ t.rxEdgePending = false)) = true := by
  decide

/-- V-RX2. -/
theorem test_rxedge_starts :
    answers (exec .rxedge edge) (fun t => decide (
      t.rxEdgePending = false ∧ t.rx = { active := true, bitCount := 0, accumulator := 0 } ∧
      t.rxIrqEn = false ∧ t.rxTimer = { armed := true, deadline := 104666 })) = true := by decide

/-- V-RX8: bit 7. -/
theorem test_rxtick_last_data_bit :
    answers (exec .rxtick (receiving 7 0x41 true)) (fun t => decide (
      t.rx = { active := true, bitCount := 8, accumulator := 0xC1 } ∧ t.rxTimer.deadline = 208832)) = true := by
  decide

/-- V-RX9 with V-RX11: the counter wraps; the record of the operation comes before the one it raises. -/
theorem test_rxtick_accepts :
    answers (exec .rxtick { receiving 8 0x41 true with cntRxOk := 0xFFFFFFFF }) (fun t => decide (
      unread t = [0x41] ∧ t.cntRxOk = 0 ∧ t.rx = { active := false, bitCount := 8, accumulator := 0x41 } ∧
      t.rxIrqEn = true ∧ t.rxTimer.armed = false ∧ t.hist.length = 2 ∧
      t.hist.getLast? = some (.event (.frameOk 0x41)))) = true := by decide

/-- V-F1, first pop. -/
theorem test_rxpop_oldest :
    answers (exec (.rxpop 0) wrapped) (fun t => decide (t.hRdata = some 0x133 ∧
      t.fifo = { storage := [(0, 0x55), (1, 0x22), (3, 0x44)], head := 1, tail := 3 })) = true := by decide

/-- V-F4: an unread 0x00 is not "empty". -/
theorem test_rxpop_zero_byte :
    answers (exec (.rxpop 0) { idle with fifo := { storage := [], head := 1, tail := 0 } })
      (fun t => decide (t.hRdata = some 0x100)) = true ∧
    answers (exec (.rxpop 0) idle) (fun t => decide (t.hRdata = some 0)) = true := by decide

/-- V-S4. -/
theorem test_rdstat_idle :
    answers (exec (.rdstat 0) idle) (fun t => decide (t.hRdata = some 0x1C8)) = true := by decide

/-- V-S10. -/
theorem test_rdstat_full :
    answers (exec (.rdstat 0) full) (fun t => decide (t.hRdata = some 0x1F8)) = true := by decide

/-- V-S13. -/
theorem test_rdcntok :
    answers (exec (.rdcntok 0) { idle with cntRxOk := 2, cntRxFerr := 1 })
      (fun t => decide (t.hRdata = some 2)) = true := by decide

/-- V-S13. -/
theorem test_rdcntfe :
    answers (exec (.rdcntfe 0) { idle with cntRxOk := 2, cntRxFerr := 1 })
      (fun t => decide (t.hRdata = some 1)) = true := by decide

/-- V-L1. -/
theorem test_init_ok :
    answers (exec .init down) (fun t => decide (t.life = .up ∧ t.txOut = true ∧ t.rxIrqEn = true ∧
      t.dirTx = .out ∧ t.dirRx = .inp ∧ wireTrace t.hist = [(0, true)])) = true := by decide

/-- V-L3 with V-S3: LASTERR. -/
theorem test_init_irq_fail :
    answers (exec .init { down with initDraw := .irqFail }) (fun t => decide (t.life = .down ∧
      t.dirTx = .unset ∧ status t = 0x400 ∧
      t.hist.getLast? = some (.event (.initFailure .irqRegistration)))) = true := by decide

/-- V-L5. -/
theorem test_teardown_mid_frame :
    answers (exec .teardown (receiving 3 0x05 false)) (fun t => decide (t.life = .down ∧
      t.rxTimer.armed = false ∧ t.txTimer.armed = false ∧ t.rxIrqEn = false ∧ unread t = [] ∧
      t.cntRxOk = 0 ∧ t.cntRxFerr = 0)) = true := by decide

/-- P5b: a TEARDOWN in DOWN is refused. -/
theorem test_teardown_refused :
    answers (exec .teardown down) (fun t => decide (t = { down with refused := true, hReady := true })) = true := by
  decide

/-- The word placed for the next step is the one that runs. -/
theorem test_fetch_word :
    answers (step (down.withFetchWord 12 0xC01)) (fun t => decide (t.life = .up ∧ t.inputs = [])) = true := by
  decide

/-! ### The invariants hold somewhere -/

theorem inv_of (s : State) (h1 : RunningOk s) (h2 : PinsOk s) (h3 : s.life = .up) (h4 : CursorsOk s)
    (h5 : StorageOk s) : Inv s :=
  ⟨fun _ _ => h1, fun _ => h2, fun h => (by rw [h3] at h; cases h), h4, h5⟩

theorem test_witness_inv_idle : Inv idle :=
  inv_of _ (by unfold RunningOk; decide) (by unfold PinsOk; decide) rfl (by unfold CursorsOk; decide)
    (by unfold StorageOk; decide)

theorem test_witness_inv_sending : Inv (sending .start) :=
  inv_of _ (by unfold RunningOk; decide) (by unfold PinsOk; decide) rfl (by unfold CursorsOk; decide)
    (by unfold StorageOk; decide)

theorem test_witness_inv_receiving : Inv (receiving 8 0x41 true) :=
  inv_of _ (by unfold RunningOk; decide) (by unfold PinsOk; decide) rfl (by unfold CursorsOk; decide)
    (by unfold StorageOk; decide)

theorem test_witness_inv_wrapped : Inv wrapped :=
  inv_of _ (by unfold RunningOk; decide) (by unfold PinsOk; decide) rfl (by unfold CursorsOk; decide)
    (by unfold StorageOk; decide)

/-- V-T9: time at the deadline, no latency. -/
theorem test_witness_in_time : InTime (sending .start) ∧ InTime edge :=
  ⟨fun _ _ => by decide, fun _ _ => by decide⟩

/-! ### Witnesses: the hypotheses of each statement, met together -/

/-- `s` with `x` next on the schedule. -/
def with1 (x : Input) (s : State) : State := { s with inputs := [x] }

theorem test_witness_EncodedInstructionDecodesBack :
    (Instr.txstart 0x00).wf = true ∧ (Instr.txstart 0xFF).wf = true ∧ (Instr.line true).wf = true := by decide

theorem test_witness_DecodedCodeEncodesBack :
    decode (.h 0x1A7#12) = .ok (.txwait 0xA7) ∧ decode (.e 0x5#4) = .ok (.line true) := by decide

theorem test_witness_StepRunsTheDecodedInstruction :
    (with1 (.host 0x841#12) idle).inputs = inputOf (.h 0x841#12) :: [] ∧
    decode (.h 0x841#12) = .ok (.txstart 0x41) ∧
    (with1 (.event 0x1#4) (sending .start)).inputs = inputOf (.e 0x1#4) :: [] ∧
    decode (.e 0x1#4) = .ok .txtick := by decide

/-- Each clause: nobody held, DOWN, latch 0. -/
theorem test_witness_step_is_exec :
    (idle.held = [] ∧ idle.writes = []) ∧ answers (exec (.rdstat 0) down) (fun t => decide (t.life = .down)) = true ∧
    answers (exec (.txstart 0) { idle with held := [7] }) (fun t => decide (t.tx.doneSignal = false)) = true := by
  decide

theorem test_witness_ReservedWordIsRefusedWithoutEffect :
    (with1 (.host 0x0FF#12) idle).inputs = .host 0x0FF#12 :: [] ∧ HostWord.reserved 0x0FF#12 = true ∧
    (with1 (.host 0xC02#12) idle).inputs = .host 0xC02#12 :: [] ∧ HostWord.reserved 0xC02#12 = true := by
  decide

theorem test_witness_WrongLifeIsRefusedWithoutEffect : down.life = .down ∧ idle.life = .up := by decide

/-- V-T9 (the last instant allowed), V-T10 (the first one not allowed), and `dt = 0`. -/
theorem test_witness_AdvanceMovesOnlyTime :
    (with1 (.advance 4166) { sending .start with now := 100000 }).inputs = [.advance 4166] ∧
    advanceAllowed 4166 { sending .start with now := 100000 } = true ∧
    (with1 (.advance 4167) { sending .start with now := 100000 }).inputs = [.advance 4167] ∧
    advanceAllowed 4167 { sending .start with now := 100000 } = false ∧
    advanceAllowed 0 idle = false ∧ advanceAllowed 1 idle = true := by decide

/-- Steps and operations that answer a next state: time passes, a byte is started. -/
theorem test_witness_TimeNeverGoesBack :
    (∃ t, step (with1 (.advance 5) idle) = .next t ∧ t.now = 5) ∧
    (∃ t, exec (.txstart 0x41) idle = .next t ∧ t.now = 0) := ⟨⟨_, rfl, by decide⟩, ⟨_, rfl, by decide⟩⟩

theorem test_witness_ParametersNeverChange : ∃ t, step (with1 .rst idle) = .next t ∧ t.cfg = cfg :=
  ⟨_, rfl, by decide⟩

theorem test_witness_HardwareResetStep : (with1 .rst idle).inputs = .rst :: [] := by decide

theorem test_witness_StepKeepsTheInvariant :
    Inv (with1 (.event 0x3#4) (receiving 8 0x41 true)) ∧
    ∃ t, step (with1 (.event 0x3#4) (receiving 8 0x41 true)) = .next t ∧ unread t = [0x41] :=
  ⟨inv_of _ (by unfold RunningOk; decide) (by unfold PinsOk; decide) rfl (by unfold CursorsOk; decide)
    (by unfold StorageOk; decide), _, rfl, by decide⟩

theorem test_witness_StepKeepsTheTimeBounds :
    InTime (with1 (.event 0x1#4) (sending .start)) ∧
    ∃ t, step (with1 (.event 0x1#4) (sending .start)) = .next t ∧ t.txTimer.deadline = 208332 :=
  ⟨fun _ _ => by decide, _, rfl, by decide⟩

theorem test_witness_StepKeepsTheStorageCanonical :
    Memory.wf (with1 (.host 0x200#12) wrapped).fifo.storage ∧
    ∃ t, step (with1 (.host 0x200#12) wrapped) = .next t ∧ t.fifo.tail = 3 :=
  ⟨by decide, _, rfl, by decide⟩

theorem test_witness_TxstartLoadsTheByte : idle.life = .up ∧ idle.txTimer.armed = false := by decide

theorem test_witness_TxstartInFlightRecordsTheOverlap :
    (sending (.data 3)).life = .up ∧ (sending (.data 3)).txTimer.armed = true := by decide

theorem test_witness_TxtickStartDrivesLow :
    txTickEnabled (sending .start) = true ∧ (sending .start).tx.bitIndex = .start ∧
    (sending .start).txOut = true := by decide

theorem test_witness_TxtickDataDrivesTheBit :
    txTickEnabled (sending (.data 0)) = true ∧ (sending (.data 0)).tx.bitIndex = .data 0 ∧
    txTickEnabled (sending (.data 7)) = true ∧ (sending (.data 7)).tx.bitIndex = .data 7 := by decide

theorem test_witness_TxtickStopDrivesHigh :
    txTickEnabled (sending .stop) = true ∧ (sending .stop).tx.bitIndex = .stop := by decide

theorem test_witness_TxtickDoneSignalsCompletion :
    txTickEnabled (sending .done) = true ∧ (sending .done).tx.bitIndex = .done := by decide

theorem test_witness_TxtickFrame : ∃ t, exec .txtick (sending .start) = .next t ∧ t.txOut = false :=
  ⟨_, rfl, by decide⟩

/-- Each way an event is not enabled; V-T7 is one nanosecond early. -/
theorem test_witness_EventNotEnabledHasNoEffect :
    down.life = .down ∧ idle.txTimer.armed = false ∧ idle.rxTimer.armed = false ∧
    ({ sending .start with now := 104165 } : State).now < (sending .start).txTimer.deadline ∧
    ({ receiving 0 0 true with now := 104665 } : State).now < (receiving 0 0 true).rxTimer.deadline ∧
    idle.rxEdgePending = false := by decide

theorem test_witness_TxwaitAnswersWhenDone : sent.life = .up ∧ sent.tx.doneSignal = true := by decide

theorem test_witness_TxwaitIsHeldUntilDone : idle.life = .up ∧ idle.tx.doneSignal = false := by decide

/-- A terminal firing with two held; a held caller in DOWN, and one with the latch 0. -/
theorem test_witness_HeldTxwaitCompletesWhenDone :
    (with1 (.event 0b0001#4) { sending .done with held := [7, 0] }).inputs = .event 0b0001#4 :: [] ∧
    txTickEnabled (with1 (.event 0b0001#4) { sending .done with held := [7, 0] }) = true ∧
    (with1 (.event 0b0001#4) { sending .done with held := [7, 0] }).tx.bitIndex = .done ∧
    answers (step (with1 (.event 0b0001#4) { sending .done with held := [7, 0] }))
      (fun t => decide (t.life = .up ∧ t.tx.doneSignal = true ∧ t.held = [])) = true ∧
    answers (step (with1 .rst { idle with held := [7] })) (fun t => decide (t.life = .down ∧ t.held = [7])) = true ∧
    answers (step (with1 (.host 0x100#12) { idle with held := [7] }))
      (fun t => decide (t.tx.doneSignal = false ∧ t.held = [7, 0])) = true := by decide

/-- A step that lifts nothing, under a blocked `WRITE`: another caller's `WRITE []` returns, TEARDOWN lifts
nothing. -/
theorem test_witness_HeldTxwaitCompletesWhenDone_blocked :
    let s : State := { sending .start with held := [0], writes := [{ left := [], phase := .held, sent := 0 }] }
    answers (step (with1 (.write []) s)) (fun t => decide (t.tx.doneSignal = false ∧ t.writes = s.writes ∧
      t.returned = [(104166, 0)])) = true ∧
    answers (step (with1 (.host 0xC00#12) s)) (fun t => decide (t.life = .down ∧ t.writes = s.writes ∧
      t.returned = [])) = true := by decide

theorem test_witness_holds_ok :
    HoldsOk sent ∧ HoldsOk { sending .start with held := [7], writes := [{ left := [], phase := .held, sent := 0 }] } := by
  refine ⟨⟨?_, ?_⟩, ?_, ?_⟩ <;> decide

theorem test_witness_ByteIsClockedOutAsAFrame : sent.life = .up ∧ sent.txTimer.armed = false := by decide

/-- Both arms of the statement: V-RX1 (caught), V-RX3 (masked). -/
theorem test_witness_LineSetsThePendingEdge :
    (idle.life = .up ∧ idle.rxIn = true ∧ idle.rxIrqEn = true ∧ idle.rxEdgePending = false) ∧
    ¬ ((receiving 3 0 true).life = .up ∧ (receiving 3 0 true).rxIn = true ∧
      (receiving 3 0 true).rxIrqEn = true) := by decide

theorem test_witness_RxedgeStartsAFrame : rxEdgeEnabled edge = true ∧ edge.rx.active = false := by decide

theorem test_witness_RxedgeIsIgnoredWhileSampling :
    rxEdgeEnabled { receiving 3 0 false with rxEdgePending := true } = true ∧
    ({ receiving 3 0 false with rxEdgePending := true } : State).rx.active = true := by decide

theorem test_witness_RxtickSamplesOneBit :
    rxTickEnabled (receiving 0 0 true) = true ∧ (receiving 0 0 true).rx.bitCount.val < 8 ∧
    rxTickEnabled (receiving 7 0x41 true) = true ∧ (receiving 7 0x41 true).rx.bitCount.val < 8 := by decide

/-- A full FIFO with the cursor in the last slot. -/
theorem test_witness_RxtickAcceptsAValidFrame :
    rxTickEnabled { receiving 8 0x44 true with fifo := full.fifo } = true ∧
    (receiving 8 0x44 true).rx.bitCount.val = 8 ∧ (receiving 8 0x44 true).rxIn = true ∧
    full.fifo.head < cfg.capacity ∧ Memory.wf full.fifo.storage := by decide

theorem test_witness_RxtickDropsAFramingError :
    rxTickEnabled (receiving 8 0x41 false) = true ∧ (receiving 8 0x41 false).rx.bitCount.val = 8 ∧
    (receiving 8 0x41 false).rxIn = false := by decide

theorem test_witness_RxtickFrame :
    ∃ t, exec .rxtick (receiving 8 0x41 false) = .next t ∧ t.cntRxFerr = 1 := ⟨_, rfl, by decide⟩

theorem test_witness_FrameIsReceivedOrDropped :
    rxEdgeEnabled { edge with fifo := wrapped.fifo } = true ∧ edge.rx.active = false ∧
    CursorsOk { edge with fifo := wrapped.fifo } ∧ StorageOk { edge with fifo := wrapped.fifo } := by
  unfold CursorsOk StorageOk; decide

/-- The FIFO statements: an empty FIFO, a full one, one with both cursors wrapped, and C = 2 (V-F3). -/
theorem test_witness_fifo_statements :
    (CursorsOk idle ∧ StorageOk idle ∧ idle.fifo.head = idle.fifo.tail) ∧
    (CursorsOk full ∧ StorageOk full ∧ fifoFull full = true) ∧
    (CursorsOk wrapped ∧ StorageOk wrapped ∧ wrapped.life = .up) ∧
    (CursorsOk { idle with cfg := { cfg with slotsMinusTwo := 0 } } ∧
      StorageOk { idle with cfg := { cfg with slotsMinusTwo := 0 } }) := by
  unfold CursorsOk StorageOk; decide

/-- The clauses on the calls of READ: a call in either life, and a running one at a full FIFO and an empty
one. -/
theorem test_witness_ReadReturnsTheOldestBytes :
    HoldsOk (with1 (.read 2) idle) ∧ HoldsOk (with1 (.read 2) down) ∧
    (let s : State := with1 (.reader 0) { full with reads := [{ left := 1, got := [] }] }
     s.life = .up ∧ CursorsOk s ∧ StorageOk s ∧ s.inputs = .reader 0 :: [] ∧
       s.reads[0]? = some { left := 0 + 1, got := [] } ∧ (unread s).head? = some 0x11) ∧
    (let s : State := with1 (.reader 0) { idle with reads := [{ left := 2, got := [0x41] }] }
     s.life = .up ∧ CursorsOk s ∧ StorageOk s ∧ s.reads[0]? = some { left := 1 + 1, got := [0x41] } ∧
       (unread s).head? = none) := by
  unfold HoldsOk CursorsOk StorageOk; decide

/-- The last slot: `tail = C - 1`. -/
theorem test_witness_RxpopAnswersTheOldestByte :
    let s : State := { idle with fifo := { storage := [(3, 0x9C)], head := 0, tail := 3 } }
    s.life = .up ∧ s.fifo.head ≠ s.fifo.tail ∧ s.fifo.tail < s.cfg.capacity ∧ Memory.wf s.fifo.storage := by
  decide

theorem test_witness_RxpopAnswersEmpty : idle.life = .up ∧ idle.fifo.head = idle.fifo.tail := by decide

theorem test_witness_counters : idle.life = .up ∧ down.life = .down := by decide

theorem test_witness_InitOkWritesTheUpColumn : down.life = .down ∧ down.initDraw = .ok := by decide

theorem test_witness_InitMapFailAcquiresNothing :
    ({ down with initDraw := .mapFail } : State).life = .down ∧
    ({ down with initDraw := .mapFail } : State).initDraw = .mapFail := by decide

/-- R197, R218: an INIT tried again records its failure again. -/
theorem test_init_fails_twice :
    answers (exec .init { down with initDraw := .mapFail, hist := [.event (.initFailure .mapping)] })
      (fun t => decide (t.hist.length = 3 ∧ t.hist.getLast? = some (.event (.initFailure .mapping)))) = true ∧
    answers (exec .init { down with initDraw := .irqFail, hist := [.event (.initFailure .irqRegistration)] })
      (fun t => decide (t.hist.length = 3 ∧
        t.hist.getLast? = some (.event (.initFailure .irqRegistration)))) = true := by decide

theorem test_witness_InitIrqFailReleasesThePins :
    ({ down with initDraw := .irqFail } : State).life = .down ∧
    ({ down with initDraw := .irqFail } : State).initDraw = .irqFail := by decide

theorem test_witness_TeardownReleasesEverything : (receiving 3 0x05 false).life = .up := by decide

/-- Operations that do write the fields the owner rule speaks of. -/
theorem test_witness_OnlyItsOwnersWriteAField :
    (∃ t, exec .init down = .next t ∧ t.life ≠ down.life) ∧
    (∃ t, exec (.txstart 0x41) idle = .next t ∧ t.tx.targetByte ≠ idle.tx.targetByte) ∧
    (∃ t, exec .rxtick (receiving 8 0x41 true) = .next t ∧
      t.fifo.storage ≠ (receiving 8 0x41 true).fifo.storage ∧
      t.cntRxOk ≠ (receiving 8 0x41 true).cntRxOk) :=
  ⟨⟨_, rfl, by decide⟩, ⟨_, rfl, by decide⟩, ⟨_, rfl, by decide⟩⟩

/-- A fault and a refusal that are on record before the operation. -/
theorem test_witness_FaultAndRefusedOnlyGrow :
    ∃ t, exec .init { down with fault := [.txOverlap], refused := true } = .next t ∧
      t.fault = [.txOverlap] ∧ t.refused = true := ⟨_, rfl, by decide⟩

theorem test_witness_HistoryAndWireTraceGrow :
    ∃ t, exec .txtick (sending .start) = .next t ∧ wireTrace t.hist = [(104166, false)] :=
  ⟨_, rfl, by decide⟩

/-- V-T17: both timers due. -/
theorem test_witness_TheTwoTimerTicksCommute :
    ∃ t u, exec .txtick { receiving 3 0x05 false with tx := (sending .start).tx, txTimer := (sending .start).txTimer } = .next t ∧
      exec .rxtick t = .next u ∧ u.txOut = false ∧ u.rx.bitCount = 4 := ⟨_, _, rfl, rfl, by decide⟩

theorem test_witness_EdgeInterruptIsOffDuringAFrame :
    Inv (receiving 3 0x05 true) ∧ (receiving 3 0x05 true).life = .up ∧ (receiving 3 0x05 true).fault = [] ∧
    (receiving 3 0x05 true).rx.active = true ∧
    (∃ t, exec (.line false) (receiving 3 0x05 true) = .next t ∧ t.rxIn = false) ∧
    (∃ t, exec .rxtick (receiving 8 0x41 true) = .next t ∧ t.rxIrqEn = true) ∧
    (∃ t, exec .rxtick (receiving 8 0x41 true) = .next t ∧ t.life = .up ∧ t.rx.active = false) :=
  ⟨inv_of _ (by unfold RunningOk; decide) (by unfold PinsOk; decide) rfl (by unfold CursorsOk; decide)
    (by unfold StorageOk; decide), rfl, rfl, rfl, ⟨_, rfl, by decide⟩, ⟨_, rfl, by decide⟩, ⟨_, rfl, by decide⟩⟩

/-- Operations that are taken, and one that is not. -/
theorem test_witness_EveryOperationAppendsItsRecord :
    (∃ t, exec .rxtick { receiving 8 0x44 true with fifo := full.fifo } = .next t ∧
      taken .rxtick { receiving 8 0x44 true with fifo := full.fifo } = true ∧ t.hist.length = 3) ∧
    (∃ t, exec (.txwait 0) idle = .next t ∧ taken (.txwait 0) idle = false ∧ t.hist = []) :=
  ⟨⟨_, rfl, by decide⟩, ⟨_, rfl, by decide⟩⟩

theorem test_witness_WriteStartsAndWaitsForEachByte :
    (with1 (.write [0x41]) idle).inputs = .write [0x41] :: [] ∧ HoldsOk (with1 (.write [0x41]) idle) ∧
    (let s : State := with1 (.writer 0) { idle with writes := [{ left := [0x41], phase := .start, sent := 0 }] }
     s.life = .up ∧ s.inputs = .writer 0 :: [] ∧
       s.writes[0]? = some { left := [0x41], phase := .start, sent := 0 } ∧ s.txTimer.armed = false) ∧
    (let s : State := with1 (.writer 0) { sending .start with writes := [{ left := [], phase := .wait, sent := 0 }] }
     s.life = .up ∧ s.writes[0]? = some { left := [], phase := .wait, sent := 0 } ∧ s.tx.doneSignal = false) ∧
    (let s : State := with1 (.writer 0) { sending .start with writes := [{ left := [], phase := .held, sent := 0 }] }
     s.life = .up ∧ s.writes[0]? = some { left := [], phase := .held, sent := 0 } ∧ s.tx.doneSignal = false) ∧
    (let s : State := with1 (.writer 0) { sent with writes := [{ left := [], phase := .wait, sent := 0 }] }
     s.life = .up ∧ s.writes[0]? = some { left := [], phase := .wait, sent := 0 } ∧ s.tx.doneSignal = true ∧
       HoldsOk s) := by
  refine ⟨by decide, ⟨by decide, by decide⟩, by decide, by decide, by decide, by decide, by decide, by decide,
    by decide, by decide⟩

/-- The terminal firing under a `WRITE` that is blocked with one byte left. -/
theorem test_witness_LoneWriteNeverOverlaps :
    let s : State := { sending .done with inputs := [.event 0b0001#4], held := [0]
                                          writes := [{ left := [0x0D], phase := .held, sent := 0 }] }
    Inv s ∧ WriterAlone s ∧ s.fault = [] ∧ (∀ x ∈ s.inputs.head?, x.otherStart = false) ∧
    ∃ t, step s = .next t ∧ t.writes = [{ left := [0x0D], phase := .start, sent := 1 }] :=
  ⟨inv_of _ (by unfold RunningOk; decide) (by unfold PinsOk; decide) rfl (by unfold CursorsOk; decide)
    (by unfold StorageOk; decide), ⟨by decide, by decide⟩, rfl, by decide, _, rfl, by decide⟩

/-- Two callers, the second calling `WRITE` after the first is done (R230, D25). The first has been waiting for
its last byte, whose terminal firing is due, and looks at the latch once more. -/
def twoWriters : State :=
  { sending .done with held := [0], writes := [{ left := [], phase := .held, sent := 0 }]
                       inputs := [.event 0x1#4, .host 0x100#12, .write [0x42], .writer 0] }

theorem test_single_writer_in_turn : SingleWriter (fun n => n) twoWriters where
  oneWrite := by decide
  blockedAlone := by decide
  inTurn := by
    intro m n x y hmn hx hy bx wy _
    match m, n, hmn with
    | 0, _, _ => cases hx; cases bx
    | 1, 2, _ => exact ⟨2, by decide, by decide, _, rfl, by decide, by decide, by decide⟩
    | _, 3, _ => cases hy; cases wy
    | _, k + 4, _ => cases hy
    | k + 2, 2, h => exact absurd h (by omega)

/-- U16: two `WRITE`s at once have no move under the premise, whoever the callers are said to be. -/
theorem test_two_writes_at_once (caller : Nat → Nat) :
    ¬ SingleWriter caller { idle with inputs := [.write [0x41], .write [0x42]] } := fun h =>
  absurd (h.blockedAlone 1 (by decide) _ rfl rfl _ rfl).1 (by decide)

/-- Two callers' words: the byte of the first is in flight when the second starts its own. -/
theorem test_two_words_at_once :
    ¬ SingleWriter (fun n => n) { idle with inputs := [.host 0x841#12, .host 0x842#12] } := fun h => by
  obtain ⟨j, h0, h1, u, hu, hf⟩ := h.inTurn 0 1 _ _ (by decide) rfl rfl rfl rfl (by decide)
  obtain rfl : j = 1 := by omega
  cases hu
  exact absurd hf.2.2 (by decide)

theorem test_witness_LoneWriteUnderSingleWriter :
    Inv twoWriters ∧ WriterAlone twoWriters ∧ twoWriters.fault = [] ∧ twoWriters.writes ≠ [] ∧
    (stateAt twoWriters 1).any (fun u => decide (u.writes = [])) = true :=
  ⟨inv_of _ (by unfold RunningOk; decide) (by unfold PinsOk; decide) rfl (by unfold CursorsOk; decide)
    (by unfold StorageOk; decide), ⟨by decide, by decide⟩, rfl, by decide, by decide⟩

/-- The frame of 0xFF, its line HIGH from the first data cell on: after the edge handler, `LINE 1`, and nine
times one period and one sample. -/
def aligned : State :=
  { edge with inputs := [.event 0x2#4, .event 0x5#4] ++
      (List.replicate 9 [.advance 104166, .event 0x3#4]).flatten }

theorem test_witness_AlignedFrameIsReceived :
    TimingAlignment aligned 0xFF 0 (fun k => if k.val = 0 then 0 else 2 * k.val) (fun k => 2 * k.val + 3) where
  handler := by decide
  rising := by decide
  ticks := by decide
  noOther := by decide
  level := by decide
  inside := by decide

theorem test_witness_aligned_up :
    Inv aligned ∧ ∀ n, n < 20 → (stateAt aligned n).any (fun u => decide (u.life = .up)) = true :=
  ⟨inv_of _ (by unfold RunningOk; decide) (by unfold PinsOk; decide) rfl (by unfold CursorsOk; decide)
    (by unfold StorageOk; decide), by decide⟩

/-- Cursors at C, the first slot that does not exist, and the two ends of the unused codes. -/
theorem test_witness_AbsentSlotAndUnusedCodeStopByName :
    (let s : State := { idle with fifo := { storage := [], head := 0, tail := 4 } }
     s.life = .up ∧ s.fifo.head ≠ s.fifo.tail ∧ s.cfg.capacity ≤ s.fifo.tail) ∧
    (let s : State := { receiving 8 0x41 true with fifo := { storage := [], head := 4, tail := 0 } }
     rxTickEnabled s = true ∧ s.rx.bitCount.val = 8 ∧ s.rxIn = true ∧ s.cfg.capacity ≤ s.fifo.head) ∧
    (with1 (.event 0x0#4) idle).inputs = .event 0x0#4 :: [] ∧ EventCode.unused 0x0#4 = true ∧
    EventCode.unused 0x6#4 = true ∧ EventCode.unused 0xF#4 = true := by decide

end Sys2Proof.Tests
end

section
/-! The firings of the TX sequencer (spec 42_tx_sequencer R138 to R142): what `TXTICK` answers in each arm, and
the obligations O19 to O22. -/

namespace Sys2Proof.Machine

/-! ### The index, the arms and the history -/

/-- Every firing but the terminal one moves the index on by one, whatever names its two ends have (R24). -/
theorem TxIndex.toInt_next {k : TxIndex} (h : k ≠ .done) : k.next.toInt = k.toInt + 1 := by
  cases k with
  | start => rfl
  | data i =>
    by_cases hi : i.val < 7
    · simp [TxIndex.next, TxIndex.toInt, hi]
    · have : i.val = 7 := by omega
      simp [TxIndex.next, TxIndex.toInt, this]
  | stop => rfl
  | done => exact absurd rfl h

theorem txFire_start {s : State} (h : s.tx.bitIndex = .start) : txFire s = txShift false s := by
  simp [txFire, h]

theorem txFire_data {s : State} {i : Fin 8} (h : s.tx.bitIndex = .data i) :
    txFire s = txShift (s.tx.targetByte.getLsbD i.val) s := by
  simp [txFire, h]

theorem txFire_stop {s : State} (h : s.tx.bitIndex = .stop) : txFire s = txShift true s := by
  simp [txFire, h]

theorem txFire_done {s : State} (h : s.tx.bitIndex = .done) : txFire s = txFinish s := by
  simp [txFire, h]

/-- The record of an operation adds to the wire trace exactly the level it newly drives (R218). -/
theorem wireTrace_logOp (i : Instr) (r : Option Word) (d : Option Bool) (s : State) :
    wireTrace (logOp i r d s).hist = wireTrace s.hist ++ (d.map (fun v => (s.now, v))).toList := by
  cases d <;> simp [wireTrace]

/-! ### What the operations answer -/

theorem exec_txtick_enabled {s : State} (he : txTickEnabled s = true) :
    exec .txtick s = .next (logOp .txtick none (driveOf s (txFire s)) (txFire s)) := by
  simp [exec, execTxtick, he]

theorem exec_txstart_idle {s : State} (b : Byte) (hu : s.life = .up) (hb : txBusy s = false) :
    exec (.txstart b) s = .next (hostDone (.txstart b) none (loadTx b s)) := by
  have ha : s.txTimer.armed = false := hb
  simp [exec, execTxstart, hu, ha]

/-- The three non-terminal arms in one: the level is driven, the index moves on by one, the timer is forwarded
from its own deadline, the latch stays, and the wire shows the level where it is a new one (R139 to R141). -/
theorem exec_txtick_shift {s : State} {v : Bool} (he : txTickEnabled s = true)
    (hk : s.tx.bitIndex ≠ .done) (hf : txFire s = txShift v s) :
    ∃ t, exec .txtick s = .next t ∧
      t.txOut = v ∧ t.tx.bitIndex.toInt = s.tx.bitIndex.toInt + 1 ∧ t.tx.doneSignal = s.tx.doneSignal ∧
      t.txTimer.armed = true ∧ t.txTimer.deadline = s.txTimer.deadline + 1000000000 / s.cfg.baud ∧
      wireTrace t.hist = wireTrace s.hist ++ (if v = s.txOut then [] else [(s.now, v)]) := by
  obtain ⟨-, harmed, -⟩ := (txTickEnabled_iff s).mp he
  refine ⟨_, exec_txtick_enabled he, ?_⟩
  rw [hf]
  refine ⟨by simp, by simp [TxIndex.toInt_next hk], by simp, by simp [harmed],
    by simp [Params.bitPeriod], ?_⟩
  rw [wireTrace_logOp]
  by_cases hv : v = s.txOut <;> simp [driveOf, hv]

/-- The terminal arm: no level is newly driven (R142). -/
theorem exec_txtick_finish {s : State} (he : txTickEnabled s = true) (hk : s.tx.bitIndex = .done) :
    exec .txtick s = .next (logOp .txtick none none (txFinish s)) := by
  rw [exec_txtick_enabled he, txFire_done hk]
  simp [driveOf]

/-! ### The obligations -/

/-- Settles O19: the START arm is the shift of a LOW, a new level where the output is HIGH. -/
theorem txtickStartDrivesLow : Obligations.TxtickStartDrivesLow := by
  intro s he hk
  obtain ⟨t, ht, hout, hidx, hlatch, harmed, hdl, hwire⟩ :=
    exec_txtick_shift he (by simp [hk]) (txFire_start hk)
  refine ⟨t, ht, hout, by rw [hidx, hk]; rfl, hlatch, harmed, hdl, fun hhigh => ?_⟩
  simp [hwire, hhigh]

/-- Settles O20: the arm of DATA[i] is the shift of bit i, no new level where the output has it already. -/
theorem txtickDataDrivesTheBit : Obligations.TxtickDataDrivesTheBit := by
  intro s i he hk
  obtain ⟨t, ht, hout, hidx, hlatch, harmed, hdl, hwire⟩ :=
    exec_txtick_shift he (by simp [hk]) (txFire_data hk)
  refine ⟨t, ht, hout, by rw [hidx, hk]; rfl, hlatch, harmed, hdl, fun hsame => ?_⟩
  have hlevel : s.tx.targetByte.getLsbD i.val = s.txOut := hout.symm.trans hsame
  rw [hwire, if_pos hlevel, List.append_nil]

/-- Settles O21: the STOP arm is the shift of a HIGH, which leaves the latch to the terminal firing. -/
theorem txtickStopDrivesHigh : Obligations.TxtickStopDrivesHigh := by
  intro s he hk
  obtain ⟨t, ht, hout, hidx, hlatch, harmed, hdl, -⟩ :=
    exec_txtick_shift he (by simp [hk]) (txFire_stop hk)
  exact ⟨t, ht, hout, by rw [hidx, hk]; rfl, hlatch, harmed, hdl⟩

/-- Settles O22: the terminal firing disarms the timer, so the TXSTART after it meets no byte in flight. -/
theorem txtickDoneSignalsCompletion : Obligations.TxtickDoneSignalsCompletion := by
  intro s b he hk
  obtain ⟨hup, -, -⟩ := (txTickEnabled_iff s).mp he
  refine ⟨_, exec_txtick_finish he hk, by simp, by simp, by simp [txBusy], by simp,
    by simp [hk, TxIndex.toInt], ?_⟩
  refine ⟨_, exec_txstart_idle b (by simp [hup]) (by simp [txBusy]), by simp, by simp, ?_⟩
  simp [TxIndex.toInt]

end Sys2Proof.Machine
end

section
/-! The counter reads of the facade (spec 44_facade_and_status R184, R185): their words, their answers, and the
obligations O45 and O46. -/

namespace Sys2Proof

/-! ### Words by their leading four bits, `w` and `aaa` of R83 -/

/-- The mask of a row with an operand (R82) clears the operand field and keeps the leading bits. -/
theorem hits_operandRow (x : BitVec 4) (d : Byte) (p : HostWord) :
    HostWord.hits (x ++ d) 0xF00#12 p = (x ++ 0#8 == p) := by
  have hmask : (0xF00#12 : HostWord) = 0xF#4 ++ 0#8 := by decide
  have hones : x &&& 0xF#4 = x := BitVec.and_allOnes (x := x)
  rw [HostWord.hits, hmask, BitVec.and_append, hones, BitVec.and_zero]

/-- A row that fixes all twelve bits (R82) is missed by a word with other leading bits. -/
theorem hits_fixedRow_of_ne {x : BitVec 4} {p : HostWord} (d : Byte) (h : x ≠ p.extractLsb' 8 4) :
    HostWord.hits (x ++ d) 0xFFF#12 p = false := by
  have hones : (x ++ d : HostWord) &&& 0xFFF#12 = x ++ d := BitVec.and_allOnes (x := x ++ d)
  rw [HostWord.hits, hones, beq_eq_false_iff_ne]
  rintro rfl
  exact h BitVec.extractLsb'_append_eq_left.symm

theorem data_append (x : BitVec 4) (d : Byte) : HostWord.data (x ++ d) = d :=
  BitVec.extractLsb'_append_eq_right

theorem decode_readOfCntOk (d : Byte) : decode (.h (0b0101#4 ++ d)) = .ok (.rdcntok d) := by
  simp [decode, decodeHost, hits_operandRow, hits_fixedRow_of_ne, data_append]

theorem decode_readOfCntFerr (d : Byte) : decode (.h (0b0110#4 ++ d)) = .ok (.rdcntfe d) := by
  simp [decode, decodeHost, hits_operandRow, hits_fixedRow_of_ne, data_append]

end Sys2Proof

namespace Sys2Proof.Machine

/-! ### What the reads answer -/

/-- Completing a host operation is no side effect: outside the port only the history moves (R46, R218). -/
theorem hostDone_sideEffectFree (i : Instr) (r : Option Word) (s : State) :
    SameTx s (hostDone i r s) ∧ SameRx s (hostDone i r s) ∧ SameFifo s (hostDone i r s) ∧
    SameCounters s (hostDone i r s) ∧ SameLife s (hostDone i r s) ∧ SameWorld s (hostDone i r s) ∧
    SameMarks s (hostDone i r s) := by
  simp [SameTx, SameRx, SameFifo, SameCounters, SameLife, SameWorld, SameMarks]

theorem exec_rdcntok_up {s : State} (d : Byte) (hu : s.life = .up) :
    exec (.rdcntok d) s = .next (hostDone (.rdcntok d) (some s.cntRxOk) s) := by
  simp [exec, execRdcntok, hu]

theorem exec_rdcntok_down {s : State} (d : Byte) (hd : s.life = .down) :
    exec (.rdcntok d) s = .next (refuseRead s) := by
  simp [exec, execRdcntok, hd]

theorem exec_rdcntfe_up {s : State} (d : Byte) (hu : s.life = .up) :
    exec (.rdcntfe d) s = .next (hostDone (.rdcntfe d) (some s.cntRxFerr) s) := by
  simp [exec, execRdcntfe, hu]

theorem exec_rdcntfe_down {s : State} (d : Byte) (hd : s.life = .down) :
    exec (.rdcntfe d) s = .next (refuseRead s) := by
  simp [exec, execRdcntfe, hd]

/-! ### The obligations -/

/-- Settles O45: in UP the read is completed with `cnt_rx_ok`, in DOWN it is refused. -/
theorem rdcntokAnswersTheCounter : Obligations.RdcntokAnswersTheCounter := by
  refine fun s d => ⟨decode_readOfCntOk d, fun hu => ?_, fun hd => ?_⟩
  · exact ⟨_, exec_rdcntok_up d hu, hostDone_hReady .., hostDone_hRdata .., hostDone_sideEffectFree ..⟩
  · exact ⟨_, exec_rdcntok_down d hd, refuseRead_refused _⟩

/-- Settles O46: in UP the read is completed with `cnt_rx_ferr`, in DOWN it is refused. -/
theorem rdcntfeAnswersTheCounter : Obligations.RdcntfeAnswersTheCounter := by
  refine fun s d => ⟨decode_readOfCntFerr d, fun hu => ?_, fun hd => ?_⟩
  · exact ⟨_, exec_rdcntfe_up d hu, hostDone_hReady .., hostDone_hRdata .., hostDone_sideEffectFree ..⟩
  · exact ⟨_, exec_rdcntfe_down d hd, refuseRead_refused _⟩

end Sys2Proof.Machine
end

section
/-! The decoder and the encoder (spec 30_encoding R82 to R87): what a row's match says of a word, and the
obligations O1 to O4. -/

namespace Sys2Proof

/-! ### What a match says -/

/-- A word is its leading four bits, `w` and `aaa`, and its operand field (R83). -/
theorem exists_leading (w : HostWord) : ∃ x : BitVec 4, w = x ++ HostWord.data w :=
  ⟨BitVec.ofBool (HostWord.isWrite w) ++ HostWord.addr w, hostWord_fields w⟩

/-- A word that matches a row with an operand has the row's leading bits (R82). -/
theorem eq_append_of_hits {w p : HostWord} {x : BitVec 4} (h : HostWord.hits w 0xF00#12 p = true)
    (hp : p = x ++ 0#8) : w = x ++ HostWord.data w := by
  obtain ⟨y, hy⟩ := exists_leading w
  have hx : y ++ 0#8 = x ++ 0#8 := by
    rw [hy, hits_operandRow, beq_iff_eq] at h
    exact h.trans hp
  have hyx := congrArg (BitVec.extractLsb' 8 4) hx
  rw [BitVec.extractLsb'_append_eq_left, BitVec.extractLsb'_append_eq_left] at hyx
  rwa [hyx] at hy

/-- A word that matches a row of twelve fixed bits is the row's word (R82). -/
theorem eq_of_hits {w p : HostWord} (h : HostWord.hits w 0xFFF#12 p = true) : w = p := by
  have hones : w &&& 0xFFF#12 = w := BitVec.and_allOnes (x := w)
  rwa [HostWord.hits, hones, beq_iff_eq] at h

theorem toNat_append_byte (x : BitVec 4) (d : Byte) : (x ++ d).toNat = x.toNat * 256 + d.toNat := by
  rw [BitVec.toNat_append, ← Nat.shiftLeft_add_eq_or_of_lt d.isLt, Nat.shiftLeft_eq]

/-- The match of a row with an operand, in numbers. -/
theorem hits_operandRow_iff (w p : HostWord) :
    HostWord.hits w 0xF00#12 p = true ↔ w.toNat / 256 * 256 = p.toNat := by
  obtain ⟨x, hx⟩ := exists_leading w
  rw [hx, hits_operandRow, beq_iff_eq, ← BitVec.toNat_inj, toNat_append_byte, toNat_append_byte,
    BitVec.toNat_ofNat]
  have := (HostWord.data w).isLt
  omega

/-- The match of a row of twelve fixed bits, in numbers. -/
theorem hits_fixedRow_iff (w p : HostWord) : HostWord.hits w 0xFFF#12 p = true ↔ w.toNat = p.toNat := by
  refine ⟨fun h => by rw [eq_of_hits h], fun h => ?_⟩
  rw [BitVec.eq_of_toNat_eq h, HostWord.hits, beq_iff_eq]
  exact BitVec.and_allOnes (x := p)

/-! ### The two formats -/

/-! The words with an operand, by their leading bits, and the codes of the two timers (R82 to R84). -/

theorem encode_txstart (b : Byte) : encode (.txstart b) = .h (0b1000#4 ++ b) := rfl
theorem encode_txwait (d : Byte) : encode (.txwait d) = .h (0b0001#4 ++ d) := rfl
theorem encode_rxpop (d : Byte) : encode (.rxpop d) = .h (0b0010#4 ++ d) := rfl
theorem encode_rdstat (d : Byte) : encode (.rdstat d) = .h (0b0011#4 ++ d) := rfl
theorem encode_rdcntok (d : Byte) : encode (.rdcntok d) = .h (0b0101#4 ++ d) := rfl
theorem encode_rdcntfe (d : Byte) : encode (.rdcntfe d) = .h (0b0110#4 ++ d) := rfl
theorem encode_txtick : encode .txtick = .e 0b0001#4 := rfl
theorem encode_rxtick : encode .rxtick = .e 0b0011#4 := rfl

/-- Format H: what the decoder reads from a word is an operation of that word (R82). -/
theorem encode_of_decodeHost {w : HostWord} {i : Instr} (h : decodeHost w = .ok i) : encode i = .h w := by
  unfold decodeHost at h
  split at h
  · cases h; rw [encode_txstart, ← eq_append_of_hits ‹_› (by decide)]
  split at h
  · cases h; rw [encode_txwait, ← eq_append_of_hits ‹_› (by decide)]
  split at h
  · cases h; rw [encode_rxpop, ← eq_append_of_hits ‹_› (by decide)]
  split at h
  · cases h; rw [encode_rdstat, ← eq_append_of_hits ‹_› (by decide)]
  split at h
  · cases h; rw [eq_of_hits (w := w) (p := 0xC01#12) ‹_›]; rfl
  split at h
  · cases h; rw [eq_of_hits (w := w) (p := 0xC00#12) ‹_›]; rfl
  split at h
  · cases h; rw [encode_rdcntok, ← eq_append_of_hits ‹_› (by decide)]
  split at h
  · cases h; rw [encode_rdcntfe, ← eq_append_of_hits ‹_› (by decide)]
  · cases h

/-- Format H: the words that no row matches are those of the ranges of R86. -/
theorem decodeHost_error_iff (w : HostWord) :
    (∃ e, decodeHost w = .error e) ↔ HostWord.reserved w = true := by
  have hw := w.isLt
  have rows : (∃ e, decodeHost w = .error e) ↔
      ¬ (w.toNat / 256 = 8 ∨ w.toNat / 256 = 1 ∨ w.toNat / 256 = 2 ∨ w.toNat / 256 = 3 ∨
        w.toNat = 0xC01 ∨ w.toNat = 0xC00 ∨ w.toNat / 256 = 5 ∨ w.toNat / 256 = 6) := by
    simp only [decodeHost, hits_operandRow_iff, hits_fixedRow_iff, BitVec.toNat_ofNat]
    repeat' split
    all_goals simp
    all_goals omega
  rw [rows]
  simp only [HostWord.reserved, Bool.or_eq_true, Bool.and_eq_true, decide_eq_true_eq]
  omega

/-- Format E: what the decoder reads from a code is the event of that code (R84). -/
theorem encode_of_decodeEvent {c : EventCode} {i : Instr} (h : decodeEvent c = .ok i) : encode i = .e c := by
  have codes : ∀ c : EventCode, ∀ i ∈ (decodeEvent c).toOption, encode i = .e c := by decide
  exact codes c i (by rw [h]; rfl)

/-- Format E: the codes that name no event are the unused ones of R84. -/
theorem decodeEvent_error_iff (c : EventCode) :
    (∃ e, decodeEvent c = .error e) ↔ EventCode.unused c = true := by
  have codes : ∀ c : EventCode, (decodeEvent c).toOption.isNone = EventCode.unused c := by decide
  rw [← codes c]
  cases decodeEvent c <;> simp [Except.toOption]

/-! ### The obligations -/

/-- Settles O1: by the leading bits of each operation's word, which no other row of the table has. -/
theorem encodedInstructionDecodesBack : Obligations.EncodedInstructionDecodesBack := by
  intro i _
  cases i with
  | txstart b => simp [encode_txstart, decode, decodeHost, hits_operandRow, data_append]
  | txwait d => simp [encode_txwait, decode, decodeHost, hits_operandRow, data_append]
  | rxpop d => simp [encode_rxpop, decode, decodeHost, hits_operandRow, data_append]
  | rdstat d => simp [encode_rdstat, decode, decodeHost, hits_operandRow, data_append]
  | init => decide
  | teardown => decide
  | rdcntok d => exact decode_readOfCntOk d
  | rdcntfe d => exact decode_readOfCntFerr d
  | txtick => decide
  | rxedge => decide
  | rxtick => decide
  | line v => cases v <;> decide

/-- Settles O2: format by format. -/
theorem decodedCodeEncodesBack : Obligations.DecodedCodeEncodesBack := by
  intro c i h
  cases c with
  | h w => exact encode_of_decodeHost h
  | e c => exact encode_of_decodeEvent h

/-- Settles O3: format by format. -/
theorem decodingRejectsExactlyTheReservedCodes : Obligations.DecodingRejectsExactlyTheReservedCodes := by
  intro c
  cases c with
  | h w => simpa [decode, Code.wf] using decodeHost_error_iff w
  | e c => simpa [decode, Code.wf] using decodeEvent_error_iff c

/-- Settles O4: the words one by one. -/
theorem wordsOfTheSpecDecode : Obligations.WordsOfTheSpecDecode := by
  unfold Obligations.WordsOfTheSpecDecode
  decide

end Sys2Proof
end

section
/-! What an operation can do, said once (`Effect`), and the invariants of every step: the obligations O9, O10
and O13 to O16. -/

namespace Sys2Proof.Machine

/-! ### What an operation can do -/

/-- The ways in which an operation taken at `s` can end in a next state, each with the condition under which
it does: the inversion lemmas of the meanings, put together. -/
inductive Effect (s : State) : Instr → State → Prop
  | writeRefused (i : Instr) : taken i s = false → Effect s i (refuseWrite s)
  | readRefused (i : Instr) : taken i s = false → Effect s i (refuseRead s)
  | passedOver (i : Instr) : taken i s = false → Effect s i s
  | overlap (b : Byte) : s.life = .up → s.txTimer.armed = true →
      Effect s (.txstart b) (hostDone (.txstart b) none (corruptTx (recordFault .txOverlap s)))
  | load (b : Byte) : s.life = .up → s.txTimer.armed = false →
      Effect s (.txstart b) (hostDone (.txstart b) none (loadTx b s))
  | waitDone (d : Byte) : s.life = .up → s.tx.doneSignal = true →
      Effect s (.txwait d) (hostDone (.txwait d) (some waitAnswer) s)
  | waitHeld (d : Byte) : s.life = .up → s.tx.doneSignal = false → Effect s (.txwait d) (holdWait d s)
  | popEmpty (d : Byte) : s.life = .up → s.fifo.head = s.fifo.tail →
      Effect s (.rxpop d) (hostDone (.rxpop d) (some 0) s)
  | pop (d : Byte) : s.life = .up → s.fifo.head ≠ s.fifo.tail → s.fifo.tail < s.cfg.capacity →
      Effect s (.rxpop d)
        (hostDone (.rxpop d) (some (popAnswer (some (Memory.read s.fifo.storage s.fifo.tail))))
          { s with fifo := poppedFifo s })
  | readStatus (d : Byte) : Effect s (.rdstat d) (hostDone (.rdstat d) (some (status s)) s)
  | readCntOk (d : Byte) : s.life = .up →
      Effect s (.rdcntok d) (hostDone (.rdcntok d) (some s.cntRxOk) s)
  | readCntFerr (d : Byte) : s.life = .up →
      Effect s (.rdcntfe d) (hostDone (.rdcntfe d) (some s.cntRxFerr) s)
  | initOk : s.life = .down → s.initDraw = .ok → Effect s .init (initOk s)
  | initMapFail : s.life = .down → s.initDraw = .mapFail → Effect s .init (initMapFail s)
  | initIrqFail : s.life = .down → s.initDraw = .irqFail → Effect s .init (initIrqFail s)
  | teardown : s.life = .up → Effect s .teardown (hostDone .teardown none (bringDown s))
  | shift (v : Bool) : txTickEnabled s = true → s.tx.bitIndex ≠ .done → txFire s = txShift v s →
      Effect s .txtick (logOp .txtick none (driveOf s (txShift v s)) (txShift v s))
  | finish : txTickEnabled s = true → s.tx.bitIndex = .done →
      Effect s .txtick (logOp .txtick none none (txFinish s))
  | edgeIgnored : rxEdgeEnabled s = true → s.rx.active = true →
      Effect s .rxedge (logOp .rxedge none none { s with rxEdgePending := false })
  | frameStarts : rxEdgeEnabled s = true → s.rx.active = false →
      Effect s .rxedge (logOp .rxedge none none (startFrame { s with rxEdgePending := false }))
  | sample (hc : s.rx.bitCount.val < 8) : rxTickEnabled s = true →
      Effect s .rxtick (logOp .rxtick none none (sampleBit s hc))
  | accept : rxTickEnabled s = true → ¬ s.rx.bitCount.val < 8 → s.rxIn = true →
      s.fifo.head < s.cfg.capacity → Effect s .rxtick (acceptedState (logOp .rxtick none none s))
  | drop : rxTickEnabled s = true → ¬ s.rx.bitCount.val < 8 → s.rxIn = false →
      Effect s .rxtick (droppedState (logOp .rxtick none none s))
  | line (v : Bool) : Effect s (.line v) (logOp (.line v) none none (driveLine v s))

theorem sampleBit_logOp (s : State) (hc : s.rx.bitCount.val < 8) :
    sampleBit (logOp .rxtick none none s) hc = logOp .rxtick none none (sampleBit s hc) := rfl

theorem isUp_of_up {s : State} (h : s.life = .up) : isUp s = true := by simp [isUp, h]

theorem isUp_of_down {s : State} (h : s.life = .down) : isUp s = false := by simp [isUp, h]

/-- An operation that answers a next state does one of the above. -/
theorem exec_effect {i : Instr} {s t : State} (h : exec i s = .next t) : Effect s i t := by
  cases i with
  | txstart b =>
    rcases execTxstart_next h with ⟨hl, rfl⟩ | ⟨hl, ha, rfl⟩ | ⟨hl, ha, rfl⟩
    · exact .writeRefused _ (isUp_of_down hl)
    · exact .overlap b hl ha
    · exact .load b hl ha
  | txwait d =>
    rcases execTxwait_next h with ⟨hl, rfl⟩ | ⟨hl, hd, rfl⟩ | ⟨hl, hd, rfl⟩
    · exact .readRefused _ (by simp [taken, isUp_of_down hl])
    · exact .waitDone d hl hd
    · exact .waitHeld d hl hd
  | rxpop d =>
    rcases execRxpop_next h with ⟨hl, rfl⟩ | ⟨hl, he, rfl⟩ | ⟨hl, he, ht, rfl⟩
    · exact .readRefused _ (isUp_of_down hl)
    · exact .popEmpty d hl he
    · exact .pop d hl he ht
  | rdstat d => rw [execRdstat_next h]; exact .readStatus d
  | init =>
    rcases execInit_next h with ⟨hl, rfl⟩ | ⟨hl, ho, rfl⟩ | ⟨hl, ho, rfl⟩ | ⟨hl, ho, rfl⟩
    · exact .writeRefused _ (by simp [taken, isUp_of_up hl])
    · exact .initOk hl ho
    · exact .initMapFail hl ho
    · exact .initIrqFail hl ho
  | teardown =>
    rcases execTeardown_next h with ⟨hl, rfl⟩ | ⟨hl, rfl⟩
    · exact .writeRefused _ (isUp_of_down hl)
    · exact .teardown hl
  | rdcntok d =>
    rcases execRdcntok_next h with ⟨hl, rfl⟩ | ⟨hl, rfl⟩
    · exact .readRefused _ (isUp_of_down hl)
    · exact .readCntOk d hl
  | rdcntfe d =>
    rcases execRdcntfe_next h with ⟨hl, rfl⟩ | ⟨hl, rfl⟩
    · exact .readRefused _ (isUp_of_down hl)
    · exact .readCntFerr d hl
  | txtick =>
    rcases execTxtick_next h with ⟨he, rfl⟩ | ⟨he, rfl⟩
    · exact .passedOver _ he
    · rcases txFire_shift_or_finish s with ⟨hk, v, hf⟩ | ⟨hk, hf⟩
      · rw [hf]; exact .shift v he hk hf
      · rw [hf, show driveOf s (txFinish s) = none by simp [driveOf]]; exact .finish he hk
  | rxedge =>
    rcases execRxedge_next h with ⟨he, rfl⟩ | ⟨he, ha, rfl⟩ | ⟨he, ha, rfl⟩
    · exact .passedOver _ he
    · exact .edgeIgnored he ha
    · exact .frameStarts he ha
  | rxtick =>
    rcases execRxtick_next h with ⟨he, rfl⟩ | ⟨he, hc, rfl⟩ | ⟨he, hc, hv, hh, rfl⟩ | ⟨he, hc, hv, rfl⟩
    · exact .passedOver _ he
    · rw [sampleBit_logOp s hc]; exact .sample hc he
    · exact .accept he hc hv hh
    · exact .drop he hc hv
  | line v => rw [execLine_next h]; exact .line v

/-! The composed updates, as the named updates of Laws/State.lean that `simp` reads the fields off. -/

@[simp] theorem initOk_eq (s : State) :
    initOk s = respond none (logOp .init none (some true) (bringUp s)) := rfl
@[simp] theorem initMapFail_eq (s : State) :
    initMapFail s =
      { raiseEvent (.initFailure .mapping) (hostDone .init none s) with lastErr := .mapping } := rfl
@[simp] theorem initIrqFail_eq (s : State) :
    initIrqFail s =
      { releaseTxOut (pinsUnset (raiseEvent (.initFailure .irqRegistration) (hostDone .init none s))) with
        lastErr := .irqRegistration } := rfl
@[simp] theorem sampleBit_eq (s : State) (hc : s.rx.bitCount.val < 8) :
    sampleBit s hc =
      { s with
        rx := { s.rx with
                accumulator := accumulate s.rx.accumulator s.rxIn s.rx.bitCount.val
                bitCount := ⟨s.rx.bitCount.val + 1, by omega⟩ }
        rxTimer := { s.rxTimer with deadline := s.rxTimer.deadline + s.cfg.bitPeriod } } := rfl
@[simp] theorem acceptedState_eq (s : State) :
    acceptedState s =
      endFrame (recordEvent (.frameOk s.rx.accumulator)
        { s with fifo := pushedFifo s.rx.accumulator s, hist := s.hist ++ pushRecords s,
                 cntRxOk := s.cntRxOk + 1 }) := rfl
@[simp] theorem droppedState_eq (s : State) :
    droppedState s = endFrame (raiseEvent (.framingError s.rx.accumulator) s) := rfl

/-! ### Time and parameters -/

/-- No operation moves time, and none changes a parameter (R72, R105). -/
theorem exec_now_cfg {i : Instr} {s t : State} (h : exec i s = .next t) : t.now = s.now ∧ t.cfg = s.cfg := by
  cases exec_effect h <;> simp

theorem step_now_le {s t : State} (h : step s = .next t) : s.now ≤ t.now := by
  refine step_keeps (P := fun u => s.now ≤ u.now) ?_ ?_ ?_ ?_ (Nat.le_refl _) h
  · intro i u v hu hv
    rw [(exec_now_cfg hv).1]
    exact hu
  · intros; assumption
  · intro dt u hu _
    exact Nat.le_add_right_of_le hu
  · intro u hu
    exact hu

theorem step_cfg {s t : State} (h : step s = .next t) : t.cfg = s.cfg := by
  refine step_keeps (P := fun u => u.cfg = s.cfg) ?_ ?_ ?_ ?_ rfl h
  · intro i u v hu hv
    rw [(exec_now_cfg hv).2]
    exact hu
  · intros; assumption
  · intros; assumption
  · intro u hu
    exact hu

/-- R8: `RX_PIN` is counted among the pins that are not `TX_PIN`. -/
theorem txPin_ne_rxPin (p : Params) : p.txPin ≠ p.rxPin := by
  unfold Params.rxPin
  split <;> omega

/-! ### The FIFO under an operation -/

/-- What an operation does to the FIFO: nothing, or what `INIT`, a pop or a push does. -/
theorem exec_fifo {i : Instr} {s t : State} (h : exec i s = .next t) :
    t.fifo = s.fifo ∨
    (i = .init ∧ t.fifo = { s.fifo with head := 0, tail := 0 }) ∨
    ((∃ d, i = .rxpop d) ∧ s.fifo.tail < s.cfg.capacity ∧ t.fifo = poppedFifo s) ∨
    (i = .rxtick ∧ s.fifo.head < s.cfg.capacity ∧ t.fifo = pushedFifo s.rx.accumulator s) := by
  cases exec_effect h with
  | initOk => simp
  | pop d hl he ht => simp [ht]
  | accept he hc hv hh => simp [hh]
  | _ => simp

theorem poppedFifo_wf {s : State} (h : Memory.wf s.fifo.storage) : Memory.wf (poppedFifo s).storage :=
  Memory.write_wf _ _ _ h

theorem pushedFifo_wf {b : Byte} {s : State} (h : Memory.wf s.fifo.storage) :
    Memory.wf (pushedFifo b s).storage :=
  Memory.write_wf _ _ _ h

theorem exec_storage_wf {i : Instr} {s t : State} (hs : Memory.wf s.fifo.storage)
    (h : exec i s = .next t) : Memory.wf t.fifo.storage := by
  rcases exec_fifo h with e | ⟨_, e⟩ | ⟨_, _, e⟩ | ⟨_, _, e⟩ <;> rw [e]
  · exact hs
  · exact hs
  · exact poppedFifo_wf hs
  · exact pushedFifo_wf hs

/-- A write into a slot that exists lists no slot that does not (R61). -/
theorem slots_write_lt {m : Memory} {c i : Nat} (v : Byte) (hm : ∀ x ∈ m, x.1 < c) (hi : i < c) :
    ∀ x ∈ Memory.write m i v, x.1 < c := by
  intro x hx
  rcases Memory.slots_write m i v x hx with rfl | hx
  · exact hi
  · exact hm x hx

theorem exec_storageOk {i : Instr} {s t : State} (hs : StorageOk s) (h : exec i s = .next t) :
    StorageOk t := by
  refine ⟨exec_storage_wf hs.1 h, ?_⟩
  rw [(exec_now_cfg h).2]
  rcases exec_fifo h with e | ⟨_, e⟩ | ⟨_, hi, e⟩ | ⟨_, hi, e⟩ <;> rw [e]
  · exact hs.2
  · exact hs.2
  · exact slots_write_lt _ hs.2 hi
  · exact slots_write_lt _ hs.2 hi

theorem cursorsOk_popped {s : State} (h : CursorsOk s) :
    (poppedFifo s).head < s.cfg.capacity ∧ (poppedFifo s).tail < s.cfg.capacity :=
  ⟨h.1, cursorNext_lt s _⟩

theorem cursorsOk_pushed {s : State} (b : Byte) (h : CursorsOk s) :
    (pushedFifo b s).head < s.cfg.capacity ∧ (pushedFifo b s).tail < s.cfg.capacity := by
  refine ⟨cursorNext_lt s _, ?_⟩
  unfold pushedFifo
  dsimp only
  split
  · exact cursorNext_lt s _
  · exact h.2

theorem exec_cursorsOk {i : Instr} {s t : State} (hs : CursorsOk s) (h : exec i s = .next t) :
    CursorsOk t := by
  unfold CursorsOk
  rw [(exec_now_cfg h).2]
  rcases exec_fifo h with e | ⟨_, e⟩ | ⟨_, _, e⟩ | ⟨_, _, e⟩ <;> rw [e]
  · exact hs
  · have := capacity_pos s.cfg
    exact ⟨by simp; omega, by simp; omega⟩
  · exact cursorsOk_popped hs
  · exact cursorsOk_pushed _ hs

/-! ### The invariant of the machine -/

theorem exec_keeps_pinsOk {i : Instr} {s t : State} (hs : s.life = .up → PinsOk s)
    (h : exec i s = .next t) : t.life = .up → PinsOk t := by
  cases exec_effect h with
  | initOk => simp [PinsOk]
  | initMapFail hl => simp [hl]
  | initIrqFail hl => simp [hl]
  | teardown => simp
  | _ => simpa [PinsOk] using hs

theorem exec_keeps_downOk {i : Instr} {s t : State} (hs : s.life = .down → DownOk s)
    (h : exec i s = .next t) : t.life = .down → DownOk t := by
  cases exec_effect h with
  | overlap b hl => simp [hl]
  | load b hl => simp [hl]
  | initOk => simp
  | initIrqFail hl =>
    obtain ⟨h1, h2, h3, h4, h5, -, -⟩ := hs hl
    simp [DownOk, h1, h2, h3, h4, h5]
  | teardown => simp [DownOk]
  | shift v he => simp [((txTickEnabled_iff s).mp he).1]
  | finish he => simp [((txTickEnabled_iff s).mp he).1]
  | edgeIgnored he => simp [((rxEdgeEnabled_iff s).mp he).1]
  | frameStarts he => simp [((rxEdgeEnabled_iff s).mp he).1]
  | sample hc he => simp [((rxTickEnabled_iff s).mp he).1]
  | accept he => simp [((rxTickEnabled_iff s).mp he).1]
  | drop he => simp [((rxTickEnabled_iff s).mp he).1]
  | line v =>
    simp only [logOp_life, driveLine_life]
    intro hd
    have hn : edgeCaught s v = false := by simp [edgeCaught, isUp_of_down hd]
    simpa [DownOk, hn] using hs hd
  | _ => simpa [DownOk] using hs

/-- The fault set of a step's operation was empty before, where it is empty after (R43). -/
theorem exec_fault_mono {i : Instr} {s t : State} (h : exec i s = .next t) : ∀ f ∈ s.fault, f ∈ t.fault := by
  intro f hf
  cases exec_effect h with
  | overlap b _ _ =>
    simp only [hostDone_fault, corruptTx_fault, recordFault_fault]
    split <;> simp [hf]
  | _ => simpa using hf

theorem fault_nil_of_exec {i : Instr} {s t : State} (h : exec i s = .next t) (ht : t.fault = []) :
    s.fault = [] := by
  refine List.eq_nil_iff_forall_not_mem.mpr fun f hf => ?_
  have := exec_fault_mono h f hf
  rw [ht] at this
  cases this

theorem fault_overlap_ne_nil (b : Byte) (s : State) :
    (hostDone (.txstart b) none (corruptTx (recordFault .txOverlap s))).fault ≠ [] := by
  simp only [hostDone_fault, corruptTx_fault, recordFault_fault]
  split
  · exact List.ne_nil_of_mem ‹_›
  · simp

theorem exec_keeps_runningOk {i : Instr} {s t : State} (hs : s.life = .up → s.fault = [] → RunningOk s)
    (h : exec i s = .next t) : t.life = .up → t.fault = [] → RunningOk t := by
  intro hu hf
  have hf' := fault_nil_of_exec h hf
  cases exec_effect h with
  | overlap b _ _ => exact absurd hf (fault_overlap_ne_nil b s)
  | load b hl _ =>
    obtain ⟨ha, hb, hc, -, -⟩ := hs hl hf'
    simpa [RunningOk] using ⟨ha, hb, hc⟩
  | initOk => simp [RunningOk]
  | initMapFail hl => simp [hl] at hu
  | initIrqFail hl => simp [hl] at hu
  | teardown => simp at hu
  | shift v he _ _ =>
    obtain ⟨hl, harmed, -⟩ := (txTickEnabled_iff s).mp he
    obtain ⟨ha, hb, hc, hd, -⟩ := hs hl hf'
    simpa [RunningOk, harmed] using ⟨ha, hb, hc, hd harmed⟩
  | finish he hk =>
    obtain ⟨hl, -, -⟩ := (txTickEnabled_iff s).mp he
    obtain ⟨ha, hb, hc, -, -⟩ := hs hl hf'
    simpa [RunningOk, hk] using ⟨ha, hb, hc⟩
  | edgeIgnored he hact =>
    obtain ⟨hl, hp⟩ := (rxEdgeEnabled_iff s).mp he
    obtain ⟨-, -, hc, -, -⟩ := hs hl hf'
    simp [(hc hp).2] at hact
  | frameStarts he _ =>
    obtain ⟨hl, -⟩ := (rxEdgeEnabled_iff s).mp he
    obtain ⟨-, -, -, hd, hf⟩ := hs hl hf'
    simpa [RunningOk] using ⟨hd, hf⟩
  | accept he =>
    obtain ⟨hl, -⟩ := (rxTickEnabled_iff s).mp he
    obtain ⟨-, -, -, hd, hf⟩ := hs hl hf'
    simpa [RunningOk] using ⟨hd, hf⟩
  | drop he =>
    obtain ⟨hl, -⟩ := (rxTickEnabled_iff s).mp he
    obtain ⟨-, -, -, hd, hf⟩ := hs hl hf'
    simpa [RunningOk] using ⟨hd, hf⟩
  | line v =>
    obtain ⟨ha, hb, hc, hd, he⟩ := hs (by simpa using hu) hf'
    have hp : s.rxEdgePending = true ∨ edgeCaught s v = true → s.rxIrqEn = true ∧ s.rx.active = false := by
      rintro (hp | hp)
      · exact hc hp
      · obtain ⟨-, -, -, hi, -⟩ := (edgeCaught_iff s v).mp hp
        exact ⟨hi, by simpa [hi] using hb⟩
    simpa [RunningOk] using ⟨ha, hb, hp, hd, he⟩
  | _ => simpa [RunningOk] using hs (by simpa using hu) hf'

theorem exec_keeps_inv {i : Instr} {s t : State} (hs : Inv s) (h : exec i s = .next t) : Inv t where
  running := exec_keeps_runningOk hs.running h
  pins := exec_keeps_pinsOk hs.pins h
  down := exec_keeps_downOk hs.down h
  cursors := exec_cursorsOk hs.cursors h
  storage := exec_storageOk hs.storage h

/-- Hardware reset puts the block into DOWN with an empty storage, whatever the parameters (R240). -/
theorem inv_hardwareReset (s : State) : Inv (hardwareReset s) where
  running := fun h => nomatch h
  pins := fun h => nomatch h
  down := fun _ => ⟨rfl, rfl, rfl, rfl, rfl, rfl, rfl⟩
  cursors := by
    have := capacity_pos s.cfg
    exact ⟨show 0 < s.cfg.capacity by omega, show 0 < s.cfg.capacity by omega⟩
  storage := ⟨⟨List.Pairwise.nil, nofun⟩, nofun⟩

theorem step_keeps_inv {s t : State} (hs : Inv s) (h : step s = .next t) : Inv t := by
  refine step_keeps (P := Inv) (fun _ _ _ hu hv => exec_keeps_inv hu hv) ?_ ?_
    (fun u _ => inv_hardwareReset u) hs h
  · exact fun _ _ _ _ _ _ _ _ _ _ _ _ hu => ⟨hu.running, hu.pins, hu.down, hu.cursors, hu.storage⟩
  · exact fun _ _ hu _ => ⟨hu.running, hu.pins, hu.down, hu.cursors, hu.storage⟩

/-! ### The bounds on time -/

theorem exec_keeps_inTime {i : Instr} {s t : State} (hs : InTime s) (h : exec i s = .next t) :
    InTime t := by
  intro hu hf
  have hf' := fault_nil_of_exec h hf
  cases exec_effect h with
  | overlap b _ _ => exact absurd hf (fault_overlap_ne_nil b s)
  | load b hl _ =>
    obtain ⟨-, hrx, hedge⟩ := hs hl hf'
    refine ⟨fun _ => ?_, by simpa using hrx, by simpa using hedge⟩
    simp
    omega
  | initOk => simp
  | initMapFail hl => simp [hl] at hu
  | initIrqFail hl => simp [hl] at hu
  | teardown => simp at hu
  | shift v he _ _ =>
    obtain ⟨htx, hrx, hedge⟩ := hs (by simpa using hu) hf'
    refine ⟨fun ha => ?_, by simpa using hrx, by simpa using hedge⟩
    have := htx (by simpa using ha)
    simp
    omega
  | finish he _ =>
    obtain ⟨-, hrx, hedge⟩ := hs (by simpa using hu) hf'
    simpa using ⟨hrx, hedge⟩
  | edgeIgnored he _ =>
    obtain ⟨htx, hrx, -⟩ := hs (by simpa using hu) hf'
    simpa using ⟨htx, hrx⟩
  | frameStarts he _ =>
    obtain ⟨htx, -, -⟩ := hs (by simpa using hu) hf'
    refine ⟨by simpa using htx, fun _ => ?_, by simp⟩
    simp
    omega
  | sample hc he =>
    obtain ⟨htx, hrx, hedge⟩ := hs (by simpa using hu) hf'
    refine ⟨by simpa using htx, fun ha => ?_, by simpa using hedge⟩
    have := hrx (by simpa using ha)
    simp
    omega
  | accept he =>
    obtain ⟨htx, -, hedge⟩ := hs (by simpa using hu) hf'
    simpa using ⟨htx, hedge⟩
  | drop he =>
    obtain ⟨htx, -, hedge⟩ := hs (by simpa using hu) hf'
    simpa using ⟨htx, hedge⟩
  | line v =>
    obtain ⟨htx, hrx, hedge⟩ := hs (by simpa using hu) hf'
    cases hc : edgeCaught s v with
    | true => simpa [hc] using ⟨htx, hrx⟩
    | false => simpa [hc] using ⟨htx, hrx, hedge⟩
  | _ => simpa using hs (by simpa using hu) hf'

theorem step_keeps_inTime {s t : State} (hs : InTime s) (h : step s = .next t) : InTime t := by
  refine step_keeps (P := InTime) (fun _ _ _ hu hv => exec_keeps_inTime hu hv)
    (fun _ _ _ _ _ _ _ _ _ _ _ _ hu => hu) ?_ (fun _ _ hl => nomatch hl) hs h
  intro dt u hu ha hl hf
  obtain ⟨-, htx, hrx, hedge⟩ := (advanceAllowed_iff dt u).mp ha
  obtain ⟨-, -, hpast⟩ := hu hl hf
  exact ⟨htx hl, hrx hl, fun hp => ⟨Nat.le_add_right_of_le (hpast hp).1, hedge hp⟩⟩

/-! ### The obligations -/

/-- Settles O9: ADVANCE alone moves time, and forwards. -/
theorem timeNeverGoesBack : Obligations.TimeNeverGoesBack :=
  ⟨fun _ _ h => step_now_le h, fun _ _ _ h => (exec_now_cfg h).1⟩

/-- Settles O10: everything named is a function of the parameters. -/
theorem parametersNeverChange : Obligations.ParametersNeverChange := by
  intro s t h
  rw [step_cfg h]
  exact ⟨rfl, rfl, rfl, rfl, txPin_ne_rxPin s.cfg⟩

/-- Settles O13: the state after reset is what hardware reset makes of it. -/
theorem resetMeetsTheInvariants : Obligations.ResetMeetsTheInvariants :=
  ⟨inv_hardwareReset State.reset, fun h => nomatch h⟩

/-- Settles O14: part by part over the operations; ADVANCE and the callers touch no field of the invariant. -/
theorem stepKeepsTheInvariant : Obligations.StepKeepsTheInvariant :=
  fun _ _ hs h => step_keeps_inv hs h

/-- Settles O15: an operation arms a timer ahead of now, and ADVANCE keeps to the bounds. -/
theorem stepKeepsTheTimeBounds : Obligations.StepKeepsTheTimeBounds :=
  fun _ _ hs h => step_keeps_inTime hs h

/-- Settles O16: the storage changes by writes alone, and a reset empties it. -/
theorem stepKeepsTheStorageCanonical : Obligations.StepKeepsTheStorageCanonical := by
  intro s t hs h
  refine step_keeps (P := fun u => Memory.wf u.fifo.storage) (fun _ _ _ hu hv => exec_storage_wf hu hv)
    ?_ ?_ ?_ hs h
  · exact fun _ _ _ _ _ _ _ _ _ _ _ _ hu => hu
  · exact fun _ _ hu _ => hu
  · exact fun _ _ => ⟨List.Pairwise.nil, nofun⟩

end Sys2Proof.Machine
end

section
/-! Single steps: an input under its code, the steps that are no operations, and the lifting of holds, with the
obligations O5 to O8, O11, O12, O25 to O27. -/

namespace Sys2Proof.Machine

/-! ### The step of an input -/

/-- The input that carries a code runs the operation the code decodes to. -/
theorem takeInput_inputOf {c : Code} {i : Instr} (h : decode c = .ok i) (s : State) :
    takeInput (inputOf c) s = exec i s := by
  cases c with
  | h w => simp [inputOf, takeInput, takeHost, show decodeHost w = .ok i from h]
  | e c => simp [inputOf, takeInput, takeEvent, show decodeEvent c = .ok i from h]

/-- The step of an input that leaves `u`: the holds of `u` are lifted. -/
theorem step_of_takeInput {s u : State} {x : Input} {rest : List Input} (h : s.inputs = x :: rest)
    (hx : takeInput x { s with inputs := rest } = .next u) : step s = .next (liftHolds u) := by
  rw [step_of_input h, hx]
  rfl

/-- Under `HoldsOk` there is no hold to lift. -/
theorem liftHolds_of_holdsOk {s : State} (h : HoldsOk s) : liftHolds s = s := by
  by_cases hl : s.life = .up ∧ s.tx.doneSignal = true
  · obtain ⟨hheld, hphase⟩ := h.1 hl.1 hl.2
    exact liftHolds_none s hheld fun c hc => ⟨hphase c hc, h.2 c hc⟩
  · exact liftHolds_not s hl

theorem liftHolds_of_latch {s : State} (h : s.tx.doneSignal = false) : liftHolds s = s :=
  liftHolds_not s (by simp [h])

theorem liftHolds_of_down {s : State} (h : s.life = .down) : liftHolds s = s :=
  liftHolds_not s (by simp [h])

/-- A reserved word is refused, as a read or as a write (R86, R217). -/
theorem takeHost_reserved {w : HostWord} (h : HostWord.reserved w = true) (s : State) :
    takeHost w s = .next (if HostWord.isWrite w then refuseWrite s else refuseRead s) := by
  obtain ⟨e, he⟩ := (decodeHost_error_iff w).mpr h
  simp only [takeHost, he]
  split <;> rfl

/-- A word that decodes and whose operation is taken: the operation is that of the word (R81). -/
theorem takeHost_next {w : HostWord} {s t : State} (h : takeHost w s = .next t) :
    (∃ i, .host w = inputOf (encode i) ∧ exec i s = .next t) ∨ t = refuseWrite s ∨ t = refuseRead s := by
  unfold takeHost at h
  split at h
  · rename_i i hi
    exact .inl ⟨i, by rw [encode_of_decodeHost hi]; rfl, h⟩
  · split at h <;> cases h <;> simp

theorem takeEvent_next {c : EventCode} {s t : State} (h : takeEvent c s = .next t) :
    ∃ i, .event c = inputOf (encode i) ∧ exec i s = .next t := by
  unfold takeEvent at h
  split at h
  · rename_i i hi
    exact ⟨i, by rw [encode_of_decodeEvent hi]; rfl, h⟩
  · cases h

theorem writerStep_next {k : Nat} {s t : State} (h : writerStep k s = .next t) :
    t = s ∨ ∃ c i, s.writes[k]? = some c ∧ c.nextOp = some i ∧
      exec i { s with writes := if s.life = .up then s.writes.set k c.moved else s.writes.eraseIdx k } =
        .next t := by
  unfold writerStep at h
  split at h
  · cases h; exact .inl rfl
  · rename_i c hc
    split at h
    · cases h; exact .inl rfl
    · exact .inr ⟨c, _, hc, ‹_›, h⟩

theorem readerStep_next {k : Nat} {s t : State} (h : readerStep k s = .next t) :
    t = s ∨ ∃ c u, s.reads[k]? = some c ∧ exec (.rxpop 0) s = .next u ∧
      t = deliver k (c.took (u.hRdata.getD 0)) u := by
  unfold readerStep at h
  split at h
  · cases h; exact .inl rfl
  · rename_i c hc
    split at h
    · cases h
    · cases h
    · rename_i u hu
      cases h
      exact .inr ⟨c, u, hc, hu, rfl⟩

/-- The schedule is taken from by the step alone. -/
theorem takeInput_inputs {x : Input} {s t : State} (h : takeInput x s = .next t) : t.inputs = s.inputs := by
  rcases takeInput_next h with ⟨i, w, hi⟩ | rfl | rfl | rfl | ⟨bs, rfl⟩ | ⟨n, rfl⟩ | ⟨k, c, u, -, hu, rfl⟩ |
    ⟨dt, rfl⟩ | ⟨o, rfl⟩ | rfl
  · obtain ⟨-, -, hin, -⟩ := exec_callers hi
    exact hin
  · rfl
  · rfl
  · rfl
  · simp
  · simp
  · obtain ⟨-, -, hin, -⟩ := exec_callers hu
    simpa using hin
  · rcases advanceTime_cases dt s with ⟨-, e⟩ | ⟨-, e⟩ <;> rw [e]
  · rfl
  · rfl

/-- A step takes the next input off the schedule, and no other. -/
theorem step_inputs {s t : State} (h : step s = .next t) : t.inputs = s.inputs.tail := by
  rcases step_next h with ⟨hin, rfl⟩ | ⟨x, rest, u, hin, hx, rfl⟩
  · simp [hin]
  · simpa [hin] using takeInput_inputs hx

/-! ### Holds -/

/-- The answer of `TXWAIT` is 1 (R46). -/
theorem waitAnswer_eq : waitAnswer = 1 := by decide

/-- A call that has taken an operation has a byte to wait for. -/
theorem moved_phase {c : WriteCall} {i : Instr} (h : c.nextOp = some i) : c.moved.phase ≠ .start := by
  unfold WriteCall.nextOp at h
  unfold WriteCall.moved
  split at h <;> simp_all

theorem finished_of_phase {c : WriteCall} (h : c.phase ≠ .start) : c.finished = false := by
  simp [WriteCall.finished, h]

/-- No input leaves a call that has sent all its bytes. -/
theorem takeInput_unfinished {x : Input} {s t : State} (h : takeInput x s = .next t)
    (hs : ∀ c ∈ s.writes, c.finished = false) : ∀ c ∈ t.writes, c.finished = false := by
  rcases takeInput_writes h with ⟨e, -⟩ | ⟨bs, -, rfl⟩ | ⟨k, c, i, -, -, hi, -, e, -⟩
  · rw [e]
    exact hs
  · unfold callWrite
    split
    · exact hs
    · split
      · intro c hc
        rcases List.mem_append.mp hc with hc | hc
        · exact hs c hc
        · obtain rfl := List.mem_singleton.mp hc
          simpa [WriteCall.finished]
      · exact hs
  · rw [e]
    intro c' hc'
    split at hc'
    · rcases List.mem_or_eq_of_mem_set hc' with hc' | rfl
      · exact hs c' hc'
      · exact finished_of_phase (moved_phase hi)
    · exact hs c' (List.mem_of_mem_eraseIdx hc')

/-- Lifting leaves nobody blocked while UP with the latch set. -/
theorem liftHolds_free (s : State) (hu : (liftHolds s).life = .up)
    (hd : (liftHolds s).tx.doneSignal = true) :
    (liftHolds s).held = [] ∧ ∀ c ∈ (liftHolds s).writes, c.phase ≠ .held := by
  rw [liftHolds_life] at hu
  rw [liftHolds_tx] at hd
  rw [liftHolds_lifted s hu hd]
  refine ⟨rfl, fun c hc => ?_⟩
  obtain ⟨hc, -⟩ := List.mem_filter.mp hc
  obtain ⟨c', -, rfl⟩ := List.mem_map.mp hc
  exact unblock_phase c'

theorem liftHolds_unfinished (s : State) (hs : ∀ c ∈ s.writes, c.finished = false) :
    ∀ c ∈ (liftHolds s).writes, c.finished = false := by
  by_cases hl : s.life = .up ∧ s.tx.doneSignal = true
  · rw [liftHolds_lifted s hl.1 hl.2]
    intro c hc
    simpa using (List.mem_filter.mp hc).2
  · rw [liftHolds_not s hl]
    exact hs

/-- What a step is, in one: an input, or none, and then the lifting. -/
theorem step_lifts {s t : State} (h : step s = .next t) :
    ∃ u, t = liftHolds u ∧
      (u = s ∨ ∃ x rest, s.inputs = x :: rest ∧ takeInput x { s with inputs := rest } = .next u) := by
  rcases step_next h with ⟨-, e⟩ | ⟨x, rest, u, hx, hu, e⟩
  · exact ⟨s, e, .inl rfl⟩
  · exact ⟨u, e, .inr ⟨x, rest, hx, hu⟩⟩

theorem step_keeps_holdsOk {s t : State} (hs : HoldsOk s) (h : step s = .next t) : HoldsOk t := by
  obtain ⟨u, rfl, hu⟩ := step_lifts h
  refine ⟨liftHolds_free u, liftHolds_unfinished u ?_⟩
  rcases hu with rfl | ⟨x, rest, -, hx⟩
  · exact hs.2
  · exact takeInput_unfinished hx hs.2

/-- An input leaves every TXWAIT that is held so. -/
theorem takeInput_held {x : Input} {s t : State} (h : takeInput x s = .next t) :
    ∃ l, t.held = s.held ++ l := by
  rcases takeInput_next h with ⟨i, w, hi⟩ | rfl | rfl | rfl | ⟨bs, rfl⟩ | ⟨n, rfl⟩ | ⟨k, c, u, -, hu, rfl⟩ |
    ⟨dt, rfl⟩ | ⟨o, rfl⟩ | rfl
  · obtain ⟨-, -, -, -, -, -, hl⟩ := exec_callers hi
    exact hl
  · exact ⟨[], by simp⟩
  · exact ⟨[], by simp⟩
  · exact ⟨[], by simp⟩
  · exact ⟨[], by simp⟩
  · exact ⟨[], by simp⟩
  · obtain ⟨-, -, -, -, -, -, hl⟩ := exec_callers hu
    simpa using hl
  · rcases advanceTime_cases dt s with ⟨-, e⟩ | ⟨-, e⟩ <;> exact ⟨[], by simp [e]⟩
  · exact ⟨[], by simp⟩
  · exact ⟨[], by simp [hardwareReset]⟩

/-- A step that leaves the latch 0, or DOWN, unblocks nobody, and returns no count but that of a `WRITE []`. -/
theorem step_lifts_none {s t : State} (h : step s = .next t) (ht : t.life = .down ∨ t.tx.doneSignal = false) :
    (∃ l, t.held = s.held ++ l) ∧
    (s.writes.filter (fun c => c.phase = .held)).Sublist (t.writes.filter (fun c => c.phase = .held)) ∧
    ∃ l, t.returned = s.returned ++ l ∧ ∀ r ∈ l, r = (s.now, 0) := by
  obtain ⟨u, rfl, hu⟩ := step_lifts h
  rw [liftHolds_life, liftHolds_tx] at ht
  rw [show liftHolds u = u from ht.elim liftHolds_of_down liftHolds_of_latch]
  rcases hu with rfl | ⟨x, rest, -, hx⟩
  · exact ⟨⟨[], by simp⟩, List.Sublist.refl _, [], by simp, by simp⟩
  · have hheld := takeInput_held hx
    have hblocked := takeInput_blocked hx
    refine ⟨hheld, hblocked, ?_⟩
    rcases takeInput_returned hx with e | e
    · exact ⟨[], by simp [e], by simp⟩
    · exact ⟨[(s.now, 0)], e, by simp⟩

/-! ### TXWAIT -/

theorem exec_txwait_done {s : State} (d : Byte) (hu : s.life = .up) (hd : s.tx.doneSignal = true) :
    exec (.txwait d) s = .next (hostDone (.txwait d) (some waitAnswer) s) := by
  simp [exec, execTxwait, hu, hd]

theorem exec_txwait_held {s : State} (d : Byte) (hu : s.life = .up) (hd : s.tx.doneSignal = false) :
    exec (.txwait d) s = .next (holdWait d s) := by
  simp [exec, execTxwait, hu, hd]

/-! ### The obligations -/

/-- Settles O5: the input of a code runs its operation, and there is nothing to lift in the states named. -/
theorem stepRunsTheDecodedInstruction : Obligations.StepRunsTheDecodedInstruction := by
  intro s c i rest hin hc
  have hstep : step s = settle (exec i { s with inputs := rest }) := by
    rw [step_of_input hin, takeInput_inputOf hc]
  refine ⟨hstep, fun t ht hnone => ?_⟩
  have hlift : liftHolds t = t := by
    rcases hnone with ⟨hheld, hw⟩ | hd | hd
    · exact liftHolds_none t hheld (by simp [hw])
    · exact liftHolds_of_down hd
    · exact liftHolds_of_latch hd
  rw [hstep, ht, settle, hlift]

/-- Settles O6: no row matches a reserved word, and a refusal touches no hold. -/
theorem reservedWordIsRefusedWithoutEffect : Obligations.ReservedWordIsRefusedWithoutEffect := by
  intro s w rest hh hin hw
  rw [step_of_takeInput hin (takeHost_reserved hw _), liftHolds_of_holdsOk]
  · cases hb : w.getLsbD 11 <;> simp only [HostWord.isWrite, hb] <;> rfl
  · split <;> exact hh

/-- Settles O7: each meaning looks at the life first. -/
theorem wrongLifeIsRefusedWithoutEffect : Obligations.WrongLifeIsRefusedWithoutEffect := by
  refine fun s b => ⟨fun hd => ⟨?_, ?_, ?_⟩, fun hu => ?_⟩
  · simp [exec, execTxstart, hd, refuseWrite, respond]
  · simp [exec, execTeardown, hd, refuseWrite, respond]
  · simp [exec, execTxwait, execRxpop, execRdcntok, execRdcntfe, hd, refuseRead, respond]
  · simp [exec, execInit, hu, refuseWrite, respond]

/-- Settles O8: `advanceAllowed` is the condition, and time is nothing to a hold. -/
theorem advanceMovesOnlyTime : Obligations.AdvanceMovesOnlyTime := by
  intro s dt rest hh hin
  have hstep := step_of_takeInput hin (u := advanceTime dt { s with inputs := rest }) rfl
  have hiff := advanceAllowed_iff dt { s with inputs := rest }
  rcases advanceTime_cases dt { s with inputs := rest } with ⟨ha, e⟩ | ⟨ha, e⟩
  · refine ⟨fun _ => ?_, fun hn => absurd (hiff.mp ha) hn⟩
    rw [hstep, e, liftHolds_of_holdsOk]
    exact hh
  · refine ⟨fun hy => ?_, fun _ => ?_⟩
    · rw [hiff.mpr hy] at ha
      cases ha
    · rw [hstep, e, liftHolds_of_holdsOk]
      exact hh

/-- Settles O11: the reset state, field by field. -/
theorem resetValues : Obligations.ResetValues :=
  ⟨rfl, rfl, rfl, rfl, rfl, rfl, rfl, rfl, rfl, rfl, rfl, rfl, rfl⟩

/-- Settles O12: the step is the hardware reset, which leaves DOWN, where no hold is lifted. -/
theorem hardwareResetStep : Obligations.HardwareResetStep := by
  intro s rest hin
  have hstep := step_of_takeInput hin (u := hardwareReset { s with inputs := rest }) rfl
  rw [liftHolds_of_down rfl] at hstep
  exact ⟨_, hstep, rfl, rfl, rfl, rfl, rfl, rfl, rfl, rfl, rfl, rfl, rfl, rfl, rfl, rfl, rfl, rfl, rfl⟩

/-- Settles O25: the answer is given at once, and reading the latch is no side effect. -/
theorem txwaitAnswersWhenDone : Obligations.TxwaitAnswersWhenDone := by
  intro s d hu hd
  exact ⟨_, exec_txwait_done d hu hd, rfl, by simp [waitAnswer_eq], hostDone_sideEffectFree _ _ s⟩

/-- Settles O26: the TXWAIT goes to the end of those held. -/
theorem txwaitIsHeldUntilDone : Obligations.TxwaitIsHeldUntilDone := by
  intro s d hu hd
  rw [exec_txwait_held d hu hd]
  rfl

/-- Settles O27: lifting comes with the latch, and without it nothing is lifted. -/
theorem heldTxwaitCompletesWhenDone : Obligations.HeldTxwaitCompletesWhenDone := by
  refine ⟨fun s rest hin he hk => ?_, fun s t h hu hd => ?_, fun s t hs h => step_keeps_holdsOk hs h,
    fun s t h ht => step_lifts_none h ht⟩
  · have hup : s.life = .up := ((txTickEnabled_iff s).mp he).1
    have hfire : takeInput (.event 0b0001#4) { s with inputs := rest } =
        .next (logOp .txtick none none (txFinish { s with inputs := rest })) :=
      exec_txtick_finish he hk
    refine ⟨_, step_of_takeInput hin hfire, ?_⟩
    rw [liftHolds_lifted _ (by simpa using hup) (by simp)]
    refine ⟨by simp, by simp, by simp, by simp, rfl, fun hheld => ?_, ?_, rfl, rfl, rfl, rfl, ?_⟩
    · simp [hheld, waitAnswer_eq]
    · simp [agentOf, operandOf, encode_txtick, encode_txwait, waitAnswer_eq]
    · simp [SameRx, SameFifo, SameCounters, SameLife, SameMarks]
  · obtain ⟨u, rfl, -⟩ := step_lifts h
    exact liftHolds_free u hu hd

end Sys2Proof.Machine
end

section
/-! WRITE (spec 44_facade_and_status R180; 42_tx_sequencer R137): the steps of a running call, and why a lone
one never overlaps, with the obligations O57 and O58. -/

namespace Sys2Proof.Machine

/-! ### The next operation of a call -/

theorem writerStep_blocked {k : Nat} {c : WriteCall} {s : State} (hk : s.writes[k]? = some c)
    (hn : c.nextOp = none) : writerStep k s = .next s := by
  simp [writerStep, hk, hn]

theorem writerStep_up {k : Nat} {c : WriteCall} {i : Instr} {s : State} (hu : s.life = .up)
    (hk : s.writes[k]? = some c) (hn : c.nextOp = some i) :
    writerStep k s = exec i { s with writes := s.writes.set k c.moved } := by
  simp [writerStep, hk, hn, hu]

theorem callWrite_up {bs : List Byte} {s : State} (hb : bs ≠ []) (hu : s.life = .up) :
    callWrite bs s = { s with writes := s.writes ++ [{ left := bs, phase := .start, sent := 0 }] } := by
  simp [callWrite, hb, hu]

/-- A new call is neither blocked nor done, so it leaves no hold to lift. -/
theorem holdsOk_callWrite {bs : List Byte} {s : State} (hs : HoldsOk s) : HoldsOk (callWrite bs s) := by
  refine ⟨fun hu hd => ?_, takeInput_unfinished (x := .write bs) rfl hs.2⟩
  rw [callWrite_life] at hu
  rw [callWrite_tx] at hd
  obtain ⟨hheld, hphase⟩ := hs.1 hu hd
  refine ⟨by simpa using hheld, ?_⟩
  by_cases hb : bs = []
  · simpa [callWrite, hb] using hphase
  · rw [callWrite_up hb hu]
    intro c hc
    rcases List.mem_append.mp hc with hc | hc
    · exact hphase c hc
    · obtain rfl := List.mem_singleton.mp hc
      simp

/-- Of unfinished calls none of which is blocked, one that becomes so is let go at once where the latch is set:
it goes on, or returns. -/
theorem filter_unblock_set {ws : List WriteCall} {k : Nat} (hk : k < ws.length) (c : WriteCall)
    (hw : ∀ x ∈ ws, x.phase ≠ .held) (hf : ∀ x ∈ ws, x.finished = false) :
    ((ws.set k c).map WriteCall.unblock).filter (fun x => !x.finished) =
      (if c.unblock.finished then ws.eraseIdx k else ws.set k c.unblock) ∧
    ((ws.set k c).map WriteCall.unblock).filter (fun x => x.finished) =
      (if c.unblock.finished then [c.unblock] else []) := by
  have hmap : ws.map WriteCall.unblock = ws :=
    (List.map_congr_left fun x hx => unblock_not_held x (hw x hx)).trans (List.map_id ws)
  rw [List.map_set, hmap]
  exact filter_set_call ws k c.unblock hk hf

/-! ### A lone call -/

/-- At most one `WRITE` is running, and no byte is in flight where it is about to start one, in whatever life. -/
def ReadyToStart (s : State) : Prop :=
  s.writes.length ≤ 1 ∧ ∀ c ∈ s.writes, c.phase = .start → s.txTimer.armed = false

theorem ReadyToStart.writerAlone {s : State} (h : ReadyToStart s) : WriterAlone s :=
  ⟨h.1, fun c hc hp _ => h.2 c hc hp⟩

/-- In DOWN no timer is armed, so the life need not be asked. -/
theorem readyToStart_of_writerAlone {s : State} (hi : Inv s) (h : WriterAlone s) : ReadyToStart s := by
  refine ⟨h.1, fun c hc hp => ?_⟩
  cases hl : s.life with
  | up => exact h.2 c hc hp hl
  | down =>
    obtain ⟨-, -, harmed, -⟩ := hi.down hl
    exact harmed

/-- The only call that can take its next operation is the one that is running. -/
theorem writes_of_getElem? {s : State} (h : s.writes.length ≤ 1) {k : Nat} {c : WriteCall}
    (hk : s.writes[k]? = some c) : k = 0 ∧ s.writes = [c] := by
  match hw : s.writes, k with
  | [], _ => simp [hw] at hk
  | [a], 0 => simp_all
  | [a], k + 1 => simp [hw] at hk
  | a :: b :: l, _ => simp [hw] at h

/-- An operation that starts no byte arms no TX timer and records no fault. -/
theorem exec_keeps_txIdle {i : Instr} {s t : State} (h : exec i s = .next t) (hi : ∀ b, i ≠ .txstart b) :
    t.fault = s.fault ∧ (s.txTimer.armed = false → t.txTimer.armed = false) := by
  cases exec_effect h with
  | overlap b => exact absurd rfl (hi b)
  | load b => exact absurd rfl (hi b)
  | _ => simp

theorem exec_fault_of_idle {i : Instr} {s t : State} (h : exec i s = .next t)
    (hi : ∀ b, i = .txstart b → s.txTimer.armed = false) : t.fault = s.fault := by
  cases exec_effect h with
  | overlap b _ ha => simp [hi b rfl] at ha
  | _ => simp

/-- The operations of a call: the TXSTART of its next byte, or a TXWAIT (R180). -/
theorem nextOp_cases {c : WriteCall} {i : Instr} (h : c.nextOp = some i) :
    (c.phase = .start ∧ ∃ b bs, c.left = b :: bs ∧ i = .txstart b) ∨ (c.phase = .wait ∧ i = .txwait 0) := by
  obtain ⟨left, phase, sent⟩ := c
  cases phase with
  | start =>
    cases left with
    | nil => cases h
    | cons b bs => cases h; exact .inl ⟨rfl, b, bs, rfl, rfl⟩
  | wait => cases h; exact .inr ⟨rfl, rfl⟩
  | held => cases h

/-- In DOWN the operations of a call are refused (R195). -/
theorem exec_nextOp_down {c : WriteCall} {i : Instr} {s t : State} (hi : c.nextOp = some i)
    (hd : s.life = .down) (h : exec i s = .next t) : t.life = .down ∧ t.refused = true := by
  rcases nextOp_cases hi with ⟨-, b, -, -, rfl⟩ | ⟨-, rfl⟩
  · rcases execTxstart_next h with ⟨-, rfl⟩ | ⟨hu, -⟩ | ⟨hu, -⟩
    · exact ⟨hd, rfl⟩
    · simp [hd] at hu
    · simp [hd] at hu
  · rcases execTxwait_next h with ⟨-, rfl⟩ | ⟨hu, -⟩ | ⟨hu, -⟩
    · exact ⟨hd, rfl⟩
    · simp [hd] at hu
    · simp [hd] at hu

/-- A byte that is started is waited for: the count of a call does not change. -/
theorem moved_total {c : WriteCall} {i : Instr} (h : c.nextOp = some i) : c.moved.total = c.total := by
  rcases nextOp_cases h with ⟨hp, b, bs, hl, -⟩ | ⟨hp, -⟩
  · simp [WriteCall.moved, WriteCall.total, hp, hl]
    omega
  · simp [WriteCall.moved, WriteCall.total, hp]

/-- What an input leaves of the one call that is running: the call, with its count of bytes, or, where its
operation was refused in DOWN, nothing (log 30). -/
def CallKept (s t : State) : Prop :=
  ∀ c, s.writes = [c] →
    (∃ c', t.writes = [c'] ∧ c'.total = c.total ∧ t.returned = s.returned) ∨
    (t.writes = [] ∧ t.returned = s.returned ∧ t.life = .down ∧ t.refused = true)

theorem callKept_of_writes_eq {s t : State} (hw : t.writes = s.writes) (hr : t.returned = s.returned) :
    CallKept s t :=
  fun c hc => .inl ⟨c, hw.trans hc, rfl, hr⟩

theorem readyToStart_of_writes_eq {s t : State} (hs : ReadyToStart s) (hw : t.writes = s.writes)
    (ha : s.txTimer.armed = false → t.txTimer.armed = false) : ReadyToStart t := by
  unfold ReadyToStart
  rw [hw]
  exact ⟨hs.1, fun c hc hp => ha (hs.2 c hc hp)⟩

theorem otherStart_txstart (b : Byte) : (inputOf (encode (.txstart b))).otherStart = true := by
  simp [encode_txstart, inputOf, Input.otherStart, hits_operandRow]

/-- An operation of somebody else that starts no byte leaves the call as it is. -/
theorem exec_otherAgent {i : Instr} {s t : State} (h : exec i s = .next t) (hi : ∀ b, i ≠ .txstart b)
    (hs : ReadyToStart s) (hf : s.fault = []) : ReadyToStart t ∧ t.fault = [] ∧ CallKept s t := by
  obtain ⟨hw, hr, -⟩ := exec_callers h
  obtain ⟨hfault, harmed⟩ := exec_keeps_txIdle h hi
  exact ⟨readyToStart_of_writes_eq hs hw harmed, hfault.trans hf, callKept_of_writes_eq hw hr⟩

/-- The next operation of the one call that is running. -/
theorem exec_writer {k : Nat} {c : WriteCall} {i : Instr} {s t : State} (hs : ReadyToStart s)
    (hf : s.fault = []) (hk : s.writes[k]? = some c) (hi : c.nextOp = some i)
    (h : exec i { s with writes := if s.life = .up then s.writes.set k c.moved else s.writes.eraseIdx k } =
      .next t) : ReadyToStart t ∧ t.fault = [] ∧ CallKept s t := by
  obtain ⟨rfl, hone⟩ := writes_of_getElem? hs.1 hk
  obtain ⟨hw, hr, -⟩ := exec_callers h
  have hfault : t.fault = [] := by
    refine (exec_fault_of_idle h fun b hb => ?_).trans hf
    rcases nextOp_cases hi with ⟨hp, -⟩ | ⟨-, hb'⟩
    · exact hs.2 c (by simp [hone]) hp
    · cases hb.symm.trans hb'
  refine ⟨?_, hfault, fun c' hc' => ?_⟩
  · unfold ReadyToStart
    rw [hw]
    cases hl : s.life with
    | up => simp [hone, moved_phase hi]
    | down => simp [hone]
  · obtain rfl : c = c' := by simpa [hone] using hc'
    cases hl : s.life with
    | up => exact .inl ⟨c.moved, by simp [hw, hl, hone], moved_total hi, hr⟩
    | down =>
      obtain ⟨hdown, hrefused⟩ := exec_nextOp_down hi (by exact hl) h
      exact .inr ⟨by simp [hw, hl, hone], hr, hdown, hrefused⟩

/-- An input that starts no other byte and no other `WRITE` records no fault, and keeps the call, ready to start
its next byte. -/
theorem takeInput_loneWrite {x : Input} {s t : State} (h : takeInput x s = .next t)
    (hx : x.otherStart = false) (hs : ReadyToStart s) (hf : s.fault = []) :
    ReadyToStart t ∧ t.fault = [] ∧ CallKept s t := by
  have hstart : ∀ {i}, x = inputOf (encode i) → ∀ b, i ≠ .txstart b := by
    rintro i rfl b rfl
    simp [otherStart_txstart] at hx
  cases x with
  | host w =>
    rcases takeHost_next h with ⟨i, hi, he⟩ | rfl | rfl
    · exact exec_otherAgent he (hstart hi) hs hf
    · exact ⟨hs, hf, callKept_of_writes_eq rfl rfl⟩
    · exact ⟨hs, hf, callKept_of_writes_eq rfl rfl⟩
  | event c =>
    obtain ⟨i, hi, he⟩ := takeEvent_next h
    exact exec_otherAgent he (hstart hi) hs hf
  | write bs => cases hx
  | writer k =>
    rcases writerStep_next h with rfl | ⟨c, i, hk, hi, he⟩
    · exact ⟨hs, hf, callKept_of_writes_eq rfl rfl⟩
    · exact exec_writer hs hf hk hi he
  | read n =>
    cases h
    exact ⟨readyToStart_of_writes_eq hs (by simp) (by simp), by simpa using hf,
      callKept_of_writes_eq (by simp) (by simp)⟩
  | reader k =>
    rcases readerStep_next h with rfl | ⟨c, u, -, hu, rfl⟩
    · exact ⟨hs, hf, callKept_of_writes_eq rfl rfl⟩
    · obtain ⟨hw, hr, -⟩ := exec_callers hu
      obtain ⟨hfault, harmed⟩ := exec_keeps_txIdle hu (by simp)
      exact ⟨readyToStart_of_writes_eq hs (by simpa using hw) (by simpa using harmed),
        by simpa using hfault.trans hf, callKept_of_writes_eq (by simpa using hw) (by simpa using hr)⟩
  | advance dt =>
    cases h
    rcases advanceTime_cases dt s with ⟨-, e⟩ | ⟨-, e⟩ <;> rw [e] <;>
      exact ⟨hs, hf, callKept_of_writes_eq rfl rfl⟩
  | initDraw o =>
    cases h
    exact ⟨hs, hf, callKept_of_writes_eq rfl rfl⟩
  | rst =>
    cases h
    exact ⟨readyToStart_of_writes_eq hs rfl (fun _ => rfl), rfl, callKept_of_writes_eq rfl rfl⟩

/-- What lifting leaves of one call: the call, or its count, returned now. -/
theorem liftHolds_loneWrite {c : WriteCall} {s : State} (hc : s.writes = [c]) :
    (∃ c', (liftHolds s).writes = [c'] ∧ c'.total = c.total ∧ (liftHolds s).returned = s.returned) ∨
    ((liftHolds s).writes = [] ∧ (liftHolds s).returned = s.returned ++ [(s.now, c.total)]) := by
  by_cases hl : s.life = .up ∧ s.tx.doneSignal = true
  · rw [liftHolds_lifted s hl.1 hl.2, hc]
    cases hfin : c.unblock.finished with
    | false => exact .inl ⟨c.unblock, by simp [hfin], unblock_total c, by simp [hfin]⟩
    | true =>
      have hsent : c.unblock.sent = c.total := by
        rw [← unblock_total c]
        simp only [WriteCall.finished, Bool.and_eq_true, decide_eq_true_eq, List.isEmpty_iff] at hfin
        simp [WriteCall.total, hfin.1, hfin.2]
      exact .inr ⟨by simp [hfin], by simp [hfin, hsent]⟩
  · rw [liftHolds_not s hl]
    exact .inl ⟨c, hc, rfl, rfl⟩

/-- With the latch set no byte is in flight (R55 (d)), so a call that is let go may start its next byte. -/
theorem liftHolds_ready {s : State} (hi : Inv (liftHolds s)) (hf : s.fault = []) (hs : ReadyToStart s) :
    ReadyToStart (liftHolds s) := by
  by_cases hl : s.life = .up ∧ s.tx.doneSignal = true
  · obtain ⟨-, -, -, hlatch, -⟩ := hi.running (by simpa using hl.1) (by simpa using hf)
    rw [liftHolds_tx, liftHolds_txTimer] at hlatch
    have harmed : s.txTimer.armed = false := by
      cases ha : s.txTimer.armed with
      | false => rfl
      | true => rw [hlatch ha] at hl; cases hl.2
    refine ⟨?_, fun _ _ _ => by simpa using harmed⟩
    rw [liftHolds_lifted s hl.1 hl.2]
    exact (List.length_filter_le _ _).trans (by simpa using hs.1)
  · rw [liftHolds_not s hl]
    exact hs

/-- The account of the one call that is running: it runs on with its count of bytes, or has returned it, all of
them waited for, or was refused in DOWN (log 30). -/
def CallAccounted (s t : State) : Prop :=
  ∀ c, s.writes = [c] →
    (∃ c', t.writes = [c'] ∧ c'.total = c.total ∧ t.returned = s.returned) ∨
    (t.writes = [] ∧ t.returned = s.returned ++ [(t.now, c.total)]) ∨
    (t.writes = [] ∧ t.returned = s.returned ∧ t.life = .down ∧ t.refused = true)

/-- An input keeps the call, and the lifting after it accounts for it. -/
theorem CallKept.lifted {s u : State} (h : CallKept s u) : CallAccounted s (liftHolds u) := by
  intro c hc
  rcases h c hc with ⟨c', hw, ht, hr⟩ | ⟨hw, hr, hd, hrefused⟩
  · rcases liftHolds_loneWrite hw with ⟨c'', hw', ht', hr'⟩ | ⟨hw', hr'⟩
    · exact .inl ⟨c'', hw', ht'.trans ht, hr'.trans hr⟩
    · exact .inr (.inl ⟨hw', by rw [hr', hr, ht, liftHolds_now]⟩)
  · rw [liftHolds_of_down hd]
    exact .inr (.inr ⟨hw, hr, hd, hrefused⟩)

/-- Where the call ran on in one stretch, the next accounts for it from the start. -/
theorem CallAccounted.trans {s u t : State} (h : CallAccounted s u) (hu : u.writes ≠ [])
    (h' : CallAccounted u t) : CallAccounted s t := by
  intro c hc
  rcases h c hc with ⟨c', hw, htotal, hr⟩ | ⟨hw, -⟩ | ⟨hw, -⟩
  · have := h' c' hw
    rwa [htotal, hr] at this
  · exact absurd hw hu
  · exact absurd hw hu

theorem step_loneWrite {s t : State} (hi : Inv s) (hs : WriterAlone s) (hf : s.fault = [])
    (hx : ∀ x ∈ s.inputs.head?, x.otherStart = false) (h : step s = .next t) :
    WriterAlone t ∧ t.fault = [] ∧ CallAccounted s t := by
  have hready := readyToStart_of_writerAlone hi hs
  have hinv := step_keeps_inv hi h
  obtain ⟨u, rfl, hu⟩ := step_lifts h
  obtain ⟨hu, hfu, hkept⟩ : ReadyToStart u ∧ u.fault = [] ∧ CallKept s u := by
    rcases hu with rfl | ⟨x, rest, hin, hu⟩
    · exact ⟨hready, hf, callKept_of_writes_eq rfl rfl⟩
    · exact takeInput_loneWrite (s := { s with inputs := rest }) hu (hx x (by simp [hin])) hready hf
  exact ⟨(liftHolds_ready hinv hfu hu).writerAlone, by simpa using hfu, hkept.lifted⟩

/-! ### A lone call in a run -/

theorem stateAt_succ {s t : State} {n : Nat} (h : stateAt s (n + 1) = some t) :
    ∃ u, stateAt s n = some u ∧ step u = .next t := by
  rw [stateAt] at h
  split at h
  · cases h
  · rename_i u hu
    split at h <;> cases h
    exact ⟨u, hu, ‹_›⟩

/-- What every step keeps holds all along a run. -/
theorem stateAt_keeps {P : State → Prop} (hP : ∀ {u v}, P u → step u = .next v → P v) {s : State} (hs : P s) :
    ∀ {n u}, stateAt s n = some u → P u
  | 0, u, h => by cases h; exact hs
  | n + 1, u, h => by
    obtain ⟨v, hv, hstep⟩ := stateAt_succ h
    exact hP (stateAt_keeps hP hs hv) hstep

/-- Step `n` takes input `n` of the schedule. -/
theorem stateAt_inputs {s u : State} {n : Nat} (h : stateAt s n = some u) : u.inputs = s.inputs.drop n := by
  induction n generalizing u with
  | zero => cases h; rfl
  | succ n ih =>
    obtain ⟨v, hv, hstep⟩ := stateAt_succ h
    rw [step_inputs hstep, ih hv, List.tail_drop]

/-- An input that starts another byte or another `WRITE` is one by which a caller comes to the write side. -/
theorem onWriteSide_of_otherStart {x : Input} (h : x.otherStart = true) : x.onWriteSide = true := by
  cases x with
  | host w =>
    have hw : HostWord.hits w 0xF00#12 0x800#12 = true := h
    simp [Input.onWriteSide, decodeHost, hw, onWriteSide, Except.toOption]
  | write bs => rfl
  | _ => cases h

/-- Under `SingleWriter` no input starts anything while a `WRITE` is running. -/
theorem otherStart_of_singleWriter {caller : Nat → Nat} {s u : State} {n : Nat} (hs : SingleWriter caller s)
    (hu : stateAt s n = some u) (hw : u.writes ≠ []) : ∀ x ∈ u.inputs.head?, x.otherStart = false := by
  intro x hx
  rw [stateAt_inputs hu, List.head?_drop] at hx
  obtain ⟨hn, -⟩ := List.getElem?_eq_some_iff.mp hx
  cases ho : x.otherStart with
  | false => rfl
  | true => exact absurd (hs.blockedAlone n hn x hx (onWriteSide_of_otherStart ho) u hu).1 hw

theorem run_loneWrite {caller : Nat → Nat} {s : State} (hsw : SingleWriter caller s) (hi : Inv s)
    (hs : WriterAlone s) (hf : s.fault = []) (n : Nat) : ∀ u, stateAt s n = some u →
      (∀ m, m < n → ∀ v, stateAt s m = some v → v.writes ≠ []) →
        WriterAlone u ∧ u.fault = [] ∧ CallAccounted s u := by
  induction n with
  | zero =>
    intro u hu _
    cases hu
    exact ⟨hs, hf, fun c hc => .inl ⟨c, hc, rfl, rfl⟩⟩
  | succ n ih =>
    intro u hu hrun
    obtain ⟨v, hv, hstep⟩ := stateAt_succ hu
    have hw : v.writes ≠ [] := hrun n (Nat.lt_succ_self n) v hv
    obtain ⟨halone, hfault, hacc⟩ := ih v hv fun m hm => hrun m (Nat.lt_succ_of_lt hm)
    obtain ⟨halone', hfault', hacc'⟩ := step_loneWrite (stateAt_keeps (P := Inv) step_keeps_inv hi hv) halone
      hfault (otherStart_of_singleWriter hsw hv hw) hstep
    exact ⟨halone', hfault', hacc.trans hw hacc'⟩

/-! ### The obligations -/

/-- Settles O58: step by step, since under SingleWriter no other byte is started while the WRITE runs. -/
theorem loneWriteNeverOverlaps : Obligations.LoneWriteNeverOverlaps :=
  ⟨fun _ _ hi hs hf hx h => step_loneWrite hi hs hf hx h,
    fun _ _ hsw hi hs hf n u hu hrun => run_loneWrite hsw hi hs hf n u hu hrun⟩

/-- Settles O57: phase by phase of the loop. -/
theorem writeStartsAndWaitsForEachByte : Obligations.WriteStartsAndWaitsForEachByte := by
  refine ⟨⟨rfl, fun _ _ => rfl⟩, fun s bs rest hh hin => ?_, fun s k b bs n rest hu hin => ⟨?_, ?_, ?_, ?_⟩⟩
  · rw [step_of_takeInput hin (u := callWrite bs { s with inputs := rest }) rfl,
      liftHolds_of_holdsOk (holdsOk_callWrite (s := { s with inputs := rest }) hh)]
    rfl
  · intro hk ha
    have hx : takeInput (.writer k) { s with inputs := rest } = _ :=
      (writerStep_up (s := { s with inputs := rest }) hu hk rfl).trans (exec_txstart_idle b hu ha)
    refine ⟨_, step_of_takeInput hin hx, ?_⟩
    rw [liftHolds_of_latch (by simp)]
    simp [TxIndex.toInt, Params.bitPeriod, WriteCall.moved]
  · intro hk hd
    have hx : takeInput (.writer k) { s with inputs := rest } = _ :=
      (writerStep_up (s := { s with inputs := rest }) hu hk rfl).trans (exec_txwait_held 0 hu hd)
    refine ⟨_, step_of_takeInput hin hx, ?_⟩
    rw [liftHolds_of_latch (by simpa using hd)]
    simp [SameTx, WriteCall.moved]
  · intro hk hd hh
    have hx : takeInput (.writer k) { s with inputs := rest } = _ :=
      (writerStep_up (s := { s with inputs := rest }) hu hk rfl).trans (exec_txwait_done 0 hu hd)
    obtain ⟨hheld, hphase⟩ := hh.1 hu hd
    obtain ⟨hkept, hdone⟩ := filter_unblock_set (List.getElem?_eq_some_iff.mp hk).1
      { left := bs, phase := .held, sent := n } hphase hh.2
    refine ⟨_, step_of_takeInput hin hx, ?_⟩
    rw [liftHolds_lifted _ (by simpa using hu) (by simpa using hd)]
    refine ⟨by simp, by simp [hheld, waitAnswer_eq], rfl, ⟨rfl, rfl, rfl⟩, rfl, ?_⟩
    have hfinished : (WriteCall.unblock { left := bs, phase := .held, sent := n }).finished = bs.isEmpty :=
      Bool.true_and _
    rw [hfinished] at hkept hdone
    cases bs with
    | nil => exact ⟨hkept, congrArg (fun l => s.returned ++ List.map _ l) hdone⟩
    | cons b' bs' =>
      exact ⟨hkept, (congrArg (fun l => s.returned ++ List.map _ l) hdone).trans (List.append_nil _)⟩
  · intro hk hd
    rw [step_of_takeInput hin (writerStep_blocked (s := { s with inputs := rest }) hk rfl),
      liftHolds_of_latch (by simpa using hd)]

end Sys2Proof.Machine
end

section
/-! The TX side (spec 42_tx_sequencer): TXSTART, what TXTICK leaves alone, and a byte clocked out as its frame, with
the obligations O17, O18, O23 and O28. -/

namespace Sys2Proof.Machine

/-! ### TXSTART -/

theorem exec_txstart_inFlight {s : State} (b : Byte) (hu : s.life = .up) (ha : s.txTimer.armed = true) :
    exec (.txstart b) s = .next (hostDone (.txstart b) none (corruptTx (recordFault .txOverlap s))) := by
  simp [exec, execTxstart, hu, ha]

/-- A fault that is recorded is in the set, with those that were (R216). -/
theorem mem_recordFault (f g : FaultName) (s : State) :
    g ∈ (recordFault f s).fault ↔ g ∈ s.fault ∨ g = f := by
  rw [recordFault_fault]
  split
  · exact ⟨.inl, fun h => h.elim id (fun e => e ▸ ‹_›)⟩
  · simp

/-! ### A byte clocked out -/

theorem fireTxTimes_succ {n : Nat} {s t : State} (h : fireTxTimes n s = .next t) :
    fireTxTimes (n + 1) s = fireTx t := by
  induction n generalizing s with
  | zero =>
    cases h
    rw [fireTxTimes]
    split <;> simp_all [fireTxTimes]
  | succ n ih =>
    rw [fireTxTimes] at h ⊢
    split at h
    · exact ih h
    · cases h
    · cases h

theorem TxIndex.next_ofFin {k : Nat} (h : k < 10) :
    (TxIndex.ofFin ⟨k, by omega⟩).next = TxIndex.ofFin ⟨k + 1, by omega⟩ := by
  have all : ∀ j : Fin 10, (TxIndex.ofFin j.castSucc).next = TxIndex.ofFin j.succ := by decide
  exact all ⟨k, h⟩

theorem TxIndex.ofFin_data {k : Nat} (h0 : 0 < k) (h8 : k ≤ 8) :
    TxIndex.ofFin ⟨k, by omega⟩ = .data ⟨k - 1, by omega⟩ := by
  have h : k - 1 < 8 := by omega
  simp [TxIndex.ofFin, Nat.ne_of_gt h0, h]

/-- Firing `k`, counted from 0, drives cell `k` of the frame (R139 to R141, R92). -/
theorem txFire_cell {s : State} {b : Byte} {k : Nat} (hk : k < 10) (hb : s.tx.targetByte = b)
    (hi : s.tx.bitIndex = TxIndex.ofFin ⟨k, by omega⟩) : txFire s = txShift (frameLevel b k) s := by
  rcases Nat.eq_zero_or_pos k with rfl | h0
  · exact txFire_start hi
  · rcases Nat.lt_or_ge 8 k with h9 | h8
    · obtain rfl : k = 9 := by omega
      exact txFire_stop hi
    · rw [txFire_data (hi.trans (TxIndex.ofFin_data h0 h8)), hb]
      simp [frameLevel, Nat.ne_of_gt h0, h8]

/-- A byte `b` started at time `start`, after `n` of its firings, each at its deadline. -/
structure ClockedOut (cfg : Params) (start : Nat) (b : Byte) (n : Fin 11) (t : State) : Prop where
  params : t.cfg = cfg
  up : t.life = .up
  tx : t.tx = { targetByte := b, bitIndex := TxIndex.ofFin n, doneSignal := false }
  timer : t.txTimer = { armed := true, deadline := start + (n.val + 1) * cfg.bitPeriod }

/-- A firing of the TX timer at its deadline is enabled. -/
theorem txTickEnabled_at_deadline {t : State} (hu : t.life = .up) (ha : t.txTimer.armed = true) :
    txTickEnabled { t with now := t.txTimer.deadline } = true :=
  (txTickEnabled_iff _).mpr ⟨hu, ha, Nat.le_refl _⟩

theorem ClockedOut.fire {cfg : Params} {start : Nat} {b : Byte} {n : Nat} {t : State} (hn : n < 10)
    (h : ClockedOut cfg start b ⟨n, by omega⟩ t) :
    ∃ u, fireTx t = .next u ∧ ClockedOut cfg start b ⟨n + 1, by omega⟩ u ∧
      u.txOut = frameLevel b n ∧ u.now = start + (n + 1) * cfg.bitPeriod := by
  have hcell := txFire_cell (s := { t with now := t.txTimer.deadline }) (b := b) hn (by simp [h.tx])
    (by simp [h.tx])
  refine ⟨_, exec_txtick_enabled (txTickEnabled_at_deadline h.up (by simp [h.timer])), ?_, ?_, ?_⟩
  · rw [hcell]
    refine ⟨by simpa using h.params, by simpa using h.up, ?_, ?_⟩
    · simp [h.tx, TxIndex.next_ofFin hn]
    · simp [h.timer, h.params]
      ring
  · rw [hcell]; simp
  · rw [hcell]; simp [h.timer]

/-- The firings of a byte, up to its stop cell. -/
theorem clockedOut_fireTxTimes {cfg : Params} {start : Nat} {b : Byte} {s : State}
    (h : ClockedOut cfg start b 0 s) (n : Nat) (hn : n < 10) :
    ∃ t, fireTxTimes (n + 1) s = .next t ∧ ClockedOut cfg start b ⟨n + 1, by omega⟩ t ∧
      t.txOut = frameLevel b n ∧ t.now = start + (n + 1) * cfg.bitPeriod := by
  induction n with
  | zero =>
    obtain ⟨u, hu, hclock⟩ := h.fire (n := 0) (by omega)
    exact ⟨u, (fireTxTimes_succ rfl).trans hu, hclock⟩
  | succ n ih =>
    obtain ⟨t, ht, hclock, -⟩ := ih (by omega)
    obtain ⟨u, hu, hclock'⟩ := hclock.fire hn
    exact ⟨u, (fireTxTimes_succ ht).trans hu, hclock'⟩

/-! ### The obligations -/

/-- Settles O17: TXSTART writes the TX byte, index, latch and timer, and no more. -/
theorem txstartLoadsTheByte : Obligations.TxstartLoadsTheByte := by
  intro s b hu ha
  refine ⟨_, exec_txstart_idle b hu ha, ?_⟩
  simp [TxIndex.toInt, Params.bitPeriod, SameRx, SameFifo, SameCounters, SameLife, SameWorld, SameMarks]

/-- Settles O18: the overlap is recorded, and only the TX fields hold free values. -/
theorem txstartInFlightRecordsTheOverlap : Obligations.TxstartInFlightRecordsTheOverlap := by
  intro s b hu ha
  refine ⟨_, exec_txstart_inFlight b hu ha, fun f => mem_recordFault .txOverlap f s, ?_⟩
  simp [SameRx, SameFifo, SameCounters, SameLife, SameWorld]

/-- Settles O23: a firing is a shift, or the terminal one, which alone writes the latch. -/
theorem txtickFrame : Obligations.TxtickFrame := by
  intro s t h
  rcases execTxtick_next h with ⟨-, rfl⟩ | ⟨-, rfl⟩
  · simp [SameRx, SameFifo, SameCounters, SameLife, SameWorld, SameMarks, SamePort]
  · rcases txFire_shift_or_finish s with ⟨-, v, hf⟩ | ⟨hk, hf⟩
    · simp [hf, SameRx, SameFifo, SameCounters, SameLife, SameWorld, SameMarks, SamePort]
    · simp [hf, hk, SameRx, SameFifo, SameCounters, SameLife, SameWorld, SameMarks, SamePort]

/-- Settles O28: ten firings drive the ten cells, and the eleventh is the terminal one. -/
theorem byteIsClockedOutAsAFrame : Obligations.ByteIsClockedOutAsAFrame := by
  intro s b hu ha
  have h0 : ClockedOut s.cfg s.now b 0 (hostDone (.txstart b) none (loadTx b s)) :=
    ⟨rfl, hu, rfl, by simp⟩
  refine ⟨_, exec_txstart_idle b hu ha, fun k => ?_, ?_⟩
  · obtain ⟨t, ht, hclock, hout, hnow⟩ := clockedOut_fireTxTimes h0 k.val k.isLt
    refine ⟨t, ht, hout, hnow, by simp [hclock.timer], ?_, by simp [hclock.tx]⟩
    simp only [hclock.timer, hnow]
    ring
  · obtain ⟨t, ht, hclock, hout, -⟩ := clockedOut_fireTxTimes h0 9 (by omega)
    refine ⟨_, (fireTxTimes_succ ht).trans
      (exec_txtick_finish (txTickEnabled_at_deadline hclock.up (by simp [hclock.timer])) (by rw [hclock.tx]; rfl)), ?_⟩
    simp [hclock.timer, hclock.tx, hout, frameLevel]

end Sys2Proof.Machine
end

section
/-! The FIFO as a queue (spec 41_rx_fifo): the unread bytes under a push and a pop, with the obligations O37 to
O40. -/

namespace Sys2Proof.Machine

/-! ### Cursors and count -/

/-- The slot of the k-th unread byte, where `tail` is one on: that of the byte after it. -/
theorem slot_succ_tail (tail k c : Nat) : ((tail + 1) % c + k) % c = (tail + (k + 1)) % c := by
  rw [Nat.mod_add_mod]
  congr 1
  omega

namespace Fifo

variable {c : Nat} {f : Fifo}

theorem count_lt (hh : f.head < c) (ht : f.tail < c) : count c f < c := by
  rw [count_eq c f hh ht]
  split <;> omega

theorem count_eq_zero_iff (hh : f.head < c) (ht : f.tail < c) : f.head = f.tail ↔ count c f = 0 := by
  rw [count_eq c f hh ht]
  split <;> omega

theorem count_eq_pred_iff (hh : f.head < c) (ht : f.tail < c) :
    (f.head + 1) % c = f.tail ↔ count c f = c - 1 := by
  rw [count_eq c f hh ht, index_succ _ _ hh]
  split <;> split <;> omega

/-- One byte more, where `head` moves on in a FIFO that is not full. -/
theorem count_head_succ {g : Fifo} (hh : f.head < c) (ht : f.tail < c) (hfull : (f.head + 1) % c ≠ f.tail)
    (hgh : g.head = (f.head + 1) % c) (hgt : g.tail = f.tail) : count c g = count c f + 1 := by
  have hg : g.head < c := hgh ▸ Nat.mod_lt _ (by omega)
  have hnext := index_succ f.head c hh
  rw [count_eq c g hg (hgt ▸ ht), count_eq c f hh ht, hgt, hgh]
  split at hnext <;> rw [hnext] at hfull ⊢ <;> split <;> split <;> omega

/-- One byte fewer, where `tail` moves on in a FIFO that is not empty. -/
theorem count_tail_succ {g : Fifo} (hh : f.head < c) (ht : f.tail < c) (hne : f.head ≠ f.tail)
    (hgh : g.head = f.head) (hgt : g.tail = (f.tail + 1) % c) : count c g + 1 = count c f := by
  have hg : g.tail < c := hgt ▸ Nat.mod_lt _ (by omega)
  rw [count_eq c g (hgh ▸ hh) hg, count_eq c f hh ht, hgt, hgh, index_succ _ _ ht]
  split <;> split <;> split <;> omega

/-- The slot after the unread bytes is `head`. -/
theorem slot_count (hh : f.head < c) (ht : f.tail < c) : (f.tail + count c f) % c = f.head := by
  rw [index_add _ _ _ ht (count_lt hh ht), count_eq c f hh ht]
  split <;> split <;> omega

/-- No unread byte lies in the slot `head`. -/
theorem slot_ne_head (hh : f.head < c) (ht : f.tail < c) {k : Nat} (hk : k < count c f) :
    (f.tail + k) % c ≠ f.head := by
  have hlt := count_lt hh ht
  rw [index_add _ _ _ ht (by omega)]
  rw [count_eq c f hh ht] at hk
  split at hk <;> split <;> omega

/-- No unread byte but the oldest lies in the slot `tail`. -/
theorem slot_ne_tail (ht : f.tail < c) {k : Nat} (h0 : 0 < k) (hk : k < c) : (f.tail + k) % c ≠ f.tail := by
  rw [index_add _ _ _ ht hk]
  split <;> omega

/-! ### A push and a pop -/

/-- A byte stored at `head` of a FIFO that is not full is the newest unread one (R122). -/
theorem unread_store {b : Byte} {g : Fifo} (hw : Memory.wf f.storage) (hh : f.head < c) (ht : f.tail < c)
    (hfull : (f.head + 1) % c ≠ f.tail) (hgs : g.storage = Memory.write f.storage f.head b)
    (hgh : g.head = (f.head + 1) % c) (hgt : g.tail = f.tail) : unread c g = unread c f ++ [b] := by
  unfold unread
  rw [count_head_succ hh ht hfull hgh hgt, List.range_succ, List.map_append, List.map_singleton, hgt, hgs,
    slot_count hh ht, Memory.read_write_same _ _ _ hw]
  congr 1
  exact List.map_congr_left fun k hk =>
    Memory.read_write_other _ _ _ _ hw (slot_ne_head hh ht (List.mem_range.mp hk))

/-- With `tail` one on the oldest unread byte is gone, whatever its slot reads as then (R122, R123). -/
theorem unread_tail_succ {g : Fifo} (hh : f.head < c) (ht : f.tail < c) (hne : f.head ≠ f.tail)
    (hgs : ∀ a, a ≠ f.tail → Memory.read g.storage a = Memory.read f.storage a)
    (hgh : g.head = f.head) (hgt : g.tail = (f.tail + 1) % c) : unread c g = (unread c f).drop 1 := by
  have hcount := count_tail_succ hh ht hne hgh hgt
  have hlt := count_lt hh ht
  unfold unread
  rw [← hcount, List.range_succ_eq_map, List.map_cons, List.map_map, List.drop_one, List.tail_cons]
  refine List.map_congr_left fun k hk => ?_
  have hk := List.mem_range.mp hk
  rw [hgt, slot_succ_tail]
  exact hgs _ (slot_ne_tail ht (Nat.succ_pos k) (by omega))

/-- The oldest unread byte is the one at `tail`. -/
theorem head?_unread (hh : f.head < c) (ht : f.tail < c) (hne : f.head ≠ f.tail) :
    (unread c f).head? = some (Memory.read f.storage f.tail) := by
  have hpos : 0 < count c f := Nat.pos_of_ne_zero fun h => hne ((count_eq_zero_iff hh ht).mpr h)
  obtain ⟨n, hn⟩ := Nat.exists_eq_succ_of_ne_zero (Nat.ne_of_gt hpos)
  unfold unread
  rw [hn, List.range_succ_eq_map]
  simp [Nat.mod_eq_of_lt ht]

theorem unread_empty (h : f.head = f.tail) : unread c f = [] := by
  simp [unread, count, h]

end Fifo

theorem unread_length (s : State) : (unread s).length = fifoCount s := Fifo.length_unread _ _

/-- A push keeps its byte as the newest; a full FIFO loses its oldest (R122). -/
theorem unread_pushedFifo {s : State} (b : Byte) (hc : CursorsOk s) (hw : Memory.wf s.fifo.storage) :
    Fifo.unread s.cfg.capacity (pushedFifo b s) =
      (if fifoFull s then (unread s).drop 1 else unread s) ++ [b] := by
  obtain ⟨hh, ht⟩ := hc
  have hcap := capacity_pos s.cfg
  cases hf : fifoFull s with
  | false =>
    have hfull : (s.fifo.head + 1) % s.cfg.capacity ≠ s.fifo.tail := fun h => by
      simp [(fifoFull_iff s).mpr h] at hf
    exact Fifo.unread_store hw hh ht hfull rfl rfl (by simp [pushedFifo, hf])
  | true =>
    have hfull := (fifoFull_iff s).mp hf
    have hsucc := index_succ _ _ hh
    have htail := index_succ _ _ ht
    have hne : s.fifo.head ≠ s.fifo.tail := by split at hsucc <;> omega
    have hroom : (s.fifo.head + 1) % s.cfg.capacity ≠ (s.fifo.tail + 1) % s.cfg.capacity := by
      split at hsucc <;> split at htail <;> omega
    rw [if_pos rfl, unread, ← Fifo.unread_tail_succ (g := { s.fifo with tail := (s.fifo.tail + 1) % s.cfg.capacity })
      hh ht hne (fun _ _ => rfl) rfl rfl]
    exact Fifo.unread_store hw hh (Nat.mod_lt _ (by omega)) hroom rfl rfl (by simp [pushedFifo, hf, cursorNext])

/-- A pop of a non-empty FIFO takes the oldest byte away (R123). -/
theorem unread_poppedFifo {s : State} (hc : CursorsOk s) (hw : Memory.wf s.fifo.storage)
    (hne : s.fifo.head ≠ s.fifo.tail) :
    Fifo.unread s.cfg.capacity (poppedFifo s) = (unread s).drop 1 :=
  Fifo.unread_tail_succ hc.1 hc.2 hne (fun _ ha => Memory.read_write_other _ _ _ _ hw ha) rfl rfl

theorem fifoFull_iff_count {s : State} (hc : CursorsOk s) :
    fifoFull s = true ↔ (unread s).length = s.cfg.capacity - 1 := by
  rw [unread_length, fifoFull_iff]
  exact Fifo.count_eq_pred_iff hc.1 hc.2

theorem storageOk_pushed {s : State} (b : Byte) (hc : CursorsOk s) (hs : StorageOk s) :
    StorageOk { s with fifo := pushedFifo b s } :=
  ⟨pushedFifo_wf hs.1, slots_write_lt _ hs.2 hc.1⟩

theorem storageOk_popped {s : State} (hc : CursorsOk s) (hs : StorageOk s) :
    StorageOk { s with fifo := poppedFifo s } :=
  ⟨poppedFifo_wf hs.1, slots_write_lt _ hs.2 hc.2⟩

/-- A push keeps the last `C - 1` of the bytes (R126). -/
theorem unread_push_last {s : State} (b : Byte) (hc : CursorsOk s) (hw : Memory.wf s.fifo.storage) :
    Fifo.unread s.cfg.capacity (pushedFifo b s) =
      (unread s ++ [b]).drop ((unread s).length + 1 - (s.cfg.capacity - 1)) := by
  have hcap := capacity_pos s.cfg
  have hlt : (unread s).length < s.cfg.capacity := unread_length s ▸ Fifo.count_lt hc.1 hc.2
  rw [unread_pushedFifo b hc hw]
  by_cases hf : fifoFull s
  · have hlen := (fifoFull_iff_count hc).mp hf
    rw [if_pos hf, hlen, show s.cfg.capacity - 1 + 1 - (s.cfg.capacity - 1) = 1 by omega,
      List.drop_append_of_le_length (by omega)]
  · have hlen := mt (fifoFull_iff_count hc).mpr hf
    rw [if_neg hf, show (unread s).length + 1 - (s.cfg.capacity - 1) = 0 by omega, List.drop_zero]

/-- Pushes with no pop between them keep the last `C - 1` of all the bytes (R126). -/
theorem pushAll_unread {s : State} {bs : List Byte} (hc : CursorsOk s) (hs : StorageOk s) :
    ∃ t, pushAll bs s = .ok t ∧
      unread t = (unread s ++ bs).drop ((unread s).length + bs.length - (s.cfg.capacity - 1)) := by
  induction bs generalizing s with
  | nil =>
    have hlt : (unread s).length < s.cfg.capacity := unread_length s ▸ Fifo.count_lt hc.1 hc.2
    exact ⟨s, rfl, by simp [show (unread s).length - (s.cfg.capacity - 1) = 0 by omega]⟩
  | cons b bs ih =>
    obtain ⟨t, ht, hut⟩ := ih (s := { s with fifo := pushedFifo b s, hist := s.hist ++ pushRecords s })
      (cursorsOk_pushed b hc) (storageOk_pushed b hc hs)
    refine ⟨t, by rw [pushAll, fifoPush_eq b s hc.1]; exact ht, ?_⟩
    have hpush := unread_push_last b hc hs.1
    rw [hut, show unread { s with fifo := pushedFifo b s, hist := s.hist ++ pushRecords s } = _ from hpush,
      ← List.drop_append_of_le_length (by simp), List.drop_drop, List.append_assoc, List.singleton_append]
    congr 1
    simp
    omega

/-! ### The obligations -/

/-- Settles O37: the count is the distance of the cursors. -/
theorem fifoHoldsAtMostOneLessThanItsSlots : Obligations.FifoHoldsAtMostOneLessThanItsSlots := by
  intro s hc
  refine ⟨unread_length s, ?_, Fifo.count_eq_zero_iff hc.1 hc.2, Fifo.count_eq_pred_iff hc.1 hc.2⟩
  exact Nat.le_sub_one_of_lt (Fifo.count_lt hc.1 hc.2)

/-- Settles O38: a push is what `pushedFifo` and `pushRecords` say. -/
theorem pushAppendsAndDropsTheOldest : Obligations.PushAppendsAndDropsTheOldest := by
  intro s b hc hs
  refine ⟨_, fifoPush_eq b s hc.1, cursorsOk_pushed b hc, storageOk_pushed b hc hs,
    unread_pushedFifo b hc hs.1, ?_⟩
  simp [pushRecords, fifoFull_iff]

/-- Settles O39: the empty FIFO, and the other. -/
theorem popRemovesTheOldest : Obligations.PopRemovesTheOldest := by
  intro s hc hs
  by_cases he : s.fifo.head = s.fifo.tail
  · exact ⟨none, s, fifoPop_empty s he, by simp [unread, Fifo.unread_empty he],
      by simp [unread, Fifo.unread_empty he], hc, hs, fun _ => rfl⟩
  · exact ⟨_, _, fifoPop_eq s he hc.2, (Fifo.head?_unread hc.1 hc.2 he).symm, unread_poppedFifo hc hs.1 he,
      cursorsOk_popped hc, storageOk_popped hc hs, fun h => absurd h he⟩

/-- Settles O40: of an empty FIFO nothing is among the bytes kept. -/
theorem dropOldestLaw : Obligations.DropOldestLaw := by
  intro s bs hc hs he
  obtain ⟨t, ht, hut⟩ := pushAll_unread (bs := bs) hc hs
  refine ⟨t, ht, ?_⟩
  rw [hut, show unread s = [] from Fifo.unread_empty he, List.nil_append, List.length_nil]
  congr 1
  omega

end Sys2Proof.Machine
end

section
/-! The facade's reads (spec 41_rx_fifo R124; 44_facade_and_status R181, R183): RXPOP, READ and STATUS, with the
obligations O41 to O44. -/

namespace Sys2Proof.Machine

/-! ### RXPOP -/

theorem exec_rxpop_empty {s : State} (d : Byte) (hu : s.life = .up) (he : s.fifo.head = s.fifo.tail) :
    exec (.rxpop d) s = .next (hostDone (.rxpop d) (some 0) s) := by
  simp [exec, execRxpop, hu, fifoPop_empty s he, popAnswer]

theorem exec_rxpop_nonempty {s : State} (d : Byte) (hu : s.life = .up) (hne : s.fifo.head ≠ s.fifo.tail)
    (ht : s.fifo.tail < s.cfg.capacity) :
    exec (.rxpop d) s =
      .next (hostDone (.rxpop d) (some (popAnswer (some (Memory.read s.fifo.storage s.fifo.tail))))
        { s with fifo := poppedFifo s }) := by
  simp [exec, execRxpop, hu, fifoPop_eq s hne ht]

/-! The answer, bit by bit (R47). -/

theorem popAnswer_valid (r : Byte) : (popAnswer (some r)).getLsbD 8 = true := by
  simp only [popAnswer, zext32, BitVec.getLsbD_setWidth, BitVec.getLsbD_append]
  rfl

theorem popAnswer_invalid : (popAnswer none).getLsbD 8 = false := rfl

theorem popAnswer_byte (r : Byte) : (popAnswer (some r)).extractLsb' 0 8 = r := by
  apply BitVec.eq_of_getLsbD_eq
  intro i hi
  simp only [popAnswer, zext32, BitVec.getLsbD_extractLsb', BitVec.getLsbD_setWidth, BitVec.getLsbD_append]
  simp [hi, show i < 32 by omega]

theorem popAnswer_upper (r : Byte) : (popAnswer (some r)).extractLsb' 9 23 = 0 := by
  apply BitVec.eq_of_getLsbD_eq
  intro i _
  simp only [popAnswer, zext32, BitVec.getLsbD_extractLsb', BitVec.getLsbD_setWidth, BitVec.getLsbD_append]
  simp [show ¬ 9 + i < 8 by omega]
  omega

/-- What RXPOP does to the queue: it answers the oldest byte, if there is one, and takes it away. -/
theorem exec_rxpop_unread {s : State} (d : Byte) (hu : s.life = .up) (hc : CursorsOk s) (hs : StorageOk s) :
    ∃ t, exec (.rxpop d) s = .next t ∧ t.life = .up ∧ t.hRdata = some (popAnswer (unread s).head?) ∧
      unread t = (unread s).drop 1 := by
  by_cases he : s.fifo.head = s.fifo.tail
  · have hempty : unread s = [] := Fifo.unread_empty he
    exact ⟨_, exec_rxpop_empty d hu he, hu, by simp [hempty, popAnswer],
      by rw [hempty]; exact hempty⟩
  · have hhead : (unread s).head? = _ := Fifo.head?_unread hc.1 hc.2 he
    exact ⟨_, exec_rxpop_nonempty d hu he hc.2, hu, by rw [hhead]; rfl,
      unread_poppedFifo hc hs.1 he⟩

/-! ### READ -/

theorem readLoop_unread {s : State} (n : Nat) (hu : s.life = .up) (hc : CursorsOk s) (hs : StorageOk s) :
    ∃ t, readLoop n s = .next ((unread s).take n, t) ∧ unread t = (unread s).drop n := by
  induction n generalizing s with
  | zero => exact ⟨s, by simp [readLoop], rfl⟩
  | succ n ih =>
    obtain ⟨t, ht, hup, hr, hpop⟩ := exec_rxpop_unread 0 hu hc hs
    cases hq : unread s with
    | nil =>
      rw [hq] at hpop hr
      refine ⟨t, ?_, by simpa using hpop⟩
      simp only [readLoop, ht, hr, List.head?_nil, popAnswer_invalid]
      rfl
    | cons b bs =>
      rw [hq] at hpop hr
      obtain ⟨u, hu', hrest⟩ := ih hup (exec_cursorsOk hc ht) (exec_storageOk hs ht)
      rw [hpop] at hu' hrest
      refine ⟨u, ?_, by simpa using hrest⟩
      simp only [readLoop, ht, hr, List.head?_cons, popAnswer_valid, popAnswer_byte, hu']
      rfl

theorem readerStep_eq {k : Nat} {c : ReadCall} {s t : State} (hk : s.reads[k]? = some c)
    (ht : exec (.rxpop 0) s = .next t) :
    readerStep k s = .next (deliver k (c.took (t.hRdata.getD 0)) t) := by
  simp only [readerStep, hk, ht]

theorem holdsOk_callRead {n : Nat} {s : State} (hs : HoldsOk s) : HoldsOk (callRead n s) := by
  simpa [HoldsOk] using hs

theorem took_none (c : ReadCall) : c.took (popAnswer none) = { c with left := 0 } := by
  rw [ReadCall.took, popAnswer_invalid]
  rfl

theorem took_some (c : ReadCall) (b : Byte) :
    c.took (popAnswer (some b)) = { left := c.left - 1, got := c.got ++ [b] } := by
  rw [ReadCall.took, popAnswer_valid, popAnswer_byte]
  rfl

/-! ### STATUS -/

/-- The fields of a word put together as STATUS is (R48): bits 7:0, LIFE in bit 8, `last_err` in bits 10:9. -/
theorem statusWord_fields (e : BitVec 2) (l : BitVec 1) (b : BitVec 8) :
    (∀ i, i < 8 → (zext32 (e ++ l ++ b)).getLsbD i = b.getLsbD i) ∧
    (zext32 (e ++ l ++ b)).getLsbD 8 = l.getLsbD 0 ∧
    (zext32 (e ++ l ++ b)).extractLsb' 9 2 = e ∧
    (zext32 (e ++ l ++ b)).extractLsb' 11 21 = 0 := by
  refine ⟨fun i hi => ?_, ?_, ?_, ?_⟩
  · simp only [zext32, BitVec.getLsbD_setWidth, BitVec.getLsbD_append]
    simp [hi, show i < 32 by omega]
  · simp only [zext32, BitVec.getLsbD_setWidth, BitVec.getLsbD_append]
    simp
  · apply BitVec.eq_of_getLsbD_eq
    intro i hi
    simp only [zext32, BitVec.getLsbD_extractLsb', BitVec.getLsbD_setWidth, BitVec.getLsbD_append]
    simp [hi, show ¬ 9 + i < 8 by omega, show ¬ 9 + i - 8 < 1 by omega, show 9 + i < 32 by omega,
      show 9 + i - 8 - 1 = i by omega]
  · apply BitVec.eq_of_getLsbD_eq
    intro i _
    simp only [zext32, BitVec.getLsbD_extractLsb', BitVec.getLsbD_setWidth, BitVec.getLsbD_append]
    simp [show ¬ 11 + i < 8 by omega, show ¬ 11 + i - 8 < 1 by omega,
      BitVec.getLsbD_of_ge e (11 + i - 8 - 1) (by omega)]

/-- Bits 7:0 of STATUS while UP, from bit 0 on (R48). -/
theorem statusLow_bits (s : State) :
    (statusLow s).getLsbD 0 = s.tx.doneSignal ∧ (statusLow s).getLsbD 1 = s.txTimer.armed ∧
    (statusLow s).getLsbD 2 = s.rx.active ∧ (statusLow s).getLsbD 3 = s.rxIrqEn ∧
    (statusLow s).getLsbD 4 = !fifoEmpty s ∧ (statusLow s).getLsbD 5 = fifoFull s ∧
    (statusLow s).getLsbD 6 = s.txOut ∧ (statusLow s).getLsbD 7 = s.rxIn := by
  simp only [statusLow, levelBit, BitVec.getLsbD_append, BitVec.getLsbD_ofBool]
  simp

/-! ### The obligations -/

/-- Settles O41: the pop zeroes the slot at `tail` and moves `tail` on. -/
theorem rxpopAnswersTheOldestByte : Obligations.RxpopAnswersTheOldestByte := by
  intro s d hu hne ht hw
  refine ⟨_, _, exec_rxpop_nonempty d hu hne ht, rfl, rfl, popAnswer_valid _, popAnswer_byte _, popAnswer_upper _,
    Memory.read_write_same _ _ _ hw, fun a ha => Memory.read_write_other _ _ _ _ hw ha, rfl, rfl, ?_⟩
  simp [SameTx, SameRx, SameCounters, SameLife, SameWorld, SameMarks]

/-- Settles O42: there is nothing to pop. -/
theorem rxpopAnswersEmpty : Obligations.RxpopAnswersEmpty := by
  intro s d hu he
  exact ⟨_, exec_rxpop_empty d hu he, rfl, rfl, hostDone_sideEffectFree _ _ s⟩

/-- Settles O43: the loop in one, the call, and the pop of a running call. -/
theorem readReturnsTheOldestBytes : Obligations.ReadReturnsTheOldestBytes := by
  refine ⟨fun s n hu hc hs => readLoop_unread n hu hc hs, fun s n rest hh hin => ?_,
    fun s k n out rest hu hc hs hin hk => ?_⟩
  · rw [step_of_takeInput hin (u := callRead n { s with inputs := rest }) rfl,
      liftHolds_of_holdsOk (holdsOk_callRead (s := { s with inputs := rest }) hh)]
    rfl
  · obtain ⟨t, ht, hup, hr, hpop⟩ := exec_rxpop_unread (s := { s with inputs := rest }) 0 hu hc hs
    obtain ⟨-, -, -, -, hreads, hdelivered, -⟩ := exec_callers ht
    have hx : takeInput (.reader k) { s with inputs := rest } = _ := readerStep_eq hk ht
    refine ⟨_, step_of_takeInput hin hx, ?_, ?_⟩
    · simpa [unread] using hpop
    · have hanswer : t.hRdata = some (popAnswer (unread s).head?) := hr
      have hnow : t.now = s.now := (exec_now_cfg ht).1
      rw [hanswer, Option.getD_some]
      cases hq : (unread s).head? with
      | none => simp [took_none, deliver, hreads, hdelivered, hnow]
      | some b => by_cases hn : n = 0 <;> simp [took_some, deliver, hn, hreads, hdelivered, hnow]

/-- Settles O44: STATUS is its fields put together, the low bits 0 in DOWN. -/
theorem rdstatAnswersTheStatusBits : Obligations.RdstatAnswersTheStatusBits := by
  intro s d
  refine ⟨hostDone (.rdstat d) (some (status s)) s, status s, rfl, rfl, rfl, ?_⟩
  cases hl : s.life with
  | up =>
    have hs : status s = zext32 (LastErr.code s.lastErr ++ 1#1 ++ statusLow s) := by simp [status, hl]
    obtain ⟨hlow, hlife, herr, hupper⟩ := statusWord_fields (LastErr.code s.lastErr) 1#1 (statusLow s)
    obtain ⟨h0, h1, h2, h3, h4, h5, h6, h7⟩ := statusLow_bits s
    rw [← hs] at hlow hlife herr hupper
    have hnonempty : (!fifoEmpty s) = decide (s.fifo.head ≠ s.fifo.tail) := by simp [fifoEmpty]
    exact ⟨(hlow 0 (by omega)).trans h0, (hlow 1 (by omega)).trans h1, (hlow 2 (by omega)).trans h2,
      (hlow 3 (by omega)).trans h3, ((hlow 4 (by omega)).trans h4).trans hnonempty,
      (hlow 5 (by omega)).trans h5, (hlow 6 (by omega)).trans h6, (hlow 7 (by omega)).trans h7, hlife,
      by rw [herr]; cases s.lastErr <;> rfl, hupper, hostDone_sideEffectFree _ _ s⟩
  | down =>
    have hs : status s = zext32 (LastErr.code s.lastErr ++ 0#1 ++ 0#8) := by simp [status, hl]
    obtain ⟨hlow, hlife, herr, hupper⟩ := statusWord_fields (LastErr.code s.lastErr) 0#1 0#8
    rw [← hs] at hlow hlife herr hupper
    exact ⟨hlow 0 (by omega), hlow 1 (by omega), hlow 2 (by omega), hlow 3 (by omega), hlow 4 (by omega),
      hlow 5 (by omega), hlow 6 (by omega), hlow 7 (by omega), hlife,
      by rw [herr]; cases s.lastErr <;> rfl, hupper, hostDone_sideEffectFree _ _ s⟩

end Sys2Proof.Machine
end

section
/-! The RX side (spec 43_rx_detector_sampler; 40_gpio_timer R110): LINE, RXEDGE and RXTICK, and a frame received or
dropped, with the obligations O24 and O29 to O36. -/

namespace Sys2Proof.Machine

/-! ### Events that are not enabled -/

theorem timerDue_eq_false {s : State} {t : Timer}
    (h : s.life = .down ∨ t.armed = false ∨ s.now < t.deadline) : timerDue s t = false := by
  rw [← Bool.not_eq_true, timerDue_iff]
  rintro ⟨hl, ha, hd⟩
  rcases h with h | h | h
  · simp [hl] at h
  · simp [ha] at h
  · omega

theorem exec_txtick_disabled {s : State} (h : txTickEnabled s = false) : exec .txtick s = .next s := by
  simp [exec, execTxtick, h]

theorem exec_rxtick_disabled {s : State} (h : rxTickEnabled s = false) : exec .rxtick s = .next s := by
  simp [exec, execRxtick, h]

theorem exec_rxedge_disabled {s : State} (h : rxEdgeEnabled s = false) : exec .rxedge s = .next s := by
  simp [exec, execRxedge, h]

/-! ### The edge handler and the sampler -/

theorem exec_rxedge_idle {s : State} (he : rxEdgeEnabled s = true) (ha : s.rx.active = false) :
    exec .rxedge s = .next (logOp .rxedge none none (startFrame { s with rxEdgePending := false })) := by
  simp [exec, execRxedge, he, handleEdge, ha]

theorem exec_rxedge_sampling {s : State} (he : rxEdgeEnabled s = true) (ha : s.rx.active = true) :
    exec .rxedge s = .next (logOp .rxedge none none { s with rxEdgePending := false }) := by
  simp [exec, execRxedge, he, handleEdge, ha]

theorem exec_rxtick_sample {s : State} (he : rxTickEnabled s = true) (hc : s.rx.bitCount.val < 8) :
    exec .rxtick s = .next (logOp .rxtick none none (sampleBit s hc)) :=
  execRxtick_sample s he hc

theorem exec_rxtick_accept {s : State} (he : rxTickEnabled s = true) (hc : s.rx.bitCount.val = 8)
    (hv : s.rxIn = true) (hh : s.fifo.head < s.cfg.capacity) :
    exec .rxtick s = .next (acceptedState (logOp .rxtick none none s)) :=
  execRxtick_accept s he (by omega) hv hh

theorem exec_rxtick_drop {s : State} (he : rxTickEnabled s = true) (hc : s.rx.bitCount.val = 8)
    (hv : s.rxIn = false) : exec .rxtick s = .next (droppedState (logOp .rxtick none none s)) :=
  execRxtick_drop s he (by omega) hv

/-! ### A frame being assembled -/

/-- A frame of byte `b` is being received and `k` of its bits are sampled: the accumulator holds these, and 0 in
the others (R162). -/
def Assembling (b : Byte) (k : Nat) (rx : RxState) : Prop :=
  rx.active = true ∧ rx.bitCount.val = k ∧
  ∀ j : Fin 8, rx.accumulator.getLsbD j.val = (decide (j.val < k) && b.getLsbD j.val)

theorem assembling_start (b : Byte) : Assembling b 0 { active := true, bitCount := 0, accumulator := 0 } :=
  ⟨rfl, rfl, by simp⟩

theorem Assembling.sample {b : Byte} {k : Nat} {s : State} (h : Assembling b k s.rx) (hk : k < 8)
    (hv : s.rxIn = b.getLsbD k) (hc : s.rx.bitCount.val < 8) : Assembling b (k + 1) (sampleBit s hc).rx := by
  obtain ⟨hact, rfl, hbits⟩ := h
  refine ⟨hact, rfl, fun j => ?_⟩
  rw [sampleBit_eq, accumulate_bit _ _ ⟨s.rx.bitCount.val, hc⟩ j, hbits j, hv]
  rcases Nat.lt_trichotomy j.val s.rx.bitCount.val with hj | hj | hj
  · simp [hj, Nat.ne_of_lt hj, Nat.lt_succ_of_lt hj]
  · simp [hj]
  · simp [Nat.ne_of_gt hj, Nat.not_lt.mpr (Nat.le_of_lt hj), Nat.not_lt.mpr (Nat.succ_le_of_lt hj)]

/-- With eight bits sampled the accumulator is the byte. -/
theorem Assembling.accumulator_eq {b : Byte} {rx : RxState} (h : Assembling b 8 rx) : rx.accumulator = b := by
  obtain ⟨-, -, hbits⟩ := h
  apply BitVec.eq_of_getLsbD_eq
  intro j hj
  simpa [hj] using hbits ⟨j, hj⟩

/-! ### A frame, sampled at its deadlines -/

theorem sampleRxAll_append {vs ws : List Bool} {s t : State} (h : sampleRxAll vs s = .next t) :
    sampleRxAll (vs ++ ws) s = sampleRxAll ws t := by
  induction vs generalizing s with
  | nil => cases h; rfl
  | cons v vs ih =>
    rw [List.cons_append, sampleRxAll]
    rw [sampleRxAll] at h
    split at h
    · exact ih h
    · cases h
    · cases h

theorem sampleRxAll_singleton (v : Bool) (s : State) : sampleRxAll [v] s = sampleRx v s := by
  rw [sampleRxAll]
  split <;> simp_all [sampleRxAll]

/-- The frame of byte `b`, started at `s`, after `n` samples, each at its deadline; the FIFO and the counters are
as they were. -/
structure MidFrame (s : State) (b : Byte) (n : Nat) (t : State) : Prop where
  params : t.cfg = s.cfg
  up : t.life = .up
  rx : Assembling b n t.rx
  timer : t.rxTimer = { armed := true, deadline := s.now + (n + 1) * s.cfg.bitPeriod }
  fifo : t.fifo = s.fifo
  counters : SameCounters s t

theorem MidFrame.enabled {s t : State} {b : Byte} {n : Nat} (h : MidFrame s b n t) (v : Bool) :
    rxTickEnabled { t with now := t.rxTimer.deadline, rxIn := v } = true :=
  (rxTickEnabled_iff _).mpr ⟨h.up, by simp [h.timer], Nat.le_refl _⟩

theorem MidFrame.sample {s t : State} {b : Byte} {n : Nat} (h : MidFrame s b n t) (hn : n < 8) :
    ∃ u, sampleRx (b.getLsbD n) t = .next u ∧ MidFrame s b (n + 1) u := by
  obtain ⟨-, hcount, -⟩ := h.rx
  have hc : t.rx.bitCount.val < 8 := hcount ▸ hn
  refine ⟨_, exec_rxtick_sample (h.enabled _) hc, ?_, ?_, ?_, ?_, ?_, ?_⟩
  · simpa using h.params
  · simpa using h.up
  · exact Assembling.sample (s := { t with now := t.rxTimer.deadline, rxIn := b.getLsbD n }) h.rx hn rfl hc
  · simp [h.timer, h.params]
    ring
  · simpa using h.fifo
  · simpa [SameCounters] using h.counters

theorem MidFrame.samples {s t : State} {b : Byte} (h : MidFrame s b 0 t) (n : Nat) (hn : n ≤ 8) :
    ∃ u, sampleRxAll ((List.range n).map (fun k => b.getLsbD k)) t = .next u ∧ MidFrame s b n u := by
  induction n with
  | zero => exact ⟨t, rfl, h⟩
  | succ n ih =>
    obtain ⟨u, hu, hmid⟩ := ih (by omega)
    obtain ⟨v, hv, hmid'⟩ := hmid.sample (by omega)
    refine ⟨v, ?_, hmid'⟩
    rw [List.range_succ, List.map_append, sampleRxAll_append hu, List.map_singleton, sampleRxAll_singleton]
    exact hv

/-- The newest unread byte after a push is the one pushed. -/
theorem getLast?_unread_pushedFifo {s : State} (b : Byte) (hc : CursorsOk s) (hw : Memory.wf s.fifo.storage) :
    (Fifo.unread s.cfg.capacity (pushedFifo b s)).getLast? = some b := by
  rw [unread_pushedFifo b hc hw, List.getLast?_concat]

/-- The stop check of a frame, at its deadline: the byte assembled is pushed, or dropped (R163). -/
theorem MidFrame.stop {s t : State} {b : Byte} (h : MidFrame s b 8 t) (hc : CursorsOk s) (hs : StorageOk s)
    (stop : Bool) :
    ∃ u, sampleRx stop t = .next u ∧
      u.rx.accumulator = b ∧ u.rx.active = false ∧ u.rxIrqEn = true ∧ u.rxTimer.armed = false ∧
      u.now = s.now + 9 * s.cfg.bitPeriod ∧
      (stop = true → (unread u).getLast? = some b ∧ u.cntRxOk = s.cntRxOk + 1 ∧ u.cntRxFerr = s.cntRxFerr) ∧
      (stop = false → unread u = unread s ∧ u.cntRxFerr = s.cntRxFerr + 1 ∧ u.cntRxOk = s.cntRxOk) := by
  obtain ⟨-, hcount, -⟩ := h.rx
  obtain ⟨hok, hferr⟩ := h.counters
  have hacc := h.rx.accumulator_eq
  cases stop with
  | false =>
    refine ⟨_, exec_rxtick_drop (h.enabled false) hcount rfl, ?_⟩
    simp [hacc, h.timer, hok, hferr, unread, h.fifo, h.params, ferrAfter]
  | true =>
    have hcur : CursorsOk t := by simpa [CursorsOk, h.fifo, h.params] using hc
    have hwf : Memory.wf t.fifo.storage := h.fifo ▸ hs.1
    refine ⟨_, exec_rxtick_accept (h.enabled true) hcount rfl hcur.1, ?_⟩
    have hlast := getLast?_unread_pushedFifo (s := { t with now := t.rxTimer.deadline, rxIn := true }) b hcur hwf
    simpa [hacc, h.timer, hok, hferr, unread] using hlast

/-! ### The obligations -/

/-- Settles O24: none of the three is enabled there. -/
theorem eventNotEnabledHasNoEffect : Obligations.EventNotEnabledHasNoEffect := by
  refine fun s => ⟨fun h => exec_txtick_disabled (timerDue_eq_false h),
    fun h => exec_rxtick_disabled (timerDue_eq_false h), fun h => exec_rxedge_disabled ?_⟩
  rcases h with h | h <;> simp [rxEdgeEnabled, isUp, h]

/-- Settles O29: `edgeCaught` is the condition. -/
theorem lineSetsThePendingEdge : Obligations.LineSetsThePendingEdge := by
  intro s v
  refine ⟨logOp (.line v) none none (driveLine v s), rfl, rfl, ?_, ?_⟩
  · rw [if_congr (edgeCaught_iff s v).symm rfl rfl]
    cases hc : edgeCaught s v <;> simp [hc]
  · simp [SameTx, SameFifo, SameCounters, SameLife, SameMarks, SamePort]

/-- Settles O30: the handler starts a frame. -/
theorem rxedgeStartsAFrame : Obligations.RxedgeStartsAFrame := by
  intro s he ha
  refine ⟨_, exec_rxedge_idle he ha, ?_⟩
  simp [Params.bitPeriod, SameTx, SameFifo, SameCounters, SameLife, SameWorld, SameMarks, SamePort]

/-- Settles O31: the handler clears the pending bit alone. -/
theorem rxedgeIsIgnoredWhileSampling : Obligations.RxedgeIsIgnoredWhileSampling := by
  intro s he ha
  refine ⟨_, exec_rxedge_sampling he ha, ?_⟩
  simp [SameTx, SameFifo, SameCounters, SameLife, SameWorld, SameMarks, SamePort]

/-- Settles O32: `accumulate` changes one bit, and the timer is forwarded from its own deadline. -/
theorem rxtickSamplesOneBit : Obligations.RxtickSamplesOneBit := by
  intro s he hc
  obtain ⟨-, harmed, -⟩ := (rxTickEnabled_iff s).mp he
  refine ⟨_, exec_rxtick_sample he hc, fun k => ?_, ?_⟩
  · exact accumulate_bit s.rx.accumulator s.rxIn ⟨s.rx.bitCount.val, hc⟩ k
  · simp [harmed, Params.bitPeriod, SameTx, SameFifo, SameCounters, SameLife, SameWorld, SameMarks, SamePort]

/-- Settles O33: the accepted frame is pushed, between the record of the firing and that of the frame. -/
theorem rxtickAcceptsAValidFrame : Obligations.RxtickAcceptsAValidFrame := by
  intro s he hc hv hh hw
  refine ⟨_, exec_rxtick_accept he hc hv hh, Memory.read_write_same _ _ _ hw,
    fun a ha => Memory.read_write_other _ _ _ _ hw ha, rfl, ?_, ?_⟩
  · simp [pushedFifo, fifoFull_iff, cursorNext]
  · simp [hc, pushRecords, fifoFull_iff, agentOf, operandOf, encode_rxtick, SameTx, SameLife, SameWorld, SameMarks,
      SamePort]

/-- Settles O34: the frame is dropped. -/
theorem rxtickDropsAFramingError : Obligations.RxtickDropsAFramingError := by
  intro s he hc hv
  refine ⟨_, exec_rxtick_drop he hc hv, ?_⟩
  simp [hc, unread, ferrAfter, agentOf, operandOf, encode_rxtick, SameTx, SameFifo, SameLife, SameWorld, SameMarks,
    SamePort]

/-- Settles O35: each way of a firing in turn. -/
theorem rxtickFrame : Obligations.RxtickFrame := by
  intro s t h
  rcases execRxtick_next h with ⟨-, rfl⟩ | ⟨-, hc, rfl⟩ | ⟨-, -, -, -, rfl⟩ | ⟨-, -, -, rfl⟩
  · simp [SameTx, SameLife, SameWorld, SameMarks, SamePort]
  · rw [sampleBit_logOp s hc]
    simp [SameTx, SameLife, SameWorld, SameMarks, SamePort]
  · simp [SameTx, SameLife, SameWorld, SameMarks, SamePort]
  · simp [SameTx, SameLife, SameWorld, SameMarks, SamePort]

/-- Settles O36: eight samples assemble the byte, and the ninth decides. -/
theorem frameIsReceivedOrDropped : Obligations.FrameIsReceivedOrDropped := by
  intro s b stop he ha hc hs
  obtain ⟨hup, -⟩ := (rxEdgeEnabled_iff s).mp he
  have hstart : MidFrame s b 0 (logOp .rxedge none none (startFrame { s with rxEdgePending := false })) :=
    ⟨rfl, hup, assembling_start b, by simp, rfl, rfl, rfl⟩
  obtain ⟨u, hu, hmid⟩ := hstart.samples 8 (by omega)
  obtain ⟨t, ht, hstop⟩ := hmid.stop hc hs stop
  refine ⟨_, exec_rxedge_idle he ha, t, ?_, hstop⟩
  rw [sampleRxAll_append hu, sampleRxAll_singleton]
  exact ht

end Sys2Proof.Machine
end

section
/-! The lifecycle (spec 45_lifecycle R196 to R198, R53) and the rules of the whole machine (10_state R20, R43;
60_exceptions R216 to R218), with the obligations O47 to O56. -/

namespace Sys2Proof.Machine

/-! ### INIT and TEARDOWN -/

theorem exec_init_ok {s : State} (hd : s.life = .down) (ho : s.initDraw = .ok) :
    exec .init s = .next (initOk s) := by
  simp [exec, execInit, hd, ho]

theorem exec_init_mapFail {s : State} (hd : s.life = .down) (ho : s.initDraw = .mapFail) :
    exec .init s = .next (initMapFail s) := by
  simp [exec, execInit, hd, ho]

theorem exec_init_irqFail {s : State} (hd : s.life = .down) (ho : s.initDraw = .irqFail) :
    exec .init s = .next (initIrqFail s) := by
  simp [exec, execInit, hd, ho]

theorem exec_teardown_up {s : State} (hu : s.life = .up) :
    exec .teardown s = .next (hostDone .teardown none (bringDown s)) := by
  simp [exec, execTeardown, hu]

/-! ### The history -/

/-- What an operation appends to the history: its record and its events, where it is taken (R218). -/
theorem exec_hist {i : Instr} {s t : State} (h : exec i s = .next t) :
    (taken i s = true ∧ t.hist = s.hist ++ .op (recordOf i s t) :: (eventsOf i s).map .event) ∨
    (taken i s = false ∧ t.hist = s.hist) := by
  cases exec_effect h with
  | writeRefused _ ht => exact .inr ⟨ht, rfl⟩
  | readRefused _ ht => exact .inr ⟨ht, rfl⟩
  | passedOver _ ht => exact .inr ⟨ht, rfl⟩
  | waitHeld d hu hd => exact .inr ⟨by simp [taken, hd], rfl⟩
  | overlap b hu | load b hu => exact .inl ⟨isUp_of_up hu, by simp [recordOf, eventsOf, agentOf]⟩
  | waitDone d hu hd => exact .inl ⟨by simp [taken, isUp_of_up hu, hd], by simp [recordOf, eventsOf, agentOf]⟩
  | popEmpty d hu | pop d hu | readCntOk d hu | readCntFerr d hu =>
    exact .inl ⟨isUp_of_up hu, by simp [recordOf, eventsOf, agentOf]⟩
  | readStatus d => exact .inl ⟨rfl, by simp [recordOf, eventsOf, agentOf]⟩
  | initOk hd ho | initMapFail hd ho | initIrqFail hd ho =>
    exact .inl ⟨by simp [taken, isUp_of_down hd], by simp [recordOf, eventsOf, agentOf, operandOf, hd, ho]⟩
  | teardown hu => exact .inl ⟨isUp_of_up hu, by simp [recordOf, eventsOf, agentOf]⟩
  | shift v he =>
    refine .inl ⟨he, ?_⟩
    by_cases hv : v = s.txOut <;> simp [recordOf, eventsOf, agentOf, driveOf, hv]
  | finish he => exact .inl ⟨he, by simp [recordOf, eventsOf, agentOf]⟩
  | edgeIgnored he | frameStarts he => exact .inl ⟨he, by simp [recordOf, eventsOf, agentOf]⟩
  | sample hc he => exact .inl ⟨he, by simp [recordOf, eventsOf, agentOf, hc]⟩
  | accept he hc hv =>
    refine .inl ⟨he, ?_⟩
    cases hf : fifoFull s <;>
      simp [recordOf, eventsOf, agentOf, hc, hv, pushRecords, logOp_fifoFull, hf, ← fifoFull_iff]
  | drop he hc hv => exact .inl ⟨he, by simp [recordOf, eventsOf, agentOf, hc, hv]⟩
  | line v => exact .inl ⟨rfl, by simp [recordOf, eventsOf, agentOf]⟩

/-- The host takes the words of format H, and each event has an agent of its own (R12, R88). -/
theorem agentOf_iff (i : Instr) :
    (agentOf i = .host ↔ ∃ w, encode i = .h w) ∧ (agentOf i = .txtimer ↔ i = .txtick) ∧
    (agentOf i = .rxedge ↔ i = .rxedge) ∧ (agentOf i = .rxtimer ↔ i = .rxtick) ∧
    (agentOf i = .env ↔ ∃ v, i = .line v) := by
  cases i <;> simp [agentOf, encode]

/-! ### The two timers -/

/-- `s` with another TX side and another history. -/
def withTxSide (s : State) (tx : TxState) (timer : Timer) (out : Bool) (hist : List Record) : State :=
  { s with tx := tx, txTimer := timer, txOut := out, hist := hist }

theorem logOp_withTxSide (i : Instr) (r : Option Word) (d : Option Bool) (s : State) (tx : TxState) (timer : Timer)
    (out : Bool) (hist : List Record) :
    logOp i r d (withTxSide s tx timer out hist) =
      withTxSide (logOp i r d s) tx timer out
        (hist ++ [.op { time := s.now, agent := agentOf i, code := encode i, operand := operandOf i, result := r,
                        drive := d }]) := rfl

theorem acceptedState_withTxSide (s : State) (tx : TxState) (timer : Timer) (out : Bool) (hist : List Record) :
    acceptedState (withTxSide s tx timer out hist) =
      withTxSide (acceptedState s) tx timer out
        (hist ++ pushRecords s ++ [.event (.frameOk s.rx.accumulator)]) := rfl

theorem droppedState_withTxSide (s : State) (tx : TxState) (timer : Timer) (out : Bool) (hist : List Record) :
    droppedState (withTxSide s tx timer out hist) =
      withTxSide (droppedState s) tx timer out (hist ++ [.event (.framingError s.rx.accumulator)]) := rfl

/-- A firing goes by the TX state alone. -/
theorem txFire_of_tx_eq {s r : State} (h : r.tx = s.tx) :
    (∃ v, txFire s = txShift v s ∧ txFire r = txShift v r) ∨
    (txFire s = txFinish s ∧ txFire r = txFinish r) := by
  unfold txFire
  rw [h]
  cases s.tx.bitIndex with
  | start => exact .inl ⟨_, rfl, rfl⟩
  | data i => exact .inl ⟨_, rfl, rfl⟩
  | stop => exact .inl ⟨_, rfl, rfl⟩
  | done => exact .inr ⟨rfl, rfl⟩

/-- TXTICK goes by the TX side, the life, the time and the parameters, and writes the TX side and the history
alone. -/
theorem exec_txtick_withTxSide (s : State) : ∃ tx timer out l, ∀ r : State,
    SameTx s r → r.life = s.life → r.now = s.now → r.cfg = s.cfg →
      exec .txtick r = .next (withTxSide r tx timer out (r.hist ++ l)) := by
  cases he : txTickEnabled s with
  | false =>
    refine ⟨s.tx, s.txTimer, s.txOut, [], fun r ⟨htx, htimer, hout⟩ hlife hnow _ => ?_⟩
    rw [exec_txtick_disabled (by simpa [txTickEnabled, timerDue, isUp, htimer, hlife, hnow] using he)]
    simp [withTxSide, ← htx, ← htimer, ← hout]
  | true =>
    refine ⟨(txFire s).tx, (txFire s).txTimer, (txFire s).txOut,
      [.op { time := s.now, agent := .txtimer, code := encode .txtick, operand := none, result := none,
             drive := driveOf s (txFire s) }], fun r ⟨htx, htimer, hout⟩ hlife hnow hcfg => ?_⟩
    rw [exec_txtick_enabled (by simpa [txTickEnabled, timerDue, isUp, htimer, hlife, hnow] using he)]
    rcases txFire_of_tx_eq htx with ⟨v, hs, hr⟩ | ⟨hs, hr⟩ <;> rw [hs, hr]
    · by_cases hv : v = s.txOut <;>
        simp [withTxSide, logOp, txShift, pinPut, timerForward, driveOf, agentOf, operandOf, htx, htimer, hout, hnow,
          hcfg, hv]
    · simp [withTxSide, logOp, txFinish, timerCancel, driveOf, agentOf, operandOf, htx, htimer, hout, hnow]

/-- RXTICK neither reads nor writes the TX side, and to the history it only appends. -/
theorem exec_rxtick_withTxSide {s u : State} (h : exec .rxtick s = .next u) :
    ∃ l, u.hist = s.hist ++ l ∧ ∀ tx timer out hist,
      exec .rxtick (withTxSide s tx timer out hist) = .next (withTxSide u tx timer out (hist ++ l)) := by
  rcases execRxtick_next h with ⟨hr, rfl⟩ | ⟨hr, hc, rfl⟩ | ⟨hr, hc, hv, hh, rfl⟩ | ⟨hr, hc, hv, rfl⟩
  · refine ⟨[], by simp, fun tx timer out hist => ?_⟩
    rw [exec_rxtick_disabled (s := withTxSide u tx timer out hist) hr, List.append_nil]
  · exact ⟨_, rfl, fun tx timer out hist =>
      exec_rxtick_sample (s := withTxSide s tx timer out hist) hr hc⟩
  · have h8 : s.rx.bitCount.val = 8 := by omega
    refine ⟨.op { time := s.now, agent := .rxtimer, code := encode .rxtick, operand := none, result := none,
                  drive := none } :: (pushRecords s ++ [.event (.frameOk s.rx.accumulator)]),
      by simp [agentOf, operandOf], fun tx timer out hist => ?_⟩
    rw [exec_rxtick_accept (s := withTxSide s tx timer out hist) hr h8 hv hh, logOp_withTxSide,
      acceptedState_withTxSide, List.append_assoc, List.append_assoc]
    rfl
  · have h8 : s.rx.bitCount.val = 8 := by omega
    refine ⟨[.op { time := s.now, agent := .rxtimer, code := encode .rxtick, operand := none, result := none,
                   drive := none }, .event (.framingError s.rx.accumulator)],
      by simp [agentOf, operandOf], fun tx timer out hist => ?_⟩
    rw [exec_rxtick_drop (s := withTxSide s tx timer out hist) hr h8 hv, logOp_withTxSide,
      droppedState_withTxSide, List.append_assoc]
    rfl

/-! ### The obligations -/

/-- Settles O47: `bringUp` writes the UP column, and the record drives HIGH. -/
theorem initOkWritesTheUpColumn : Obligations.InitOkWritesTheUpColumn := by
  intro s hd ho
  refine ⟨_, exec_init_ok hd ho, ?_⟩
  simp [TxIndex.toInt, wireTrace, SameWorld, SameMarks]

/-- Settles O48: only `last_err` and the history change. -/
theorem initMapFailAcquiresNothing : Obligations.InitMapFailAcquiresNothing := by
  intro s hd ho
  refine ⟨_, exec_init_mapFail hd ho, ?_⟩
  simp [hd, agentOf, operandOf, ferrAfter, SameTx, SameRx, SameFifo, SameCounters, SameWorld, SameMarks]
  rfl

/-- Settles O49: the pins are released again. -/
theorem initIrqFailReleasesThePins : Obligations.InitIrqFailReleasesThePins := by
  intro s hd ho
  refine ⟨_, exec_init_irqFail hd ho, ?_⟩
  simp [hd, agentOf, operandOf, ferrAfter, SameRx, SameFifo, SameCounters, SameWorld]
  rfl

/-- Settles O50: `bringDown` is the release. -/
theorem teardownReleasesEverything : Obligations.TeardownReleasesEverything := by
  intro s hu
  refine ⟨_, exec_teardown_up hu, ?_⟩
  simp [SameFifo, SameCounters, SameWorld]

/-- Settles O51: each way of an operation in turn, the FIFO by what can change it. -/
theorem onlyItsOwnersWriteAField : Obligations.OnlyItsOwnersWriteAField := by
  intro i s t h
  cases exec_effect h <;> simp [poppedFifo, pushedFifo]

/-- Settles O52: a refusal and an overlap set a mark, and no operation clears one. -/
theorem faultAndRefusedOnlyGrow : Obligations.FaultAndRefusedOnlyGrow := by
  refine fun i s t h => ⟨exec_fault_mono h, fun hr => ?_⟩
  cases exec_effect h <;> simp [hr]

/-- Settles O53: an operation appends to the history, and the record of TXTICK shows the level it changes. -/
theorem historyAndWireTraceGrow : Obligations.HistoryAndWireTraceGrow := by
  refine ⟨fun i s t h => ?_, fun s t h => ?_⟩
  · rcases exec_hist h with ⟨-, e⟩ | ⟨-, e⟩
    · exact ⟨_, e⟩
    · exact ⟨[], by simp [e]⟩
  · rcases execTxtick_next h with ⟨-, rfl⟩ | ⟨-, rfl⟩
    · simp
    · rw [wireTrace_logOp]
      rcases txFire_shift_or_finish s with ⟨-, v, hf⟩ | ⟨-, hf⟩
      · by_cases hv : v = s.txOut <;> simp [hf, driveOf, hv]
      · simp [hf, driveOf]

/-- Settles O54: neither touches what the other reads, and both append to the history. -/
theorem theTwoTimerTicksCommute : Obligations.TheTwoTimerTicksCommute := by
  intro s t u ht hu
  obtain ⟨tx, timer, out, l, htick⟩ := exec_txtick_withTxSide s
  obtain rfl : withTxSide s tx timer out (s.hist ++ l) = t := by
    simpa using (htick s ⟨rfl, rfl, rfl⟩ rfl rfl rfl).symm.trans ht
  obtain ⟨l', hhist, hrx⟩ := exec_rxtick_withTxSide hu
  obtain ⟨⟨htx, htimer, hout⟩, ⟨hlife, -⟩, ⟨hcfg, hnow, -⟩, -⟩ := rxtickFrame _ _ hu
  refine ⟨_, _, hrx s.tx s.txTimer s.txOut s.hist, htick _ ⟨rfl, rfl, rfl⟩ hlife hnow hcfg, ?_, ?_⟩
  · rw [hhist]
    simpa [withTxSide] using (List.perm_append_comm (l₁ := l') (l₂ := l)).append_left s.hist
  · simp only [withTxSide] at htx htimer hout ⊢
    rw [← htx, ← htimer, ← hout]

/-- Settles O55: the invariant has the mask on and nothing pending while a frame is active. -/
theorem edgeInterruptIsOffDuringAFrame : Obligations.EdgeInterruptIsOffDuringAFrame := by
  intro s hi hu hf hact
  obtain ⟨-, hmask, hpend, -⟩ := hi.running hu hf
  rw [hact, Bool.not_true] at hmask
  have hnone : s.rxEdgePending = false := by
    cases hp : s.rxEdgePending with
    | false => rfl
    | true => simp [(hpend hp).1] at hmask
  refine ⟨fun v t h => ?_, fun i t h hlift => ?_, fun i t h hup hidle => ?_⟩
  · rw [execLine_next h]
    simp [hnone, edgeCaught, hmask]
  · cases exec_effect h with
    | initOk hd => simp [hu] at hd
    | accept he hc => exact ⟨rfl, by omega, by simp⟩
    | drop he hc => exact ⟨rfl, by omega, by simp⟩
    | _ => simp [hmask] at hlift
  · cases exec_effect h with
    | initOk hd => simp
    | teardown => simp at hup
    | accept => simp
    | drop => simp
    | _ => simp [hact] at hidle

/-- Settles O56: the record, taken or not, and the agent and operand it shows. -/
theorem everyOperationAppendsItsRecord : Obligations.EveryOperationAppendsItsRecord := by
  refine ⟨fun i s t h => ?_, fun i s t => ?_⟩
  · rcases exec_hist h with ⟨ht, e⟩ | ⟨ht, e⟩
    · exact ⟨fun _ => e, fun hn => by simp [ht] at hn⟩
    · exact ⟨fun hn => by simp [ht] at hn, fun _ => e⟩
  · obtain ⟨hhost, htx, hedge, hrx, henv⟩ := agentOf_iff i
    exact ⟨rfl, rfl, hhost, htx, hedge, hrx, henv, fun b => rfl, fun v => by cases v <;> rfl⟩

end Sys2Proof.Machine
end

section
/-! Reception under the premise of timing (spec 70_reset_and_hazards R246, R251; 43_rx_detector_sampler R162, R163,
R166), and the model's own stops (20_memory R61, 30_encoding R84), with the obligations O59 and O60. -/

namespace Sys2Proof.Machine

/-! ### A frame being received, whatever other agents do -/

/-- A frame of byte `b` is being received, `k` of its bits are sampled, and no edge can start another (R166). -/
def Receiving (b : Byte) (k : Nat) (s : State) : Prop :=
  Assembling b k s.rx ∧ s.rxIrqEn = false ∧ s.rxEdgePending = false

theorem receiving_of_eq {b : Byte} {k : Nat} {s t : State} (h : Receiving b k s) (hrx : t.rx = s.rx)
    (hirq : t.rxIrqEn = s.rxIrqEn) (hpend : t.rxEdgePending = s.rxEdgePending) : Receiving b k t := by
  unfold Receiving
  rw [hrx, hirq, hpend]
  exact h

/-- An operation that is no firing of the RX timer, and does not take the block down, leaves the frame alone. -/
theorem exec_keeps_receiving {b : Byte} {k : Nat} {i : Instr} {s t : State} (h : exec i s = .next t)
    (hr : Receiving b k s) (hu : s.life = .up) (hi : i = .rxtick → rxTickEnabled s = false)
    (ht : t.life = .up) : Receiving b k t := by
  obtain ⟨-, hirq, hpend⟩ := id hr
  cases exec_effect h with
  | initOk hd => simp [hu] at hd
  | initMapFail hd => simp [hu] at hd
  | initIrqFail hd => simp [hu] at hd
  | teardown => simp at ht
  | edgeIgnored he => simp [rxEdgeEnabled, hpend] at he
  | frameStarts he => simp [rxEdgeEnabled, hpend] at he
  | sample _ he => simp [hi rfl] at he
  | accept he => simp [hi rfl] at he
  | drop he => simp [hi rfl] at he
  | line v => exact receiving_of_eq hr (by simp) (by simp) (by simp [edgeCaught, hirq])
  | _ => exact receiving_of_eq hr (by simp) (by simp) (by simp)

theorem takeInput_keeps_receiving {b : Byte} {k : Nat} {x : Input} {s t : State} (h : takeInput x s = .next t)
    (hr : Receiving b k s) (hu : s.life = .up)
    (hx : x = inputOf (encode .rxtick) → rxTickEnabled s = false) (ht : t.life = .up) : Receiving b k t := by
  have hexec : ∀ {i}, x = inputOf (encode i) → exec i s = .next t → Receiving b k t := fun hi he =>
    exec_keeps_receiving he hr hu (fun hi' => hx (hi.trans (by rw [hi']))) ht
  cases x with
  | host w =>
    rcases takeHost_next h with ⟨i, hi, he⟩ | rfl | rfl
    · exact hexec hi he
    · exact hr
    · exact hr
  | event c =>
    obtain ⟨i, hi, he⟩ := takeEvent_next h
    exact hexec hi he
  | write bs =>
    cases h
    exact receiving_of_eq hr (by simp) (by simp) (by simp)
  | writer j =>
    rcases writerStep_next h with rfl | ⟨c, i, -, hi, he⟩
    · exact hr
    · refine exec_keeps_receiving he (by exact hr) (by exact hu) (fun hi' => ?_) ht
      rcases nextOp_cases hi with ⟨-, b, -, -, hi⟩ | ⟨-, hi⟩ <;> simp [hi'] at hi
  | read n =>
    cases h
    exact receiving_of_eq hr (by simp) (by simp) (by simp)
  | reader j =>
    rcases readerStep_next h with rfl | ⟨c, u, -, he, rfl⟩
    · exact hr
    · exact receiving_of_eq (exec_keeps_receiving he hr hu (by simp) (by simpa using ht)) (by simp) (by simp)
        (by simp)
  | advance dt =>
    cases h
    rcases advanceTime_cases dt s with ⟨-, e⟩ | ⟨-, e⟩ <;> rw [e] <;> exact hr
  | initDraw o =>
    cases h
    exact hr
  | rst =>
    cases h
    cases ht

/-- Lifting is nothing to the receiver. -/
theorem receiving_liftHolds {b : Byte} {k : Nat} {s : State} (h : Receiving b k s) :
    Receiving b k (liftHolds s) :=
  receiving_of_eq h (by simp) (by simp) (by simp)

/-- A step that is no firing of the RX timer, and after which the block is still UP, leaves the frame alone. -/
theorem step_keeps_receiving {b : Byte} {k : Nat} {s t : State} (h : step s = .next t) (hr : Receiving b k s)
    (hu : s.life = .up) (hx : s.inputs.head? = some (inputOf (encode .rxtick)) → rxTickEnabled s = false)
    (ht : t.life = .up) : Receiving b k t := by
  obtain ⟨u, rfl, hu'⟩ := step_lifts h
  apply receiving_liftHolds
  rcases hu' with rfl | ⟨x, rest, hin, hu'⟩
  · exact hr
  · exact takeInput_keeps_receiving hu' (by exact hr) (by exact hu)
      (fun hx' => hx (by rw [hin, hx']; rfl)) (by simpa using ht)

/-! ### The steps of a frame -/

/-- The step of an operation that is next on the schedule. -/
theorem step_of_head {i : Instr} {s u : State} (hin : s.inputs.head? = some (inputOf (encode i)))
    (h : exec i { s with inputs := s.inputs.tail } = .next u) : step s = .next (liftHolds u) := by
  have hcons : s.inputs = inputOf (encode i) :: s.inputs.tail := (List.cons_head?_tail hin).symm
  have hdecode : decode (encode i) = .ok i := encodedInstructionDecodesBack i (by cases i <;> rfl)
  exact step_of_takeInput hcons ((takeInput_inputOf hdecode _).trans h)

theorem step_starts_receiving {s : State} (b : Byte) (hin : s.inputs.head? = some (inputOf (encode .rxedge)))
    (he : rxEdgeEnabled s = true) (ha : s.rx.active = false) : ∃ t, step s = .next t ∧ Receiving b 0 t :=
  ⟨_, step_of_head hin (exec_rxedge_idle he ha), receiving_liftHolds ⟨assembling_start b, rfl, rfl⟩⟩

theorem step_samples {b : Byte} {k : Nat} {s : State} (hr : Receiving b k s) (hk : k < 8)
    (hin : s.inputs.head? = some (inputOf (encode .rxtick))) (he : rxTickEnabled s = true)
    (hv : s.rxIn = b.getLsbD k) : ∃ t, step s = .next t ∧ Receiving b (k + 1) t := by
  obtain ⟨hasm, hirq, hpend⟩ := hr
  obtain ⟨-, hcount, -⟩ := id hasm
  have hc : s.rx.bitCount.val < 8 := hcount ▸ hk
  exact ⟨_, step_of_head hin (exec_rxtick_sample (s := { s with inputs := s.inputs.tail }) he hc),
    receiving_liftHolds ⟨hasm.sample (s := { s with inputs := s.inputs.tail }) hk hv hc, hirq, hpend⟩⟩

theorem step_accepts {b : Byte} {s : State} (hr : Receiving b 8 s) (hi : Inv s)
    (hin : s.inputs.head? = some (inputOf (encode .rxtick))) (he : rxTickEnabled s = true)
    (hv : s.rxIn = true) :
    ∃ t, step s = .next t ∧ t.rx.active = false ∧ t.rxIrqEn = true ∧ (unread t).getLast? = some b ∧
      t.cntRxOk = s.cntRxOk + 1 ∧ t.cntRxFerr = s.cntRxFerr := by
  obtain ⟨hasm, -, -⟩ := hr
  obtain ⟨-, hcount, -⟩ := id hasm
  refine ⟨_, step_of_head hin (exec_rxtick_accept he hcount hv hi.cursors.1), by simp, by simp, ?_, by simp,
    by simp⟩
  have hlast := getLast?_unread_pushedFifo (s := { s with inputs := s.inputs.tail }) s.rx.accumulator hi.cursors
    hi.storage.1
  rw [hasm.accumulator_eq] at hlast
  simpa [unread, hasm.accumulator_eq] using hlast

/-! ### Along the run -/

theorem stateAt_succ_of_step {s u t : State} {n : Nat} (hu : stateAt s n = some u) (h : step u = .next t) :
    stateAt s (n + 1) = some t := by
  simp only [stateAt, hu, h]

/-- What a step leaves holds at the next place of the run. -/
theorem stateAt_succ_of_next {P : State → Prop} {s u : State} {n : Nat} (hu : stateAt s n = some u)
    (h : ∃ t, step u = .next t ∧ P t) : ∀ v, stateAt s (n + 1) = some v → P v := by
  obtain ⟨t, hstep, ht⟩ := h
  intro v hv
  obtain rfl : t = v := Option.some_inj.mp ((stateAt_succ_of_step hu hstep).symm.trans hv)
  exact ht

theorem stepTakes_iff (i : Instr) (enabled : State → Bool) (s : State) (n : Nat) :
    stepTakes i enabled s n = true ↔
      ∃ u, stateAt s n = some u ∧ u.inputs.head? = some (inputOf (encode i)) ∧ enabled u = true := by
  unfold stepTakes
  cases stateAt s n <;> simp

/-- The invariant, once it holds in a run, holds from there on. -/
theorem stateAt_inv {s : State} {m n : Nat} (hm : ∀ u, stateAt s m = some u → Inv u) (hmn : m ≤ n) :
    ∀ u, stateAt s n = some u → Inv u := by
  induction n, hmn using Nat.le_induction with
  | base => exact hm
  | succ n _ ih =>
    intro u hu
    obtain ⟨v, hv, hstep⟩ := stateAt_succ hu
    exact step_keeps_inv (ih v hv) hstep

/-- Between two samples of a frame nothing of it changes, as long as the block stays UP. -/
theorem stateAt_receiving {b : Byte} {k : Nat} {s : State} {m n : Nat}
    (hm : ∀ u, stateAt s m = some u → Receiving b k u) (hmn : m ≤ n)
    (hup : ∀ j, m ≤ j → j ≤ n → ∀ u, stateAt s j = some u → u.life = .up)
    (hquiet : ∀ j, m ≤ j → j < n → takesRxtick s j = false) :
    ∀ u, stateAt s n = some u → Receiving b k u := by
  induction n, hmn using Nat.le_induction with
  | base => exact hm
  | succ n hmn ih =>
    intro u hu
    obtain ⟨v, hv, hstep⟩ := stateAt_succ hu
    refine step_keeps_receiving hstep ?_ (hup n hmn (by omega) v hv) (fun hin => ?_)
      (hup (n + 1) (by omega) (by omega) u hu)
    · exact ih (fun j hj hjn => hup j hj (by omega)) (fun j hj hjn => hquiet j hj (by omega)) v hv
    · have hnot := hquiet n hmn (by omega)
      rw [takesRxtick, ← Bool.not_eq_true, stepTakes_iff] at hnot
      cases he : rxTickEnabled v with
      | false => rfl
      | true => exact absurd ⟨v, hv, hin, he⟩ hnot

section Aligned

variable {s : State} {b : Byte} {edge : Nat} {enter : Fin 11 → Nat} {sample : Fin 9 → Nat}

theorem TimingAlignment.strictMono (h : TimingAlignment s b edge enter sample) : StrictMono sample :=
  fun j k hjk => h.rising j k hjk

theorem TimingAlignment.edge_lt_sample (h : TimingAlignment s b edge enter sample) (k : Fin 9) :
    edge < sample k := by
  obtain ⟨-, -, hfirst⟩ := h.handler
  exact lt_of_lt_of_le hfirst (h.strictMono.monotone (Fin.zero_le k))

/-- At its k-th sample the line is at the level of cell k + 1 (R251). -/
theorem TimingAlignment.line_at_sample (h : TimingAlignment s b edge enter sample) (k : Fin 9) {u : State}
    (hu : stateAt s (sample k) = some u) : u.rxIn = frameLevel b (k.val + 1) := by
  obtain ⟨hin, hout⟩ := h.inside k
  have hlevel := h.level k.succ (sample k) hout hin
  rw [lineAt, hu, Option.map_some, Option.some_inj] at hlevel
  exact hlevel

/-- Strictly between two samples, or between the handler and the first, the RX timer does not fire. -/
theorem TimingAlignment.quiet (h : TimingAlignment s b edge enter sample) {n : Nat} (he : edge < n)
    {k : Fin 9} (hn : n < sample k) (hlow : ∀ j, j < k → sample j < n) : takesRxtick s n = false := by
  have hmono := h.strictMono
  cases ht : takesRxtick s n with
  | false => rfl
  | true =>
    have hlast : sample k ≤ sample 8 := hmono.monotone (Fin.le_last k)
    obtain ⟨j, rfl⟩ := h.noOther n (by omega) he ht
    exact absurd (hlow j (hmono.lt_iff_lt.mp hn)) (by omega)

/-- At its k-th sample, counted from 0, the receiver has assembled the first k bits. -/
theorem TimingAlignment.receiving_at_sample (h : TimingAlignment s b edge enter sample)
    (hup : ∀ n, n ≤ sample 8 → edge ≤ n → ∃ u, stateAt s n = some u ∧ u.life = .up) (k : Nat) (hk : k < 9) :
    ∀ u, stateAt s (sample ⟨k, hk⟩) = some u → Receiving b k u := by
  have hmono := h.strictMono
  obtain ⟨hstart, -, hfirst⟩ := h.handler
  have hafter : ∀ j, edge < sample j := h.edge_lt_sample
  have hbefore : ∀ j, sample j ≤ sample 8 := fun j => hmono.monotone (Fin.le_last j)
  have hlife : ∀ j, edge ≤ j → j ≤ sample 8 → ∀ u, stateAt s j = some u → u.life = .up := by
    intro j hej hj u hu
    obtain ⟨v, hv, hlife⟩ := hup j hj hej
    obtain rfl : v = u := Option.some_inj.mp (hv.symm.trans hu)
    exact hlife
  induction k with
  | zero =>
    obtain ⟨u, hu, hin, henabled⟩ := (stepTakes_iff _ _ _ _).mp hstart
    simp only [Bool.and_eq_true, Bool.not_eq_true'] at henabled
    exact stateAt_receiving (stateAt_succ_of_next hu (step_starts_receiving b hin henabled.1 henabled.2)) hfirst
      (fun j hj hjn => hlife j (by omega) (le_trans hjn (hbefore 0)))
      (fun j hj hjn => h.quiet hj hjn (fun i hi => absurd hi (Fin.not_lt_zero i)))
  | succ k ih =>
    obtain ⟨u, hu, hin, henabled⟩ := (stepTakes_iff _ _ _ _).mp (h.ticks ⟨k, by omega⟩)
    have hline : u.rxIn = b.getLsbD k := by
      simpa [frameLevel, show k + 1 ≤ 8 by omega] using h.line_at_sample ⟨k, by omega⟩ hu
    have hgap : sample ⟨k, by omega⟩ < sample ⟨k + 1, hk⟩ := hmono (Nat.lt_succ_self k)
    have hfrom := hafter ⟨k, by omega⟩
    have hto := hbefore ⟨k + 1, hk⟩
    refine stateAt_receiving
      (stateAt_succ_of_next hu (step_samples (ih (by omega) u hu) (by omega) hin henabled hline)) hgap
      (fun j hj hjn => hlife j (by omega) (le_trans hjn hto)) (fun j hj hjn => ?_)
    refine h.quiet (by omega) hjn fun i hi => ?_
    have hi : sample i ≤ sample ⟨k, by omega⟩ := hmono.monotone (Nat.le_of_lt_succ hi)
    omega

end Aligned

/-! ### The obligations -/

/-- Settles O59: the frame is assembled sample by sample, and the ninth accepts it. -/
theorem alignedFrameIsReceived : Obligations.AlignedFrameIsReceived := by
  intro s b edge enter sample h hinv hup
  obtain ⟨u, hu, hin, henabled⟩ := (stepTakes_iff _ _ _ _).mp (h.ticks 8)
  have hr : Receiving b 8 u := h.receiving_at_sample hup 8 (by omega) u hu
  have hedge : edge ≤ sample 8 := Nat.le_of_lt (h.edge_lt_sample 8)
  have hline : u.rxIn = true := h.line_at_sample 8 hu
  obtain ⟨t, hstep, haccepted⟩ := step_accepts hr (stateAt_inv hinv hedge u hu) hin henabled hline
  exact ⟨u, t, hu, stateAt_succ_of_step hu hstep, hr.1.accumulator_eq, hr.1.2.1, haccepted⟩

/-- Settles O60: a slot that does not exist is neither read nor written, and no event has the unused codes. -/
theorem absentSlotAndUnusedCodeStopByName : Obligations.AbsentSlotAndUnusedCodeStopByName := by
  refine ⟨fun s d hu hne ht => ?_, fun s he hc hv hh => ?_, fun s c rest hin hc => ?_⟩
  · simp [exec, execRxpop, hu, fifoPop, fifoEmpty, hne, memRead, Nat.not_lt.mpr ht]
  · have hpush := fifoPush_error s.rx.accumulator (logOp .rxtick none none s) (Nat.not_lt.mpr hh)
    simp [exec, execRxtick, he, rxFire, hc, stopCheck, pinRead, hv, acceptFrame, hpush]
  · obtain ⟨e, he⟩ := (decodeEvent_error_iff c).mpr hc
    simp [step_of_input hin, takeInput, takeEvent, he, settle]

end Sys2Proof.Machine
end
